-- ==== Sys2Proof/Word.lean ====
section
/-! DEFINITION. The word types of the block (00_scope.md R8, R9). -/

namespace Sys2Proof

/-- One 64-bit word: a register, a buffer entry or a port word (R8, R50). -/
abbrev Word := BitVec 64

/-- A byte address of the register map, 18 bits (20_memory.md R70). -/
abbrev Addr := BitVec 18

/-- An 8-bit band id (R8). -/
abbrev BandId := BitVec 8

/-- A 16-bit count (R8). -/
abbrev Count := BitVec 16

end Sys2Proof
end

