-- ==== Sys2Proof/Syntax.lean ====
section
/-! DEFINITION. The block's instructions: one constructor per row of spec/opcode_table.json. -/

namespace Sys2Proof

/-- The closed set of filter types (00_scope.md R3), in the order of their codes (30_encoding.md R104). -/
inductive FilterType where
  | allpass
  | bandpass
  | highpass
  | highshelf
  | lowpass
  | lowshelf
  | notch
  | peaking
deriving DecidableEq, Repr

/-- The ports an instruction arrives on (30_encoding.md R105, R106, R111). -/
inductive Port where
  | cmd
  | qcmd
  | sin
deriving DecidableEq, Repr

/-- One operation of the block. Operands that a command reads from CARG, QARG or FREQ_BUF are not part
of it; a token's payload is. -/
inductive Instr where
  /-- SET_FREQ (42_control.md R233) -/
  | setFreq (b : BandId)
  /-- SET_Q (R234) -/
  | setQ (b : BandId)
  /-- SET_GAIN (R235) -/
  | setGain (b : BandId)
  /-- SET_TYPE (R236) -/
  | setType (b : BandId) (t : FilterType)
  /-- SET_PARAMS (R237) -/
  | setParams (b : BandId) (t : FilterType)
  /-- DESIGN (40_designer.md R166) -/
  | design (t : FilterType)
  /-- READ_BAND (43_analyzer.md R269) -/
  | readBand (b : BandId)
  /-- RESPONSE (R268) -/
  | response (n : Count)
  /-- RESPONSE_BAND (R270) -/
  | responseBand (b : BandId) (n : Count)
  /-- RESPONSE_CHAIN (R271) -/
  | responseChain (n : Count)
  /-- FRAME with its payload, channel 0 first (41_filter.md R199); COUNT is the payload's length -/
  | frame (xs : List Word)
  /-- RATE with its payload word (R213) -/
  | rate (s : Word)
  /-- CHANNELS with its COUNT (R214) -/
  | channels (n : Count)
  /-- DISCONTINUITY (R215) -/
  | discontinuity
  /-- DELIVER, a step of agent E with no encoding (44_notifier.md R297) -/
  | deliver
deriving DecidableEq, Repr

/-- The port an instruction arrives on; DELIVER arrives on none. -/
def Instr.port : Instr → Option Port
  | .setFreq _ | .setQ _ | .setGain _ | .setType _ _ | .setParams _ _ => some .cmd
  | .design _ | .readBand _ | .response _ | .responseBand _ _ | .responseChain _ => some .qcmd
  | .frame _ | .rate _ | .channels _ | .discontinuity => some .sin
  | .deliver => none

end Sys2Proof
end

