-- ==== Sys2Proof/WellFormed.lean ====
section
/-! DEFINITION. Which instructions an encoding can carry. Every field but FRAME's payload is bounded by its
type. -/

namespace Sys2Proof

/-- A FRAME's COUNT is 16 bits wide, so its payload has fewer than 65536 words (30_encoding.md R110, R111). -/
def Instr.wf : Instr → Bool
  | .frame xs => decide (xs.length < 65536)
  | .setFreq _ | .setQ _ | .setGain _ | .setType _ _ | .setParams _ _ => true
  | .design _ | .readBand _ | .response _ | .responseBand _ _ | .responseChain _ => true
  | .rate _ | .channels _ | .discontinuity | .deliver => true

end Sys2Proof
end

