-- ==== Sys2Proof/Decode.lean ====
section
/-! DEFINITION. Decoding of command words and stream tokens (30_encoding.md R100 to R113), and the encoder
(R119, R120). The unit of every port is the 64-bit word. -/

namespace Sys2Proof

/-- Why a word or token is no instruction. The block reports each as BAD_COMMAND (R102, R113). -/
inductive DecodeError where
  /-- bits [7:0] are no opcode of the port -/
  | unknownOpcode
  /-- a reserved bit, or a COUNT that must be 0, is not 0 -/
  | reservedBits
  /-- BAND is not 0 where the opcode requires it -/
  | bandNotZero
  /-- the payload has not the length the header gives -/
  | payloadLength
deriving DecidableEq, Repr

/-! ## Fields (R101, R103, R110) -/

def opField (w : Word) : BitVec 8 := w.extractLsb' 0 8
def bandField (w : Word) : BandId := w.extractLsb' 8 8
def typeField (w : Word) : BitVec 3 := w.extractLsb' 16 3
def countField (w : Word) : Count := w.extractLsb' 16 16

/-- R104. -/
def FilterType.code : FilterType → BitVec 3
  | .allpass => 0
  | .bandpass => 1
  | .highpass => 2
  | .highshelf => 3
  | .lowpass => 4
  | .lowshelf => 5
  | .notch => 6
  | .peaking => 7

/-- R104: every code is a type. -/
def FilterType.ofCode (c : BitVec 3) : FilterType :=
  match c.toNat with
  | 0 => .allpass
  | 1 => .bandpass
  | 2 => .highpass
  | 3 => .highshelf
  | 4 => .lowpass
  | 5 => .lowshelf
  | 6 => .notch
  | _ => .peaking

/-! ## Formats (R101, R102): the instruction, where the format's reserved bits are 0 -/

def formatB (w : Word) (i : Instr) : Except DecodeError Instr :=
  if w.extractLsb' 16 48 = 0 then .ok i else .error .reservedBits

def formatT (w : Word) (i : Instr) : Except DecodeError Instr :=
  if w.extractLsb' 19 45 = 0 then .ok i else .error .reservedBits

def formatN (w : Word) (i : Instr) : Except DecodeError Instr :=
  if w.extractLsb' 32 32 = 0 then .ok i else .error .reservedBits

/-- R102, R106: an opcode that requires BAND = 0. -/
def bandZero (w : Word) (r : Except DecodeError Instr) : Except DecodeError Instr :=
  if bandField w = 0 then r else .error .bandNotZero

/-- The control port's map (R105). -/
def decodeCmd (w : Word) : Except DecodeError Instr :=
  match (opField w).toNat with
  | 0x01 => formatB w (.setFreq (bandField w))
  | 0x02 => formatB w (.setQ (bandField w))
  | 0x03 => formatB w (.setGain (bandField w))
  | 0x04 => formatT w (.setType (bandField w) (.ofCode (typeField w)))
  | 0x05 => formatT w (.setParams (bandField w) (.ofCode (typeField w)))
  | _ => .error .unknownOpcode

/-- The query port's map (R106). -/
def decodeQcmd (w : Word) : Except DecodeError Instr :=
  match (opField w).toNat with
  | 0x20 => bandZero w (formatT w (.design (.ofCode (typeField w))))
  | 0x21 => formatB w (.readBand (bandField w))
  | 0x22 => bandZero w (formatN w (.response (countField w)))
  | 0x23 => formatN w (.responseBand (bandField w) (countField w))
  | 0x24 => bandZero w (formatN w (.responseChain (countField w)))
  | _ => .error .unknownOpcode

/-- How many words follow a header, by its OP alone (R112). -/
def payloadLen (h : Word) : Nat :=
  match (opField h).toNat with
  | 0x40 => (countField h).toNat
  | 0x41 => 1
  | _ => 0

/-- Format S: bits [15:8] and [63:32] are 0 (R110). -/
def formatS (h : Word) (r : Except DecodeError Instr) : Except DecodeError Instr :=
  if bandField h = 0 ∧ h.extractLsb' 32 32 = 0 then r else .error .reservedBits

/-- RATE and DISCONTINUITY: COUNT must be 0 (R111, R113). -/
def countZero (h : Word) (r : Except DecodeError Instr) : Except DecodeError Instr :=
  if countField h = 0 then r else .error .reservedBits

/-- A token: its header and the payload that R112 gives it (R111, R113). -/
def decodeToken (h : Word) (payload : List Word) : Except DecodeError Instr :=
  if payload.length ≠ payloadLen h then .error .payloadLength
  else
    match (opField h).toNat with
    | 0x40 => formatS h (.ok (.frame payload))
    | 0x41 => formatS h (countZero h (match payload with | s :: _ => .ok (.rate s) | [] => .error .payloadLength))
    | 0x42 => formatS h (.ok (.channels (countField h)))
    | 0x43 => formatS h (countZero h (.ok .discontinuity))
    | _ => .error .unknownOpcode

/-- The next token of a stream, where every word of it is present: its header, its payload and the words
after it (R112, 41_filter.md R198). -/
def splitToken : List Word → Option (Word × List Word × List Word)
  | [] => none
  | h :: ws =>
    if payloadLen h ≤ ws.length then some (h, ws.take (payloadLen h), ws.drop (payloadLen h)) else none

/-- The instruction at the start of the words waiting on a port, and the words after it. -/
def decode (p : Port) (ws : List Word) : Except DecodeError (Instr × List Word) :=
  match p, ws with
  | .cmd, w :: rest => (decodeCmd w).map (·, rest)
  | .qcmd, w :: rest => (decodeQcmd w).map (·, rest)
  | .cmd, [] | .qcmd, [] => .error .payloadLength
  | .sin, ws =>
    match splitToken ws with
    | some (h, payload, rest) => (decodeToken h payload).map (·, rest)
    | none => .error .payloadLength

/-! ## The encoder (R119, R120) -/

/-- B(op, b), T(op, b, t), N(op, b, n) and format S, which is N with b = 0. -/
def wordB (op : BitVec 8) (b : BandId) : Word := (b ++ op).setWidth 64
def wordT (op : BitVec 8) (b : BandId) (t : FilterType) : Word := (t.code ++ b ++ op).setWidth 64
def wordN (op : BitVec 8) (b : BandId) (n : Count) : Word := (n ++ b ++ op).setWidth 64

/-- The words of an instruction on its port; DELIVER has none. -/
def encode : Instr → List Word
  | .setFreq b => [wordB 0x01 b]
  | .setQ b => [wordB 0x02 b]
  | .setGain b => [wordB 0x03 b]
  | .setType b t => [wordT 0x04 b t]
  | .setParams b t => [wordT 0x05 b t]
  | .design t => [wordT 0x20 0 t]
  | .readBand b => [wordB 0x21 b]
  | .response n => [wordN 0x22 0 n]
  | .responseBand b n => [wordN 0x23 b n]
  | .responseChain n => [wordN 0x24 0 n]
  | .frame xs => wordN 0x40 0 (BitVec.ofNat 16 xs.length) :: xs
  | .rate s => [wordN 0x41 0 0, s]
  | .channels n => [wordN 0x42 0 n]
  | .discontinuity => [wordN 0x43 0 0]
  | .deliver => []

/-- Bits [7:0] of every word or header that encodes the instruction (R105, R106, R111): the OP field a
status register records. DELIVER has no opcode. -/
def Instr.opcode : Instr → BitVec 8
  | .setFreq _ => 0x01
  | .setQ _ => 0x02
  | .setGain _ => 0x03
  | .setType _ _ => 0x04
  | .setParams _ _ => 0x05
  | .design _ => 0x20
  | .readBand _ => 0x21
  | .response _ => 0x22
  | .responseBand _ _ => 0x23
  | .responseChain _ => 0x24
  | .frame _ => 0x40
  | .rate _ => 0x41
  | .channels _ => 0x42
  | .discontinuity => 0x43
  | .deliver => 0

/-! ## The opcode table as rows -/

/-- One row of spec/opcode_table.json: a first word matches when its masked bits are the pattern. -/
structure OpcodeRow where
  port    : Port
  pattern : Word
  mask    : Word
deriving DecidableEq, Repr

def OpcodeRow.accepts (r : OpcodeRow) (w : Word) : Bool := w &&& r.mask == r.pattern

/-- The fourteen rows that have an encoding. -/
def opcodeRows : List OpcodeRow := [
  ⟨.cmd, 0x01, 0xFFFFFFFFFFFF00FF⟩,
  ⟨.cmd, 0x02, 0xFFFFFFFFFFFF00FF⟩,
  ⟨.cmd, 0x03, 0xFFFFFFFFFFFF00FF⟩,
  ⟨.cmd, 0x04, 0xFFFFFFFFFFF800FF⟩,
  ⟨.cmd, 0x05, 0xFFFFFFFFFFF800FF⟩,
  ⟨.qcmd, 0x20, 0xFFFFFFFFFFF8FFFF⟩,
  ⟨.qcmd, 0x21, 0xFFFFFFFFFFFF00FF⟩,
  ⟨.qcmd, 0x22, 0xFFFFFFFF0000FFFF⟩,
  ⟨.qcmd, 0x23, 0xFFFFFFFF000000FF⟩,
  ⟨.qcmd, 0x24, 0xFFFFFFFF0000FFFF⟩,
  ⟨.sin, 0x40, 0xFFFFFFFF0000FFFF⟩,
  ⟨.sin, 0x41, 0xFFFFFFFFFFFFFFFF⟩,
  ⟨.sin, 0x42, 0xFFFFFFFF0000FFFF⟩,
  ⟨.sin, 0x43, 0xFFFFFFFFFFFFFFFF⟩]

/-! ## The host's view of the decoder -/

/-- The port whose map an opcode belongs to; the maps share no opcode (R105, R106, R111). -/
def portOfOpcode (op : BitVec 8) : Option Port :=
  if 0x01 ≤ op.toNat ∧ op.toNat ≤ 0x05 then some .cmd
  else if 0x20 ≤ op.toNat ∧ op.toNat ≤ 0x24 then some .qcmd
  else if 0x40 ≤ op.toNat ∧ op.toNat ≤ 0x43 then some .sin
  else none

/-- The words of the instruction whose bits are w, zeros above nbits: the first word, and the zero payload
its header calls for. -/
def tableWords (nbits w : Nat) : List Word :=
  let h : Word := BitVec.ofNat 64 (w % 2 ^ nbits)
  h :: (if portOfOpcode (opField h) = some .sin then List.replicate (payloadLen h) 0 else [])

/-- The instruction the decoder reads from an instruction whose bits are w, nbits of them given by the
table. The table gives DELIVER no bits. -/
def decodeTableWord (nbits w : Nat) : Option Instr :=
  if nbits = 0 then some .deliver
  else
    match portOfOpcode (opField (BitVec.ofNat 64 (w % 2 ^ nbits))) with
    | none => none
    | some p =>
      match decode p (tableWords nbits w) with
      | .ok (i, _) => some i
      | .error _ => none

end Sys2Proof
end

