-- ==== Sys2Proof/Config.lean ====
section
/-! DEFINITION. What a build fixes (00_scope.md R7) and the free values: opaque constants with no body,
applied to what they may depend on. -/

namespace Sys2Proof.Config

/-- The numerics configuration NUM of a build (R17): the reference functions, or another library's,
told apart by a number. -/
inductive NumSel where
  | reference
  | other (k : Nat)
deriving DecidableEq, Repr

/-- The parameters of one build (R7). GAIN_LIMIT_DB and FLUSH_MIN are decided, so they are constants of
the designer and the filter. -/
structure Build where
  nBands      : Nat
  maxChannels : Nat
  mQuery      : Nat
  c0          : Nat
  sr0         : Word
  fLo         : Word
  fHi         : Word
  q0          : Word
  num         : NumSel
deriving DecidableEq, Repr

/-- The test configuration TC of R7: three bands, eight channels, sixteen query entries, 48000.0 Hz, two
channels after reset, 100.0 Hz to 10000.0 Hz, Q 1.0, the reference NUM. -/
def Build.tc : Build where
  nBands      := 3
  maxChannels := 8
  mQuery      := 16
  c0          := 2
  sr0         := 0x40E7700000000000
  fLo         := 0x4059000000000000
  fHi         := 0x40C3880000000000
  q0          := 0x3FF0000000000000
  num         := .reference

/-- The places at which an arithmetic NaN becomes visible: a stored or output value. The pattern there
is a free value (93_implementation_defined.md I4, log 4). -/
inductive NanSite where
  /-- the output of band b on channel ch in the FRAME step that drew `draw` -/
  | sample (draw b ch : Nat)
  /-- MAG_BUF[i] in the query step that drew `draw` -/
  | magnitude (draw i : Nat)
  /-- PHASE_BUF[i] in the query step that drew `draw` -/
  | phase (draw i : Nat)
  /-- the constant gain A·A of a designer table, for the gain scale A -/
  | designGain (a : Word)
  /-- BAND[b].freq of the reset layout -/
  | layout (b : Nat)
deriving DecidableEq, Repr

/-- Free: the bits a NaN pattern at a site is made from (I4, log 4). -/
opaque freeNaN : NanSite → Word

/-- Free: NUM.sin of the library numbered k (R17, R18, log 5). -/
opaque freeSin : Nat → Word → Word

/-- Free: NUM.cos of the library numbered k (R17, R18, log 5). -/
opaque freeCos : Nat → Word → Word

/-- Free: NUM.pow of the library numbered k (R17, R18, log 5). -/
opaque freePow : Nat → Word → Word → Word

/-- Free: NUM.atan2(y, x) of the library numbered k (R17, R18, log 5). -/
opaque freeAtan2 : Nat → Word → Word → Word

/-- Free: NUM.hypot of the library numbered k (R17, R18, log 5). -/
opaque freeHypot : Nat → Word → Word → Word

/-- Free: NUM.cdiv((p, q), (u, v)) of the library numbered k (R17, I2, log 5). -/
opaque freeCdiv : Nat → Word → Word → Word → Word → Word × Word

end Sys2Proof.Config
end

