-- ==== Sys2Proof/Machine/Float.lean ====
section
/-! DEFINITION. IEEE-754 binary64 on 64-bit words (00_scope.md R11 to R13): exact integer arithmetic,
then one rounding to nearest, ties to even. -/

namespace Sys2Proof.F64

/-! ## The layout of a word (R13) -/

def signBit (w : Word) : Bool := w.getLsbD 63
def expField (w : Word) : Nat := (w.toNat >>> 52) % 2048
def fracField (w : Word) : Nat := w.toNat % 4503599627370496

/-- R12. -/
def isNaN (w : Word) : Bool := expField w == 2047 && fracField w != 0
def isInf (w : Word) : Bool := expField w == 2047 && fracField w == 0
/-- R12: neither infinite nor NaN. -/
def isFinite (w : Word) : Bool := expField w != 2047
def isZero (w : Word) : Bool := w.toNat % 9223372036854775808 == 0

/-- The magnitude of a finite value as a whole number of 2^-1074, the smallest subnormal. -/
def mag (w : Word) : Nat :=
  if expField w = 0 then fracField w else (fracField w + 4503599627370496) <<< (expField w - 1)

/-- A finite value as a whole number of 2^-1074. -/
def value (w : Word) : Int := if signBit w then -(mag w : Int) else mag w

/-! ## Constants (R11: the nearest binary64) -/

def zero      : Word := 0
def negZero   : Word := 0x8000000000000000
def one       : Word := 0x3FF0000000000000
def posInf    : Word := 0x7FF0000000000000
/-- An arithmetic NaN inside a step. Where it becomes visible it is replaced by a free pattern (`settle`). -/
def someNaN   : Word := 0x7FF8000000000000
/-- R11. -/
def PI        : Word := 0x400921FB54442D18

/-! ## Rounding -/

/-- The word with this sign and these low 63 bits. -/
def pack (neg : Bool) (low : Nat) : Word :=
  BitVec.ofNat 64 ((if neg then 9223372036854775808 else 0) + low)

/-- m / 2^k to the nearest whole number, ties to even, for k ≥ 1. -/
def roundShift (m k : Nat) : Nat :=
  let d := m >>> k
  let r := m % 2 ^ k
  let half := 2 ^ (k - 1)
  if half < r ∨ (r = half ∧ d % 2 = 1) then d + 1 else d

/-- The unit in the last place, as a power of two, of the binary64 nearest m·2^e (m ≠ 0). -/
def ulpExp (m : Nat) (e : Int) : Int := max (e + (Nat.log2 m : Int) - 52) (-1074)

/-- m·2^e as a whole number of its unit in the last place. -/
def significand (m : Nat) (e : Int) : Nat :=
  if ulpExp m e ≤ e then m <<< (e - ulpExp m e).toNat else roundShift m (ulpExp m e - e).toNat

/-- The binary64 nearest ±m·2^e, ties to even; overflow gives an infinity, underflow a subnormal or a
zero of that sign (R11). -/
def round (neg : Bool) (m : Nat) (e : Int) : Word :=
  if m = 0 then pack neg 0
  else pack neg (min (significand m e + ((ulpExp m e + 1074).toNat <<< 52)) 0x7FF0000000000000)

/-! ## Signs and comparisons (R11, R12) -/

/-- Unary minus: flips the sign bit. -/
def neg (w : Word) : Word := w ^^^ 0x8000000000000000

/-- |v|: clears the sign bit. -/
def abs (w : Word) : Word := w &&& 0x7FFFFFFFFFFFFFFF

/-- A number that orders the words that are no NaN as their values are ordered; both zeros give 0. -/
def order (w : Word) : Int :=
  if signBit w then -((w.toNat % 9223372036854775808 : Nat) : Int) else ((w.toNat % 9223372036854775808 : Nat) : Int)

def lt (a b : Word) : Bool := !isNaN a && !isNaN b && decide (order a < order b)
def le (a b : Word) : Bool := !isNaN a && !isNaN b && decide (order a ≤ order b)
def eq (a b : Word) : Bool := !isNaN a && !isNaN b && decide (order a = order b)

/-! ## Arithmetic (R11) -/

def add (a b : Word) : Word :=
  if isNaN a || isNaN b then someNaN
  else if isInf a then (if isInf b && signBit a != signBit b then someNaN else a)
  else if isInf b then b
  else
    let s := value a + value b
    if s = 0 then (if signBit a && signBit b then negZero else zero)
    else round (decide (s < 0)) s.natAbs (-1074)

def sub (a b : Word) : Word := add a (neg b)

def mul (a b : Word) : Word :=
  let s := signBit a != signBit b
  if isNaN a || isNaN b then someNaN
  else if isInf a || isInf b then (if isZero a || isZero b then someNaN else pack s 0x7FF0000000000000)
  else round s (mag a * mag b) (-2148)

/-- The quotient n / d of two magnitudes as a number with more than 55 bits, its last bit set when the
division leaves a remainder, and that number's exponent. -/
def quotient (n d : Nat) : Nat × Int :=
  let k := Nat.log2 d + 57
  let q := (n <<< k) / d
  (2 * q + (if (n <<< k) % d = 0 then 0 else 1), -((k : Int) + 1))

def div (a b : Word) : Word :=
  let s := signBit a != signBit b
  if isNaN a || isNaN b then someNaN
  else if isInf a then (if isInf b then someNaN else pack s 0x7FF0000000000000)
  else if isInf b then pack s 0
  else if isZero b then (if isZero a then someNaN else pack s 0x7FF0000000000000)
  else round s (quotient (mag a) (mag b)).1 (quotient (mag a) (mag b)).2

/-- Newton's iteration for the whole square root of n, from a guess that is not below it. -/
def isqrtFrom (n : Nat) : Nat → Nat → Nat
  | 0, g => g
  | fuel + 1, g =>
    let next := (g + n / g) / 2
    if next < g then isqrtFrom n fuel next else g

/-- The whole square root of n. -/
def isqrt (n : Nat) : Nat :=
  if n = 0 then 0
  else
    let g := 2 ^ (Nat.log2 n / 2 + 1)
    isqrtFrom n g g

/-- The square root of n·2^(2e) to more than 55 bits, its last bit set when the root is not exact. -/
def rootBits (n : Nat) (e : Int) : Nat × Int :=
  let r := isqrt (n <<< 116)
  (2 * r + (if r * r = n <<< 116 then 0 else 1), e - 59)

def sqrt (a : Word) : Word :=
  if isNaN a then someNaN
  else if isZero a then a
  else if signBit a then someNaN
  else if isInf a then a
  else round false (rootBits (mag a) (-537)).1 (rootBits (mag a) (-537)).2

/-- f64(k): the binary64 of a whole number (70_reset_and_hazards.md R352). -/
def ofNat (k : Nat) : Word := round false k 0

/-! ## Free NaN patterns (93_implementation_defined.md I4) -/

/-- A NaN pattern made from any 64 bits: every NaN pattern is one of these. -/
def nanFrom (bits : Word) : Word :=
  if fracField bits = 0 then bits ||| 0x7FF0000000000001 else bits ||| 0x7FF0000000000000

/-- A computed value as it becomes visible at a site: an arithmetic NaN has a free pattern (log 4). -/
def settle (site : Config.NanSite) (w : Word) : Word :=
  if isNaN w then nanFrom (Config.freeNaN site) else w

end Sys2Proof.F64
end

