-- ==== Sys2Proof/Machine/Num.lean ====
section
/-! DEFINITION. NUM, the transcendental functions and complex division of a build (00_scope.md R15, R17,
R18). The reference functions are computed in fixed point, at growing precision, until both ends of
the error interval round to one binary64. Every NUM is held to R18. -/

namespace Sys2Proof.Ref

/-! ## Fixed-point series: a value v is held as about v·2^p -/

/-- Σ (±1)^j · 2^p / ((2j + 1)·n^(2j+1)), from the power t = 2^p / n^(2j+1) on. `alt` alternates signs. -/
def invSeries (alt : Bool) (n2 : Nat) : Nat → Nat → Nat → Int → Int
  | 0, _, _, acc => acc
  | fuel + 1, j, t, acc =>
    if t = 0 then acc
    else
      let term : Int := ((t / (2 * j + 1) : Nat) : Int)
      invSeries alt n2 fuel (j + 1) (t / n2) (if alt && j % 2 == 1 then acc - term else acc + term)

/-- π, by Machin's formula 16·atan(1/5) - 4·atan(1/239). -/
def piFix (p : Nat) : Nat :=
  let g := p + 32
  let a := invSeries true 25 (g + 2) 0 (2 ^ g / 5) 0
  let b := invSeries true 57121 (g + 2) 0 (2 ^ g / 239) 0
  (16 * a - 4 * b).toNat >>> 32

/-- ln 2 = 2·atanh(1/3). -/
def ln2Fix (p : Nat) : Nat :=
  let g := p + 32
  (2 * invSeries false 9 (g + 2) 0 (2 ^ g / 3) 0).toNat >>> 32

/-- The Taylor sums of cos and sin at r·2^-p: t is the term r^j / j!. -/
def sinCosSeries (p r : Nat) : Nat → Nat → Nat → Int → Int → Int × Int
  | 0, _, _, c, s => (c, s)
  | fuel + 1, j, t, c, s =>
    if t = 0 then (c, s)
    else
      let v : Int := (t : Int)
      let next := ((t * r) >>> p) / (j + 1)
      match j % 4 with
      | 0 => sinCosSeries p r fuel (j + 1) next (c + v) s
      | 1 => sinCosSeries p r fuel (j + 1) next c (s + v)
      | 2 => sinCosSeries p r fuel (j + 1) next (c - v) s
      | _ => sinCosSeries p r fuel (j + 1) next c (s - v)

/-- The Taylor sum of exp at r·2^-p. -/
def expSeries (p r : Nat) : Nat → Nat → Nat → Nat → Nat
  | 0, _, _, acc => acc
  | fuel + 1, j, t, acc => if t = 0 then acc else expSeries p r fuel (j + 1) (((t * r) >>> p) / (j + 1)) (acc + t)

/-- Σ z^(2j+1) / (2j + 1), with t = z^(2j+1) and z2 = z². -/
def atanhSeries (p z2 : Nat) : Nat → Nat → Nat → Nat → Nat
  | 0, _, _, acc => acc
  | fuel + 1, j, t, acc =>
    if t = 0 then acc else atanhSeries p z2 fuel (j + 1) ((t * z2) >>> p) (acc + t / (2 * j + 1))

/-- Euler's series for atan: the term after t is t·u·(2j + 2)/(2j + 3). -/
def atanSeries (p u : Nat) : Nat → Nat → Nat → Nat → Nat
  | 0, _, _, acc => acc
  | fuel + 1, j, t, acc =>
    if t = 0 then acc else atanSeries p u fuel (j + 1) (((t * u) >>> p) * (2 * j + 2) / (2 * j + 3)) (acc + t)

/-! ## Rounding an approximation -/

/-- The binary64 that every value within `err` of ±a, times 2^e, rounds to, where there is one. -/
def roundCertain (neg : Bool) (a err : Nat) (e : Int) : Option Word :=
  let lo := F64.round neg (a - err) e
  if lo = F64.round neg (a + err) e then some lo else none

/-- The precisions tried in turn. -/
def precisions : List Nat := [96, 224, 640]

/-- The first precision's certain rounding; at the last precision, the approximation's own. -/
def firstCertain (f : Nat → Bool × Nat × Nat × Int) : List Nat → Word
  | [] => F64.zero
  | [p] => let (neg, a, _, e) := f p; F64.round neg a e
  | p :: ps =>
    let (neg, a, err, e) := f p
    match roundCertain neg a err e with
    | some w => w
    | none => firstCertain f ps

/-! ## sin and cos -/

/-- For a finite x: the quadrant of |x| modulo 4 and |x| less that many right angles, in units of 2^-p. -/
def reduce (x : Word) (p : Nat) : Nat × Nat :=
  let q := p + 64 + (F64.expField x - 1023)
  let halfPi := piFix q >>> 1
  let v := if q ≤ 1074 then F64.mag x >>> (1074 - q) else F64.mag x <<< (q - 1074)
  ((v / halfPi) % 4, (v % halfPi) >>> (q - p))

/-- sin (k = 0) or cos (k = 1) of |x|, about: sign, magnitude, error and exponent. -/
def sinCosAt (k : Nat) (x : Word) (p : Nat) : Bool × Nat × Nat × Int :=
  let g := p + 64
  let (quad, r) := reduce x g
  let (c, s) := sinCosSeries g r (g + 2) 0 (2 ^ g) 0 0
  match (quad + k) % 4 with
  | 0 => (false, s.toNat, 2 ^ 32, -(g : Int))
  | 1 => (false, c.toNat, 2 ^ 32, -(g : Int))
  | 2 => (true, s.toNat, 2 ^ 32, -(g : Int))
  | _ => (true, c.toNat, 2 ^ 32, -(g : Int))

/-- sin: below 2^-27 the nearest binary64 of sin x is x itself. DESIGN CHOICE (log 16): so sin(-0.0) is -0.0, where R17
asks only for the nearest value, which both zeros are. -/
def sin (x : Word) : Word :=
  if !F64.isFinite x then F64.someNaN
  else if F64.expField x < 996 then x
  else
    let r := firstCertain (sinCosAt 0 x) precisions
    if F64.signBit x then F64.neg r else r

def cos (x : Word) : Word :=
  if !F64.isFinite x then F64.someNaN else firstCertain (sinCosAt 1 x) precisions

/-! ## pow -/

/-- The natural logarithm of a finite x > 0, in units of 2^-p. -/
def lnFix (x : Word) (p : Nat) : Int :=
  let m := F64.mag x
  let b := Nat.log2 m
  let z := ((m - 2 ^ b) <<< p) / (m + 2 ^ b)
  ((b : Int) - 1074) * (ln2Fix p : Int) + 2 * (atanhSeries p ((z * z) >>> p) (p + 2) 0 z 0 : Nat)

/-- x^y for finite x > 0 and 2^-1074 ≤ |y| < 2^64, about, where y·ln x lies within ±800. -/
def powAt (x y : Word) (p : Nat) : Bool × Nat × Nat × Int :=
  let g := p + 160
  let t := (F64.value y * lnFix x g) >>> 1074
  let ln2 := ln2Fix g
  let k := t / (ln2 : Int)
  let r := (t - k * (ln2 : Int)).toNat
  (false, expSeries g r (g + 2) 0 (2 ^ g) 0, 2 ^ 120, k - (g : Int))

/-- m·2^e with m odd, taken j times to its square root, where every root is exact. -/
def exactRoots : Nat → Nat → Int → Option (Nat × Int)
  | 0, m, e => some (m, e)
  | j + 1, m, e =>
    let r := F64.isqrt m
    if r * r = m ∧ e % 2 = 0 then exactRoots j r (e / 2) else none

/-- A magnitude without its factors of 2, and how many there were. -/
def oddPart (m : Nat) : Nat × Nat :=
  let t := Nat.gcd m (2 ^ 2200)
  (m / t, Nat.log2 t)

/-- x^y exactly, where it is a whole number of some power of two that few bits hold: only these can lie
halfway between two binary64 values. -/
def powExact (x y : Word) : Option Word :=
  let (m, a) := oddPart (F64.mag x)
  let (n, b) := oddPart (F64.mag y)
  let neg := F64.signBit y
  if b < 1074 - 11 then none
  else
    match exactRoots (1074 - b) m ((a : Int) - 1074) with
    | none => none
    | some (m', e') =>
      let n' := n <<< (b - 1074)
      if m' = 1 then
        if n' ≤ 5000 then
          let e := if neg then -(e' * (n' : Int)) else e' * (n' : Int)
          some (F64.round false 1 (max (-5000) (min e 5000)))
        else none
      else if neg = false ∧ n' ≤ 64 then some (F64.round false (m' ^ n') (e' * (n' : Int))) else none

/-- x^y for finite x > 0, x ≠ 1, and finite y ≠ 0; beyond the range an infinity or +0.0 (log 16). -/
def powPos (x y : Word) : Word :=
  let grows := F64.lt F64.one x != F64.signBit y
  let big := if grows then F64.posInf else F64.zero
  if 1087 ≤ F64.expField y then big
  else
    let t := (F64.value y * lnFix x 192) >>> 1266
    if 800 ≤ t ∨ t < -800 then big
    else
      match powExact x y with
      | some w => w
      | none => firstCertain (powAt x y) precisions

/-- Whether a finite y is a whole number, and whether it is odd. -/
def isWhole (y : Word) : Bool := F64.mag y % 2 ^ 1074 == 0
def isOdd (y : Word) : Bool := isWhole y && (F64.mag y >>> 1074) % 2 == 1

/-- pow with the C library's special cases. -/
def pow (x y : Word) : Word :=
  if F64.isZero y then F64.one
  else if F64.eq x F64.one then F64.one
  else if F64.isNaN x || F64.isNaN y then F64.someNaN
  else if F64.isInf y then
    if F64.eq (F64.abs x) F64.one then F64.one
    else if F64.lt F64.one (F64.abs x) != F64.signBit y then F64.posInf else F64.zero
  else
    let neg := F64.signBit x && isOdd y
    let signed := fun w => if neg then F64.neg w else w
    if F64.isZero x || F64.isInf x then
      signed (if F64.isZero x != F64.signBit y then F64.zero else F64.posInf)
    else if F64.signBit x && !isWhole y then F64.someNaN
    else if F64.eq (F64.abs x) F64.one then signed F64.one
    else signed (powPos (F64.abs x) y)

/-! ## atan2 and hypot -/

/-- atan2 of the magnitudes Y and X (not zero) for the right (`left = false`) or left half plane, about. -/
def atan2At (left : Bool) (Y X : Nat) (p : Nat) : Nat × Nat × Int :=
  let g := p + 192
  let d := X * X + Y * Y
  let lo := min X Y
  let base := atanSeries g (((lo * lo) <<< g) / d) (g + 8) 0 (((X * Y) <<< g) / d) 0
  let pi := piFix g
  let first := if Y ≤ X then base else (pi >>> 1) - base
  (if left then pi - first else first, 2 ^ 32, -(g : Int))

/-- atan2 in the right half plane where Y/X is below 2^-100: a little less than Y/X; a zero by underflow keeps the
sign (DESIGN CHOICE, log 16). -/
def atanTiny (neg : Bool) (Y X : Nat) : Word :=
  let k := Nat.log2 X + 160
  let q := (Y <<< k) / X
  F64.round neg (if (Y <<< k) % X = 0 then 2 * q - 1 else 2 * q + 1) (-((k : Int) + 1))

/-- π/4, π/2 and 3π/4, correctly rounded. -/
def quarters (n : Nat) : Word := F64.round false (n * piFix 128) (-130)

/-- atan2(y, x) with the C library's special cases. -/
def atan2 (y x : Word) : Word :=
  let neg := F64.signBit y
  let signed := fun w => if neg then F64.neg w else w
  if F64.isNaN y || F64.isNaN x then F64.someNaN
  else if F64.isInf y then
    signed (if F64.isInf x then quarters (if F64.signBit x then 3 else 1) else quarters 2)
  else if F64.isInf x then signed (if F64.signBit x then F64.PI else F64.zero)
  else if F64.isZero y then signed (if F64.signBit x then F64.PI else F64.zero)
  else if F64.isZero x then signed (quarters 2)
  else
    let Y := F64.mag y
    let X := F64.mag x
    if !F64.signBit x && decide (Y <<< 100 < X) then atanTiny neg Y X
    else firstCertain (fun p => let (a, err, e) := atan2At (F64.signBit x) Y X p; (neg, a, err, e)) precisions

/-- hypot(x, y), correctly rounded, with the C library's special cases; of two zeros +0.0 (DESIGN CHOICE, log 16). -/
def hypot (x y : Word) : Word :=
  if F64.isInf x || F64.isInf y then F64.posInf
  else if F64.isNaN x || F64.isNaN y then F64.someNaN
  else
    let r := F64.rootBits (F64.mag x * F64.mag x + F64.mag y * F64.mag y) (-1074)
    F64.round false r.1 r.2

/-- The textbook complex quotient (R17). -/
def cdiv (p q u v : Word) : Word × Word :=
  let d := F64.add (F64.mul u u) (F64.mul v v)
  (F64.div (F64.add (F64.mul p u) (F64.mul q v)) d, F64.div (F64.sub (F64.mul q u) (F64.mul p v)) d)

end Sys2Proof.Ref

namespace Sys2Proof.Num

open Config (NumSel)

/-! ## A build's NUM, held to R18

A library's own function is a free value; where its result breaks R18 the model takes a zero instead,
so the functions below range over exactly the functions R18 allows (log 5). -/

def rawSin : NumSel → Word → Word
  | .reference => Ref.sin
  | .other k => Config.freeSin k

def rawCos : NumSel → Word → Word
  | .reference => Ref.cos
  | .other k => Config.freeCos k

def rawPow : NumSel → Word → Word → Word
  | .reference => Ref.pow
  | .other k => Config.freePow k

def rawAtan2 : NumSel → Word → Word → Word
  | .reference => Ref.atan2
  | .other k => Config.freeAtan2 k

def rawHypot : NumSel → Word → Word → Word
  | .reference => Ref.hypot
  | .other k => Config.freeHypot k

/-- w where it lies in [-bound, bound], a zero otherwise. -/
def within (bound w : Word) : Word :=
  if F64.le (F64.neg bound) w && F64.le w bound then w else F64.zero

/-- NUM.sin (R17, R18). -/
def sin (n : NumSel) (x : Word) : Word :=
  if F64.isFinite x then within F64.one (rawSin n x) else F64.someNaN

/-- NUM.cos (R17, R18). -/
def cos (n : NumSel) (x : Word) : Word :=
  if F64.isFinite x then within F64.one (rawCos n x) else F64.someNaN

/-- 10.0. -/
def ten : Word := 0x4024000000000000

/-- NUM.pow (R17, R18). -/
def pow (n : NumSel) (x y : Word) : Word :=
  if x = ten ∧ y = F64.zero then F64.one else rawPow n x y

/-- NUM.atan2(y, x) (R17, R18). -/
def atan2 (n : NumSel) (y x : Word) : Word :=
  if F64.isNaN y || F64.isNaN x then F64.someNaN
  else if F64.isZero y && (F64.lt F64.zero x || decide (x = F64.zero)) then y
  else if F64.isZero y then (if F64.signBit y then F64.neg F64.PI else F64.PI)
  else within F64.PI (rawAtan2 n y x)

/-- NUM.hypot (R17, R18). A NaN operand with no infinite one gives a NaN (43_analyzer.md R263, log 6). -/
def hypot (n : NumSel) (x y : Word) : Word :=
  if F64.isInf x || F64.isInf y then F64.posInf
  else if F64.isNaN x || F64.isNaN y then F64.someNaN
  else if F64.le F64.zero (rawHypot n x y) then rawHypot n x y else F64.zero

/-- NUM.cdiv((p, q), (u, v)) (R17). -/
def cdiv : NumSel → Word → Word → Word → Word → Word × Word
  | .reference => Ref.cdiv
  | .other k => Config.freeCdiv k

end Sys2Proof.Num
end

