-- ==== Sys2Proof/Machine/Designer.lean ====
section
/-! DEFINITION. The coefficient designer (40_designer.md R140 to R164). -/

namespace Sys2Proof.Machine

open Config (NumSel)

/-- A coefficient set with a0 = 1 implied (00_scope.md R14, 10_state.md R45). -/
structure Coef where
  b0 : Word
  b1 : Word
  b2 : Word
  a1 : Word
  a2 : Word
deriving DecidableEq, Repr

namespace Coef

/-- G(k), the constant gain (R14). -/
def gain (k : Word) : Coef := ⟨k, F64.zero, F64.zero, F64.zero, F64.zero⟩

/-- IDENT and ZERO (R14). -/
def ident : Coef := gain F64.one
def zeroGain : Coef := gain F64.zero

/-- R153: all five values are finite. -/
def isFinite (c : Coef) : Bool :=
  F64.isFinite c.b0 && F64.isFinite c.b1 && F64.isFinite c.b2 && F64.isFinite c.a1 && F64.isFinite c.a2

end Coef

/-! ## Constants (00_scope.md R11) -/

namespace Const

def negTwo      : Word := 0xC000000000000000
def negFour     : Word := 0xC010000000000000
def negOne      : Word := 0xBFF0000000000000
def quarter     : Word := 0x3FD0000000000000
def half        : Word := 0x3FE0000000000000
def two         : Word := 0x4000000000000000
def four        : Word := 0x4010000000000000
def sixteen     : Word := 0x4030000000000000
def forty       : Word := 0x4044000000000000
/-- 0.05 -/
def twentieth   : Word := 0x3FA999999999999A
/-- GAIN_LIMIT_DB = 24.0 and its negative (R7, R144). -/
def gainLimit   : Word := 0x4038000000000000
def negGainLimit : Word := 0xC038000000000000

end Const

/-! ## Common terms (R141 to R146) -/

/-- R141. -/
def validRate (sr : Word) : Bool := F64.lt F64.zero sr && F64.lt sr F64.posInf

/-- The normalized frequency nf (R142). -/
def normFreq (f sr : Word) : Word :=
  let r := F64.div f (F64.div sr Const.two)
  if F64.lt F64.one r then F64.one else if F64.lt F64.zero r then r else F64.zero

/-- The clamped Q (R143). -/
def clampQ (q : Word) : Word := if F64.lt F64.zero q then q else F64.zero

/-- The clamped gain (R144). -/
def clampGain (g : Word) : Word :=
  if F64.isNaN g then F64.zero
  else if F64.lt Const.gainLimit g then Const.gainLimit
  else if F64.lt g Const.negGainLimit then Const.negGainLimit
  else g

/-- The linear gain scale A of a clamped gain (R145). That A is finite and positive is not assumed of a NUM other
than the reference (00_scope.md R17, log 10). -/
def gainScale (n : NumSel) (gc : Word) : Word := Num.pow n Num.ten (F64.div gc Const.forty)

/-- A·A as the tables store it (R145); a NaN, which only a NUM.pow outside R145's range gives, has a free pattern
(log 4, log 10). -/
def gainSquare (a : Word) : Word := F64.settle (.designGain a) (F64.mul a a)

/-! ## Boundary tables (R149 to R151) -/

/-- Z0, for nf = 0 (R149). -/
def tableZ0 (t : FilterType) (a : Word) : Word :=
  match t with
  | .allpass => F64.one
  | .bandpass => F64.zero
  | .highpass => F64.one
  | .highshelf => gainSquare a
  | .lowpass => F64.zero
  | .lowshelf => F64.one
  | .notch => F64.one
  | .peaking => F64.one

/-- Z1, for nf = 1 (R150). -/
def tableZ1 (t : FilterType) (a : Word) : Word :=
  match t with
  | .allpass => F64.one
  | .bandpass => F64.zero
  | .highpass => F64.zero
  | .highshelf => F64.one
  | .lowpass => F64.one
  | .lowshelf => gainSquare a
  | .notch => F64.one
  | .peaking => F64.one

/-- Q0, for a disabled band and the finite guard (R151). -/
def tableQ0 (t : FilterType) (a : Word) : Word :=
  match t with
  | .allpass => Const.negOne
  | .bandpass => F64.one
  | .highpass => F64.one
  | .highshelf => F64.one
  | .lowpass => F64.one
  | .lowshelf => F64.one
  | .notch => F64.zero
  | .peaking => gainSquare a

/-! ## Interior formulas (R152 to R161) -/

/-- The six unnormalized values. -/
structure Unnormalized where
  nb0 : Word
  nb1 : Word
  nb2 : Word
  na0 : Word
  na1 : Word
  na2 : Word
deriving DecidableEq, Repr

/-- Five divisions by na0 (R152). -/
def normalize (u : Unnormalized) : Coef where
  b0 := F64.div u.nb0 u.na0
  b1 := F64.div u.nb1 u.na0
  b2 := F64.div u.nb2 u.na0
  a1 := F64.div u.na1 u.na0
  a2 := F64.div u.na2 u.na0

/-- alpha = sn / (2.0 * qc) of PEAKING, BANDPASS, NOTCH and ALLPASS (R154, R159 to R161). -/
def alphaQ (sn qc : Word) : Word := F64.div sn (F64.mul Const.two qc)

/-- PEAKING (R154). -/
def peaking (sn cs qc a : Word) : Unnormalized :=
  let alpha := alphaQ sn qc
  { nb0 := F64.add F64.one (F64.mul alpha a)
    nb1 := F64.mul Const.negTwo cs
    nb2 := F64.sub F64.one (F64.mul alpha a)
    na0 := F64.add F64.one (F64.div alpha a)
    na1 := F64.mul Const.negTwo cs
    na2 := F64.sub F64.one (F64.div alpha a) }

/-- The shelves' alpha with slope S = 1.0, as written (R155, R162). -/
def alphaShelf (sn a : Word) : Word :=
  F64.div
    (F64.mul sn
      (F64.sqrt
        (F64.add
          (F64.mul (F64.add a (F64.div F64.one a)) (F64.sub (F64.div F64.one F64.one) F64.one))
          Const.two)))
    Const.two

/-- k2 = (2.0 * sqrt(A)) * alpha (R155). -/
def shelfK2 (sn a : Word) : Word := F64.mul (F64.mul Const.two (F64.sqrt a)) (alphaShelf sn a)

/-- LOWSHELF (R155). -/
def lowshelf (sn cs a : Word) : Unnormalized :=
  let k2 := shelfK2 sn a
  let ap1 := F64.add a F64.one
  let am1 := F64.sub a F64.one
  { nb0 := F64.mul a (F64.add (F64.sub ap1 (F64.mul am1 cs)) k2)
    nb1 := F64.mul (F64.mul Const.two a) (F64.sub am1 (F64.mul ap1 cs))
    nb2 := F64.mul a (F64.sub (F64.sub ap1 (F64.mul am1 cs)) k2)
    na0 := F64.add (F64.add ap1 (F64.mul am1 cs)) k2
    na1 := F64.mul Const.negTwo (F64.add am1 (F64.mul ap1 cs))
    na2 := F64.sub (F64.add ap1 (F64.mul am1 cs)) k2 }

/-- HIGHSHELF (R156). -/
def highshelf (sn cs a : Word) : Unnormalized :=
  let k2 := shelfK2 sn a
  let ap1 := F64.add a F64.one
  let am1 := F64.sub a F64.one
  { nb0 := F64.mul a (F64.add (F64.add ap1 (F64.mul am1 cs)) k2)
    nb1 := F64.mul (F64.mul Const.negTwo a) (F64.add am1 (F64.mul ap1 cs))
    nb2 := F64.mul a (F64.sub (F64.add ap1 (F64.mul am1 cs)) k2)
    na0 := F64.add (F64.sub ap1 (F64.mul am1 cs)) k2
    na1 := F64.mul Const.two (F64.sub am1 (F64.mul ap1 cs))
    na2 := F64.sub (F64.sub ap1 (F64.mul am1 cs)) k2 }

/-- beta of the d/beta/gamma construction, Q read as a resonance in dB (R157). -/
def resonanceBeta (n : NumSel) (sn qc : Word) : Word :=
  let gg := Num.pow n Num.ten (F64.mul Const.twentieth qc)
  let d := F64.sqrt
    (F64.div
      (F64.sub Const.four (F64.sqrt (F64.sub Const.sixteen (F64.div Const.sixteen (F64.mul gg gg)))))
      Const.two)
  let snh := F64.mul (F64.mul Const.half d) sn
  F64.div (F64.mul Const.half (F64.sub F64.one snh)) (F64.add F64.one snh)

/-- gamma of the construction (R157). -/
def resonanceGamma (beta cs : Word) : Word := F64.mul (F64.add Const.half beta) cs

/-- LOWPASS (R157). -/
def lowpass (n : NumSel) (sn cs qc : Word) : Unnormalized :=
  let beta := resonanceBeta n sn qc
  let gamma := resonanceGamma beta cs
  let alpha := F64.mul Const.quarter (F64.sub (F64.add Const.half beta) gamma)
  { nb0 := F64.mul Const.two alpha
    nb1 := F64.mul Const.four alpha
    nb2 := F64.mul Const.two alpha
    na0 := F64.one
    na1 := F64.neg (F64.mul Const.two gamma)
    na2 := F64.mul Const.two beta }

/-- HIGHPASS (R158). -/
def highpass (n : NumSel) (sn cs qc : Word) : Unnormalized :=
  let beta := resonanceBeta n sn qc
  let gamma := resonanceGamma beta cs
  let alpha := F64.mul Const.quarter (F64.add (F64.add Const.half beta) gamma)
  { nb0 := F64.mul Const.two alpha
    nb1 := F64.mul Const.negFour alpha
    nb2 := F64.mul Const.two alpha
    na0 := F64.one
    na1 := F64.neg (F64.mul Const.two gamma)
    na2 := F64.mul Const.two beta }

/-- BANDPASS (R159). -/
def bandpass (sn cs qc : Word) : Unnormalized :=
  let alpha := alphaQ sn qc
  { nb0 := alpha
    nb1 := F64.zero
    nb2 := F64.neg alpha
    na0 := F64.add F64.one alpha
    na1 := F64.mul Const.negTwo cs
    na2 := F64.sub F64.one alpha }

/-- NOTCH (R160). -/
def notch (sn cs qc : Word) : Unnormalized :=
  let alpha := alphaQ sn qc
  { nb0 := F64.one
    nb1 := F64.mul Const.negTwo cs
    nb2 := F64.one
    na0 := F64.add F64.one alpha
    na1 := F64.mul Const.negTwo cs
    na2 := F64.sub F64.one alpha }

/-- ALLPASS (R161). -/
def allpass (sn cs qc : Word) : Unnormalized :=
  let alpha := alphaQ sn qc
  { nb0 := F64.sub F64.one alpha
    nb1 := F64.mul Const.negTwo cs
    nb2 := F64.add F64.one alpha
    na0 := F64.add F64.one alpha
    na1 := F64.mul Const.negTwo cs
    na2 := F64.sub F64.one alpha }

/-- The interior formula of a type at sn = sin w, cs = cos w (R154 to R161). -/
def interiorAt (n : NumSel) (t : FilterType) (sn cs qc a : Word) : Unnormalized :=
  match t with
  | .allpass => allpass sn cs qc
  | .bandpass => bandpass sn cs qc
  | .highpass => highpass n sn cs qc
  | .highshelf => highshelf sn cs a
  | .lowpass => lowpass n sn cs qc
  | .lowshelf => lowshelf sn cs a
  | .notch => notch sn cs qc
  | .peaking => peaking sn cs qc a

/-- The interior formula at a normalized frequency, w = PI * nf (R146). -/
def interior (n : NumSel) (t : FilterType) (nf qc a : Word) : Unnormalized :=
  interiorAt n t (Num.sin n (F64.mul F64.PI nf)) (Num.cos n (F64.mul F64.PI nf)) qc a

/-! ## The function (R140, R147) -/

/-- The types that use the gain (30_encoding.md R104, R148). -/
def usesGain : FilterType → Bool
  | .peaking | .lowshelf | .highshelf => true
  | .allpass | .bandpass | .highpass | .lowpass | .notch => false

/-- The finite guard (R153). -/
def guarded (t : FilterType) (a : Word) (c : Coef) : Coef :=
  if c.isFinite then c else .gain (tableQ0 t a)

/-- The choice of a case, from the clamped arguments (R147). -/
def designClamped (n : NumSel) (t : FilterType) (nf qc gc : Word) : Coef :=
  let a := gainScale n gc
  if usesGain t && F64.eq gc F64.zero then .ident
  else if F64.eq nf F64.zero then .gain (tableZ0 t a)
  else if F64.eq nf F64.one then .gain (tableZ1 t a)
  else if F64.eq qc F64.zero then .gain (tableQ0 t a)
  else guarded t a (normalize (interior n t nf qc a))

/-- design(t, f, q, g, sr) for a build's NUM (R140). -/
def design (n : NumSel) (t : FilterType) (f q g sr : Word) : Coef :=
  designClamped n t (normFreq f sr) (clampQ q) (clampGain g)

end Sys2Proof.Machine
end

