-- ==== Sys2Proof/Machine/ResetLayout.lean ====
section
/-! DEFINITION. Which builds exist (00_scope.md R7) and the band layout of reset (70_reset_and_hazards.md R352). -/

namespace Sys2Proof.Machine

open Config (Build)

/-- The constraints of R7; a build that breaks one has no reset state (R357). -/
def buildValid (B : Build) : Bool :=
  decide (1 ≤ B.nBands ∧ B.nBands ≤ 256) &&
  decide (1 ≤ B.maxChannels ∧ B.maxChannels ≤ 65535) &&
  decide (1 ≤ B.mQuery ∧ B.mQuery ≤ 8192) &&
  decide (1 ≤ B.c0 ∧ B.c0 ≤ B.maxChannels) &&
  validRate B.sr0 &&
  F64.lt F64.zero B.fLo && F64.le B.fLo B.fHi && F64.lt B.fHi F64.posInf &&
  F64.lt F64.zero B.q0 && F64.isFinite B.q0

/-- BAND[b], the source's FilterParameters without the sample rate (10_state.md R44, R47). -/
structure Params where
  ftype : FilterType
  freq  : Word
  q     : Word
  gain  : Word
deriving DecidableEq, Repr

/-- The frequency of an interior band, log-spaced (R352, D41). -/
def layoutFreq (B : Build) (b : Nat) : Word :=
  F64.settle (.layout b)
    (F64.mul B.fLo (Num.pow B.num (F64.div B.fHi B.fLo) (F64.div (F64.ofNat b) (F64.ofNat (B.nBands - 1)))))

/-- BAND[b] after reset (R352). -/
def layoutBand (B : Build) (b : Nat) : Params :=
  if b = 0 then ⟨.lowshelf, B.fLo, B.q0, F64.zero⟩
  else if b = B.nBands - 1 then ⟨.highshelf, B.fHi, B.q0, F64.zero⟩
  else ⟨.peaking, layoutFreq B b, B.q0, F64.zero⟩

/-- The whole layout. -/
def layout (B : Build) : List Params := (List.range B.nBands).map (layoutBand B)

end Sys2Proof.Machine
end

