-- ==== Sys2Proof/Machine/State.lean ====
section
/-! DEFINITION. The state of the block (10_state.md), of the environment at its ports (R50), and of the
schedule (20_memory.md R81), all plain data; how a step stops; the state after reset (R54, R350). -/

namespace Sys2Proof.Machine

open Config (Build)

/-- The reasons a step faults: none, for the block raises no exception, takes no trap and never stops
(60_exceptions.md R320). -/
inductive Fault where
deriving DecidableEq, Repr

/-- The reasons the model has no step. -/
inductive Refusal where
  /-- Raised by `exec` for an instruction that has no meaning yet. Safe. -/
  | notModelled (mnemonic : String)
  /-- Raised by `step` for a host access that is narrow or misaligned: "not a transaction of this block"
  (20_memory.md R74). Safe. -/
  | notATransaction
  /-- Raised by `instantiate` for a build that breaks R7: "a model refuses to instantiate it"
  (70_reset_and_hazards.md R357). Safe. -/
  | notABuild
deriving DecidableEq, Repr

/-! ## Parts of the state -/

/-- The status codes (60_exceptions.md R321). -/
inductive Code where
  | ok
  | notFound
  | badCommand
  | badValue
  | configFail
deriving DecidableEq, Repr

/-- CSTATUS or QSTATUS: CODE and OP (10_state.md R37, R38). -/
structure Status where
  code : Code
  op   : BitVec 8
deriving DecidableEq, Repr

/-- SSTATUS: CODE, OP and STICKY (R39). -/
structure StreamStatus where
  code   : Code
  op     : BitVec 8
  sticky : Bool
deriving DecidableEq, Repr

/-- HIST[b][ch]: the two most recent inputs and outputs (R46). -/
structure Hist where
  x1 : Word
  x2 : Word
  y1 : Word
  y2 : Word
deriving DecidableEq, Repr

/-- Fresh history: four times +0.0 (41_filter.md R204). -/
def Hist.zero : Hist := ⟨F64.zero, F64.zero, F64.zero, F64.zero⟩

/-- SLOT[b] (R49). `record` holds the ten words of 30_encoding.md R116. -/
structure Slot where
  pending : Bool
  stamp   : BitVec 64
  record  : Vector Word 10
deriving DecidableEq, Repr

/-- An empty slot after reset (R54). -/
def Slot.empty : Slot := ⟨false, 0, Vector.replicate 10 0⟩

/-- A host access on the register-map bus: an address, how many bytes, and for a write the word (R71). -/
inductive Access where
  | read (a : Addr) (bytes : Nat)
  | write (a : Addr) (bytes : Nat) (w : Word)
deriving DecidableEq, Repr

/-- One entry of the schedule: which agent may take a step next, or what the environment does (R81, log 2). -/
inductive Turn where
  /-- agent P -/
  | processing
  /-- the agent whose register the oldest host access names: K for CMD, A for QCMD, H for any other -/
  | bus
  /-- agent E -/
  | delivery
  /-- the reset input (R350) -/
  | reset
  /-- the audio pipeline puts a word on SIN -/
  | sinArrives (w : Word)
  /-- a host issues an access -/
  | hostIssues (a : Access)
  /-- SOUT can now take this many words, or any number -/
  | soutReady (room : Option Nat)
  /-- EVT can now take this many words, or any number -/
  | evtReady (room : Option Nat)
deriving DecidableEq, Repr

/-- The whole state. -/
structure State where
  /-- SAMPLE_RATE (R40) -/
  sampleRate   : Word
  /-- CHANNEL_COUNT[15:0] (R41) -/
  channelCount : Count
  sstatus      : StreamStatus
  cstatus      : Status
  qstatus      : Status
  carg         : Vector Word 8
  qarg         : Vector Word 8
  qres         : Vector Word 10
  /-- BAND[b] -/
  band         : List Params
  /-- COEF[b] -/
  coef         : List Coef
  /-- lane ch, entry b, is HIST[b][ch] -/
  hist         : List (List Hist)
  freqBuf      : List Word
  magBuf       : List Word
  phaseBuf     : List Word
  /-- SLOT[b] -/
  slot         : List Slot
  /-- SEQ[b] -/
  seq          : List (BitVec 32)
  /-- STAMP -/
  stamp        : BitVec 64
  /-- environment: words waiting on SIN, oldest first -/
  sin          : List Word
  /-- environment: words written to SOUT, oldest first -/
  sout         : List Word
  /-- environment: how many words SOUT can take, `none` for any number -/
  soutRoom     : Option Nat
  /-- environment: words written to EVT, oldest first -/
  evt          : List Word
  /-- environment: how many words EVT can take, `none` for any number -/
  evtRoom      : Option Nat
  /-- environment: host accesses issued and not yet taken, in arrival order -/
  bus          : List Access
  /-- environment: words MemRead has returned, oldest first -/
  replies      : List Word
  /-- the model's: the build's parameters (00_scope.md R7), which no step changes (log 1) -/
  build        : Build
  /-- the model's: the schedule, next entry first (log 2) -/
  turns        : List Turn
  /-- the model's: how many steps have drawn free NaN patterns (log 4) -/
  draws        : Nat
deriving DecidableEq, Repr

/-- All history zero (41_filter.md R204). -/
def zeroHist (B : Build) : List (List Hist) :=
  List.replicate B.maxChannels (List.replicate B.nBands Hist.zero)

/-- The state of a build right after reset (10_state.md R54, 70_reset_and_hazards.md R350 to R354), with
nothing at its ports and nothing scheduled. -/
def State.resetOf (B : Build) : State where
  sampleRate   := B.sr0
  channelCount := BitVec.ofNat 16 B.c0
  sstatus      := ⟨.ok, 0, false⟩
  cstatus      := ⟨.ok, 0⟩
  qstatus      := ⟨.ok, 0⟩
  carg         := Vector.replicate 8 0
  qarg         := Vector.replicate 8 0
  qres         := Vector.replicate 10 0
  band         := layout B
  coef         := List.replicate B.nBands Coef.ident
  hist         := zeroHist B
  freqBuf      := List.replicate B.mQuery 0
  magBuf       := List.replicate B.mQuery 0
  phaseBuf     := List.replicate B.mQuery 0
  slot         := List.replicate B.nBands Slot.empty
  seq          := List.replicate B.nBands 0
  stamp        := 0
  sin          := []
  sout         := []
  soutRoom     := none
  evt          := []
  evtRoom      := none
  bus          := []
  replies      := []
  build        := B
  turns        := []
  draws        := 0

/-- The machine right after reset, in the test configuration TC (log 1). -/
def State.reset : State := State.resetOf Build.tc

end Sys2Proof.Machine
end

