-- ==== Sys2Proof/Machine/Flags.lean ====
section
/-! DEFINITION. Status reporting. The block has no condition codes and no floating-point flags (10_state.md
R35); what an operation reports is CODE, OP and, on the stream, STICKY (60_exceptions.md R320 to R324). -/

namespace Sys2Proof.Machine

/-- The number of a code (R321). -/
def Code.number : Code → BitVec 8
  | .ok => 0
  | .notFound => 1
  | .badCommand => 2
  | .badValue => 3
  | .configFail => 4

/-- CSTATUS and QSTATUS as the host reads them (10_state.md R37, R38). -/
def Status.word (s : Status) : Word := (s.op ++ s.code.number).setWidth 64

/-- SSTATUS as the host reads it (R39). -/
def StreamStatus.word (s : StreamStatus) : Word :=
  (BitVec.ofBool s.sticky ++ s.op ++ s.code.number).setWidth 64

/-- A token's result: CODE and OP are overwritten, and STICKY is set unless the code is OK (R39, 41_filter.md R210). -/
def StreamStatus.after (s : StreamStatus) (code : Code) (op : BitVec 8) : StreamStatus :=
  ⟨code, op, s.sticky || code != .ok⟩

/-- A command's result on CMD (42_control.md R230). -/
def State.withCstatus (s : State) (code : Code) (op : BitVec 8) : State := { s with cstatus := ⟨code, op⟩ }

/-- A command's result on QCMD (43_analyzer.md R260). -/
def State.withQstatus (s : State) (code : Code) (op : BitVec 8) : State := { s with qstatus := ⟨code, op⟩ }

/-- A token's result on SIN (41_filter.md R210). -/
def State.withSstatus (s : State) (code : Code) (op : BitVec 8) : State :=
  { s with sstatus := s.sstatus.after code op }

end Sys2Proof.Machine
end

