-- ==== Sys2Proof/Machine/Operands.lean ====
section
/-! DEFINITION. Operand and element reads: the register files by index (00_scope.md R10), the operand
registers (10_state.md R31, R32) and the checks on operands (60_exceptions.md R322). -/

namespace Sys2Proof.Machine

/-- An element outside a file; no rule reads one (10_state.md R43 to R49). -/
def Params.none : Params := ⟨.allpass, F64.zero, F64.zero, F64.zero⟩

/-- BAND[b]. -/
def State.bandAt (s : State) (b : Nat) : Params := s.band.getD b Params.none

/-- COEF[b]. -/
def State.coefAt (s : State) (b : Nat) : Coef := s.coef.getD b Coef.ident

/-- HIST[b][ch]. -/
def State.histAt (s : State) (b ch : Nat) : Hist := (s.hist.getD ch []).getD b Hist.zero

/-- SLOT[b]. -/
def State.slotAt (s : State) (b : Nat) : Slot := s.slot.getD b Slot.empty

/-- SEQ[b]. -/
def State.seqAt (s : State) (b : Nat) : BitVec 32 := s.seq.getD b 0

/-- FREQ_BUF[i], MAG_BUF[i] and PHASE_BUF[i]. -/
def State.freqAt (s : State) (i : Nat) : Word := s.freqBuf.getD i 0
def State.magAt (s : State) (i : Nat) : Word := s.magBuf.getD i 0
def State.phaseAt (s : State) (i : Nat) : Word := s.phaseBuf.getD i 0

/-- C, the number of channels of a frame (R41). -/
def State.channels (s : State) : Nat := s.channelCount.toNat

/-- A BAND field names a band of the build (30_encoding.md R103, 42_control.md R231). -/
def State.hasBand (s : State) (b : BandId) : Bool := decide (b.toNat < s.build.nBands)

/-- A query COUNT fits the buffers (43_analyzer.md R272). -/
def State.fitsQuery (s : State) (n : Count) : Bool := decide (n.toNat ≤ s.build.mQuery)

/-- A band is enabled when its stored Q is positive (43_analyzer.md R267). -/
def State.enabled (s : State) (b : Nat) : Bool := F64.lt F64.zero (s.bandAt b).q

/-- The coefficient set a RESPONSE command takes from QARG[0..4] (43_analyzer.md R268). -/
def State.qargCoef (s : State) : Coef := ⟨s.qarg[0], s.qarg[1], s.qarg[2], s.qarg[3], s.qarg[4]⟩

/-- Whether a port with this room takes n words (20_memory.md R87). -/
def roomFor (room : Option Nat) (n : Nat) : Bool :=
  match room with
  | none => true
  | some k => decide (n ≤ k)

/-- A port's room after it has taken n words. -/
def roomLess (room : Option Nat) (n : Nat) : Option Nat := room.map (· - n)

end Sys2Proof.Machine
end

