-- ==== Sys2Proof/Machine/Ops.lean ====
section
/-! DEFINITION. The shared operations: the register map (20_memory.md R70 to R76), history reset
(41_filter.md R204), the change record (44_notifier.md R290 to R293), the common body of the setters
(42_control.md R232) and the reset input. The block takes no exception (60_exceptions.md R320, R326): what
stands in its place is the report of a failure, the `with...status` operations of Flags.lean. -/

namespace Sys2Proof.Machine

open Config (Build)

/-! ## The register map (R72) -/

/-- What an address names. -/
inductive Reg where
  | id
  | sampleRate
  | channelCount
  | sstatus
  | cmd
  | cstatus
  | carg (i : Nat)
  | qcmd
  | qstatus
  | qarg (i : Nat)
  | qres (i : Nat)
  | freq (i : Nat)
  | mag (i : Nat)
  | phase (i : Nat)
  | unmapped
deriving DecidableEq, Repr

/-- Whether n is one of k words from base on. -/
def inFile (n base k : Nat) : Bool := decide (base ≤ n ∧ n < base + 8 * k)

/-- The register or entry at an aligned address, for a build with m query entries (R72). -/
def regAt (m : Nat) (a : Addr) : Reg :=
  let n := a.toNat
  if n = 0x00000 then .id
  else if n = 0x00008 then .sampleRate
  else if n = 0x00010 then .channelCount
  else if n = 0x00018 then .sstatus
  else if n = 0x00100 then .cmd
  else if n = 0x00108 then .cstatus
  else if inFile n 0x00140 8 then .carg ((n - 0x00140) / 8)
  else if n = 0x00200 then .qcmd
  else if n = 0x00208 then .qstatus
  else if inFile n 0x00240 8 then .qarg ((n - 0x00240) / 8)
  else if inFile n 0x00280 10 then .qres ((n - 0x00280) / 8)
  else if inFile n 0x10000 m then .freq ((n - 0x10000) / 8)
  else if inFile n 0x20000 m then .mag ((n - 0x20000) / 8)
  else if inFile n 0x30000 m then .phase ((n - 0x30000) / 8)
  else .unmapped

/-- ID (10_state.md R36). -/
def idWord (B : Build) : Word :=
  (1 : BitVec 16) ++ BitVec.ofNat 16 B.mQuery ++ BitVec.ofNat 16 B.maxChannels ++ BitVec.ofNat 16 B.nBands

/-- The word a register reads as; CMD, QCMD and unmapped addresses read as 0 (R42, R73). -/
def State.readReg (s : State) : Reg → Word
  | .id => idWord s.build
  | .sampleRate => s.sampleRate
  | .channelCount => s.channelCount.setWidth 64
  | .sstatus => s.sstatus.word
  | .cmd => 0
  | .cstatus => s.cstatus.word
  | .carg i => s.carg.toList.getD i 0
  | .qcmd => 0
  | .qstatus => s.qstatus.word
  | .qarg i => s.qarg.toList.getD i 0
  | .qres i => s.qres.toList.getD i 0
  | .freq i => s.freqAt i
  | .mag i => s.magAt i
  | .phase i => s.phaseAt i
  | .unmapped => 0

/-- A host write to a register other than CMD and QCMD: read-write registers take the word, SSTATUS clears
STICKY when bit 16 is 1, every other write changes nothing (R39, R73). -/
def State.writeReg (s : State) (r : Reg) (w : Word) : State :=
  match r with
  | .carg i => { s with carg := s.carg.setIfInBounds i w }
  | .qarg i => { s with qarg := s.qarg.setIfInBounds i w }
  | .freq i => { s with freqBuf := s.freqBuf.set i w }
  | .sstatus => { s with sstatus := { s.sstatus with sticky := s.sstatus.sticky && !w.getLsbD 16 } }
  | .id | .sampleRate | .channelCount | .cmd | .cstatus | .qcmd | .qstatus | .qres _ | .mag _ | .phase _
  | .unmapped => s

/-- The word MemRead returns at an aligned address (R71, R73). -/
def State.mapRead (s : State) (a : Addr) : Word := s.readReg (regAt s.build.mQuery a)

/-- The byte at a byte address of the map, little-endian: byte k of a word is bits [8k+7:8k] (R75). -/
def State.mapByte (s : State) (a : Addr) : BitVec 8 :=
  (s.mapRead (a &&& 0x3FFF8)).extractLsb' (8 * (a.toNat % 8)) 8

/-- An access the bus carries: 64 bits wide at a multiple of 8 (R74). -/
def isTransaction (a : Addr) (bytes : Nat) : Bool := bytes == 8 && a.toNat % 8 == 0

/-! ## History (41_filter.md R204) -/

/-- Zeroes HIST[b][ch] for every b and ch. -/
def State.resetHist (s : State) : State := { s with hist := zeroHist s.build }

/-! ## Change records -/

/-- The ten words of band b's change record with sequence number q (30_encoding.md R116, 44_notifier.md R290). -/
def State.recordOf (s : State) (b : Nat) (q : BitVec 32) : Vector Word 10 :=
  let p := s.bandAt b
  let c := s.coefAt b
  #v[(q ++ (0 : BitVec 13) ++ p.ftype.code ++ BitVec.ofNat 8 b ++ (0x80 : BitVec 8) : BitVec 64),
     s.sampleRate, p.freq, p.gain, p.q, c.b0, c.b1, c.b2, c.a1, c.a2]

/-- A band's slot after a record is produced: the newest record, under the stamp the slot already holds or
the next one (44_notifier.md R292, R293). -/
def Slot.accept (sl : Slot) (stamp : BitVec 64) (r : Vector Word 10) : Slot :=
  if sl.pending then { sl with record := r } else ⟨true, stamp, r⟩

/-- emit(b) (44_notifier.md R292). -/
def State.emit (s : State) (b : Nat) : State :=
  let q := s.seqAt b + 1
  let sl := s.slotAt b
  { s with
    seq   := s.seq.set b q
    slot  := s.slot.set b (sl.accept s.stamp (s.recordOf b q))
    stamp := if sl.pending then s.stamp else s.stamp + 1 }

/-- emit for each band in band order (41_filter.md R213). -/
def State.emitAll (s : State) : State := (List.range s.build.nBands).foldl State.emit s

/-! ## Parameters and coefficients -/

/-- The designer's value for a parameter record at a sample rate (10_state.md R45). -/
def State.designFor (s : State) (p : Params) (sr : Word) : Coef :=
  design s.build.num p.ftype p.freq p.q p.gain sr

/-- apply(b, p) (42_control.md R232). -/
def State.apply (s : State) (b : Nat) (p : Params) : State :=
  State.emit { s with band := s.band.set b p, coef := s.coef.set b (s.designFor p s.sampleRate) } b

/-! ## The reset input (70_reset_and_hazards.md R350, R355) -/

/-- Reset between two steps: every piece of the block's state takes its reset value; what waits on SIN and on
the bus, what was written to SOUT and EVT, and the schedule stay. -/
def State.afterReset (s : State) : State :=
  { State.resetOf s.build with
    sin := s.sin, sout := s.sout, soutRoom := s.soutRoom, evt := s.evt, evtRoom := s.evtRoom,
    bus := s.bus, replies := s.replies, turns := s.turns, draws := s.draws }

/-- A build's first state, where the build exists (R357). -/
def instantiate (B : Build) : Except Refusal State :=
  if buildValid B then .ok (State.resetOf B) else .error .notABuild

end Sys2Proof.Machine
end

