-- ==== Sys2Proof/Machine/Analyzer.lean ====
section
/-! DEFINITION. The frequency-response analyzer and the query commands, steps of agent A (43_analyzer.md,
40_designer.md R166). -/

namespace Sys2Proof.Machine

open Config (NumSel)

/-! ## Complex primitives (00_scope.md R15) -/

/-- A complex value. -/
structure Complex64 where
  re : Word
  im : Word
deriving DecidableEq, Repr

namespace Complex64

/-- r ⊗ (p, q). -/
def scale (r : Word) (z : Complex64) : Complex64 := ⟨F64.mul r z.re, F64.mul r z.im⟩

/-- r ⊕ (p, q). -/
def shift (r : Word) (z : Complex64) : Complex64 := ⟨F64.add r z.re, z.im⟩

/-- (p, q) × (u, v). -/
def times (z w : Complex64) : Complex64 :=
  ⟨F64.sub (F64.mul z.re w.re) (F64.mul z.im w.im), F64.add (F64.mul z.re w.im) (F64.mul z.im w.re)⟩

/-- (p, q) ÷ (u, v). -/
def quotient (n : NumSel) (z w : Complex64) : Complex64 :=
  let r := Num.cdiv n z.re z.im w.re w.im
  ⟨r.1, r.2⟩

/-- cabs and carg. -/
def abs (n : NumSel) (z : Complex64) : Word := Num.hypot n z.re z.im
def arg (n : NumSel) (z : Complex64) : Word := Num.atan2 n z.im z.re

end Complex64

/-! ## The transfer function (R261 to R267) -/

/-- A magnitude and a phase. -/
structure Response where
  mag : Word
  ph  : Word
deriving DecidableEq, Repr

/-- k ⊕ ((c1 ⊕ (c2 ⊗ z)) × z), the numerator and denominator of R261. -/
def horner (k c1 c2 : Word) (z : Complex64) : Complex64 :=
  .shift k (.times (.shift c1 (.scale c2 z)) z)

/-- w = PI * (f / (sr / 2.0)) (R261, R262). -/
def angle (sr f : Word) : Word := F64.mul F64.PI (F64.div f (F64.div sr Const.two))

/-- z = (cos w, -sin w) (R261). -/
def unitDelay (n : NumSel) (w : Word) : Complex64 := ⟨Num.cos n w, F64.neg (Num.sin n w)⟩

/-- resp(c, sr, f) (R261). -/
def resp (n : NumSel) (c : Coef) (sr f : Word) : Response :=
  let z := unitDelay n (angle sr f)
  let h := Complex64.quotient n (horner c.b0 c.b1 c.b2 z) (horner F64.one c.a1 c.a2 z)
  ⟨h.abs n, h.arg n⟩

/-- One band's part in the chain's response (R266). -/
def State.compose (s : State) (f : Word) (r : Response) (b : Nat) : Response :=
  if s.enabled b then
    let q := resp s.build.num (s.coefAt b) s.sampleRate f
    ⟨F64.mul r.mag q.mag, F64.add r.ph q.ph⟩
  else r

/-- chain(f) (R266). -/
def State.chain (s : State) (f : Word) : Response :=
  (List.range s.build.nBands).foldl (s.compose f) ⟨F64.one, F64.zero⟩

/-! ## The query commands -/

/-- Entry i of MAG_BUF and of PHASE_BUF after a response query: the response at FREQ_BUF[i] (R272). -/
def State.magEntry (s : State) (f : Word → Response) (i : Nat) : Word :=
  F64.settle (.magnitude s.draws i) (f (s.freqAt i)).mag

def State.phaseEntry (s : State) (f : Word → Response) (i : Nat) : Word :=
  F64.settle (.phase s.draws i) (f (s.freqAt i)).ph

/-- The first n entries of MAG_BUF and PHASE_BUF take the responses at the first n entries of FREQ_BUF, the
others keep their words (R268, R270, R271). -/
def State.respond (s : State) (n : Nat) (f : Word → Response) : State :=
  { s with
    magBuf   := (List.range n).map (s.magEntry f) ++ s.magBuf.drop n
    phaseBuf := (List.range n).map (s.phaseEntry f) ++ s.phaseBuf.drop n
    draws    := s.draws + 1 }

/-- DESIGN (40_designer.md R166). -/
def execDesign (t : FilterType) (s : State) : Host.Outcome State Fault Refusal :=
  if validRate s.qarg[3] then
    let c := design s.build.num t s.qarg[0] s.qarg[1] s.qarg[2] s.qarg[3]
    .next { s with
      qres := #v[c.b0, c.b1, c.b2, c.a1, c.a2, s.qres[5], s.qres[6], s.qres[7], s.qres[8], s.qres[9]]
      qstatus := ⟨.ok, 0x20⟩ }
  else .next (s.withQstatus .badValue 0x20)

/-- READ_BAND (R269). -/
def execReadBand (b : BandId) (s : State) : Host.Outcome State Fault Refusal :=
  if s.hasBand b then
    let c := s.coefAt b.toNat
    let p := s.bandAt b.toNat
    .next { s with
      qres := #v[c.b0, c.b1, c.b2, c.a1, c.a2, p.ftype.code.setWidth 64, p.freq, p.q, p.gain, s.sampleRate]
      qstatus := ⟨.ok, 0x21⟩ }
  else .next (s.withQstatus .notFound 0x21)

/-- RESPONSE (R268). -/
def execResponse (n : Count) (s : State) : Host.Outcome State Fault Refusal :=
  if s.fitsQuery n then
    if validRate s.qarg[5] then
      .next ((s.respond n.toNat (resp s.build.num s.qargCoef s.qarg[5])).withQstatus .ok 0x22)
    else .next (s.withQstatus .badValue 0x22)
  else .next (s.withQstatus .badValue 0x22)

/-- RESPONSE_BAND (R270). -/
def execResponseBand (b : BandId) (n : Count) (s : State) : Host.Outcome State Fault Refusal :=
  if s.hasBand b then
    if s.fitsQuery n then
      .next ((s.respond n.toNat (resp s.build.num (s.coefAt b.toNat) s.sampleRate)).withQstatus .ok 0x23)
    else .next (s.withQstatus .badValue 0x23)
  else .next (s.withQstatus .notFound 0x23)

/-- RESPONSE_CHAIN (R271). -/
def execResponseChain (n : Count) (s : State) : Host.Outcome State Fault Refusal :=
  if s.fitsQuery n then .next ((s.respond n.toNat s.chain).withQstatus .ok 0x24)
  else .next (s.withQstatus .badValue 0x24)

end Sys2Proof.Machine
end

