-- ==== Sys2Proof/Machine/Control.lean ====
section
/-! DEFINITION. The control commands, steps of agent K (42_control.md). -/

namespace Sys2Proof.Machine

/-- The control step after decoding (R230): the band check, the setter's edit of BAND[b], the status. -/
def setter (op : BitVec 8) (b : BandId) (edit : Params → Params) (s : State) : Host.Outcome State Fault Refusal :=
  if s.hasBand b then .next ((s.apply b.toNat (edit (s.bandAt b.toNat))).withCstatus .ok op)
  else .next (s.withCstatus .notFound op)

/-- SET_FREQ (R233). -/
def execSetFreq (b : BandId) (s : State) : Host.Outcome State Fault Refusal :=
  setter 0x01 b (fun p => { p with freq := s.carg[0] }) s

/-- SET_Q (R234). -/
def execSetQ (b : BandId) (s : State) : Host.Outcome State Fault Refusal :=
  setter 0x02 b (fun p => { p with q := s.carg[0] }) s

/-- SET_GAIN (R235). -/
def execSetGain (b : BandId) (s : State) : Host.Outcome State Fault Refusal :=
  setter 0x03 b (fun p => { p with gain := s.carg[0] }) s

/-- SET_TYPE (R236). -/
def execSetType (b : BandId) (t : FilterType) (s : State) : Host.Outcome State Fault Refusal :=
  setter 0x04 b (fun p => { p with ftype := t }) s

/-- SET_PARAMS (R237). -/
def execSetParams (b : BandId) (t : FilterType) (s : State) : Host.Outcome State Fault Refusal :=
  setter 0x05 b (fun _ => ⟨t, s.carg[0], s.carg[1], s.carg[2]⟩) s

end Sys2Proof.Machine
end

