-- ==== Sys2Proof/Machine/Filter.lean ====
section
/-! DEFINITION. The biquad step, the cascade and the input stream tokens, steps of agent P (41_filter.md). -/

namespace Sys2Proof.Machine

/-! ## The biquad step (R191 to R195) -/

/-- FLUSH_MIN = 2^-1022 (00_scope.md R7, R192). -/
def flushMin : Word := 0x0010000000000000

/-- The denormal flush (R192). -/
def flush (v : Word) : Word := if F64.lt (F64.abs v) flushMin then F64.zero else v

/-- y of the difference equation, left to right (R191). -/
def difference (c : Coef) (h : Hist) (x : Word) : Word :=
  F64.sub
    (F64.sub
      (F64.add (F64.add (F64.mul c.b0 x) (F64.mul c.b1 h.x1)) (F64.mul c.b2 h.x2))
      (F64.mul c.a1 h.y1))
    (F64.mul c.a2 h.y2)

/-- The history after input x and output y (R191, R193). -/
def Hist.shift (h : Hist) (x y : Word) : Hist := ⟨flush x, h.x1, flush y, h.y1⟩

/-- step(c, h, x) (R191); a NaN output takes the free pattern of its site (I4, log 4). -/
def biquad (site : Config.NanSite) (c : Coef) (h : Hist) (x : Word) : Word × Hist :=
  let y := F64.settle site (difference c h x)
  (y, h.shift x y)

/-! ## The cascade (R196, R197) -/

/-- One channel through the bands from b on: each band's output is the next band's input. -/
def cascade (draw ch : Nat) : Nat → List Coef → List Hist → Word → Word × List Hist
  | b, c :: cs, h :: hs, v =>
    let (y, h') := biquad (.sample draw b ch) c h v
    let (o, hs') := cascade draw ch (b + 1) cs hs y
    (o, h' :: hs')
  | _, _, hs, v => (v, hs)

/-- Every channel from ch on that has a sample; the lanes above keep their history. -/
def lanes (draw : Nat) (cs : List Coef) : Nat → List Word → List (List Hist) → List Word × List (List Hist)
  | ch, x :: xs, l :: ls =>
    let (o, l') := cascade draw ch 0 cs l x
    let (os, ls') := lanes draw cs (ch + 1) xs ls
    (o :: os, l' :: ls')
  | _, _, ls => ([], ls)

/-! ## The tokens -/

/-- SOUT can take the output frame (R198). -/
def State.soutTakesFrame (s : State) : Bool := roomFor s.soutRoom (1 + s.channels)

/-- Words appended to SOUT. -/
def State.toSout (s : State) (ws : List Word) : State :=
  { s with sout := s.sout ++ ws, soutRoom := roomLess s.soutRoom ws.length }

/-- FRAME (R199, R200). With a frame SOUT cannot take, P takes no step (R198, I8). -/
def execFrame (xs : List Word) (s : State) : Host.Outcome State Fault Refusal :=
  if xs.length ≠ s.channels then .next (s.withSstatus .badValue 0x40)
  else if s.soutTakesFrame then
    let r := lanes s.draws s.coef 0 xs s.hist
    .next ((State.toSout { s with hist := r.2, draws := s.draws + 1 } (wordN 0x40 0 s.channelCount :: r.1)).withSstatus
      .ok 0x40)
  else .next s

/-- A valid rate becomes the chain's: every COEF is designed anew, history is zeroed, every band emits (R213). -/
def State.setRate (s : State) (sr : Word) : State :=
  State.emitAll
    (State.resetHist { s with sampleRate := sr, coef := s.band.map (fun p => s.designFor p sr) })

/-- RATE (R213). -/
def execRate (sr : Word) (s : State) : Host.Outcome State Fault Refusal :=
  if validRate sr then .next ((s.setRate sr).withSstatus .ok 0x41)
  else .next (s.withSstatus .badValue 0x41)

/-- CHANNELS (R205, R214). -/
def execChannels (n : Count) (s : State) : Host.Outcome State Fault Refusal :=
  if n.toNat = 0 ∨ s.build.maxChannels < n.toNat then .next (s.withSstatus .configFail 0x42)
  else .next ((State.resetHist { s with channelCount := n }).withSstatus .ok 0x42)

/-- DISCONTINUITY (R215). -/
def execDiscontinuity (s : State) : Host.Outcome State Fault Refusal :=
  .next (s.resetHist.withSstatus .ok 0x43)

end Sys2Proof.Machine
end

