-- ==== Sys2Proof/Machine/Notifier.lean ====
section
/-! DEFINITION. Delivery of change records, steps of agent E (44_notifier.md R294 to R299). -/

namespace Sys2Proof.Machine

/-- The pending band with the smallest stamp among the slots from band b on, and that stamp (R297). -/
def oldestFrom : Nat → List Slot → Option (Nat × BitVec 64)
  | _, [] => none
  | b, sl :: rest =>
    match oldestFrom (b + 1) rest with
    | none => if sl.pending then some (b, sl.stamp) else none
    | some (b', st) => if sl.pending && decide (sl.stamp.toNat ≤ st.toNat) then some (b, sl.stamp) else some (b', st)

/-- The band whose record is delivered next (R294, R297). -/
def State.nextDelivery (s : State) : Option Nat := (oldestFrom 0 s.slot).map Prod.fst

/-- EVT can take a record (R297). -/
def State.evtTakesRecord (s : State) : Bool := roomFor s.evtRoom 10

/-- Band b's record is on EVT and its slot is cleared; record and stamp keep their values (R297). -/
def State.delivered (s : State) (b : Nat) : State :=
  let sl := s.slotAt b
  { s with
    evt     := s.evt ++ sl.record.toList
    evtRoom := roomLess s.evtRoom 10
    slot    := s.slot.set b { sl with pending := false } }

/-- DELIVER (R297). With no slot pending, or where EVT cannot take a record, E takes no step (I9). -/
def execDeliver (s : State) : Host.Outcome State Fault Refusal :=
  match s.nextDelivery with
  | some b => if s.evtTakesRecord then .next (s.delivered b) else .next s
  | none => .next s

end Sys2Proof.Machine
end

