-- ==== Sys2Proof/Machine/Dispatch.lean ====
section
/-! DEFINITION. The meaning of each instruction, one arm per constructor. -/

namespace Sys2Proof.Machine

def exec (i : Instr) (s : State) : Host.Outcome State Fault Refusal :=
  match i with
  -- agent K: control commands (30_encoding.md R105)
  | .setFreq b => Sys2Proof.Machine.execSetFreq b s
  | .setQ b => Sys2Proof.Machine.execSetQ b s
  | .setGain b => Sys2Proof.Machine.execSetGain b s
  | .setType b t => Sys2Proof.Machine.execSetType b t s
  | .setParams b t => Sys2Proof.Machine.execSetParams b t s
  -- agent A: query commands (R106)
  | .design t => Sys2Proof.Machine.execDesign t s
  | .readBand b => Sys2Proof.Machine.execReadBand b s
  | .response n => Sys2Proof.Machine.execResponse n s
  | .responseBand b n => Sys2Proof.Machine.execResponseBand b n s
  | .responseChain n => Sys2Proof.Machine.execResponseChain n s
  -- agent P: stream tokens (R111)
  | .frame xs => Sys2Proof.Machine.execFrame xs s
  | .rate sr => Sys2Proof.Machine.execRate sr s
  | .channels n => Sys2Proof.Machine.execChannels n s
  | .discontinuity => Sys2Proof.Machine.execDiscontinuity s
  -- agent E (44_notifier.md R297)
  | .deliver => Sys2Proof.Machine.execDeliver s

end Sys2Proof.Machine
end

