-- ==== Sys2Proof/Machine/Agents.lean ====
section
/-! DEFINITION. The steps of the five agents (20_memory.md R80 to R87) and the environment's moves, as the
schedule calls them (log 2); where a step fetches its instruction. -/

namespace Sys2Proof.Machine

/-! ## Agents K, A and H: the host's accesses -/

/-- The addresses of CMD and QCMD (20_memory.md R72). -/
def cmdAddr : Addr := 0x00100
def qcmdAddr : Addr := 0x00200

/-- A MemWrite to CMD, one step of agent K (42_control.md R230). -/
def stepControl (w : Word) (s : State) : Host.Outcome State Fault Refusal :=
  match decodeCmd w with
  | .ok i => exec i s
  | .error _ => .next (s.withCstatus .badCommand (opField w))

/-- A MemWrite to QCMD, one step of agent A (43_analyzer.md R260). -/
def stepQuery (w : Word) (s : State) : Host.Outcome State Fault Refusal :=
  match decodeQcmd w with
  | .ok i => exec i s
  | .error _ => .next (s.withQstatus .badCommand (opField w))

/-- One host access (R71): a step of H, or of K or A where it writes CMD or QCMD. The model has no step for
one that is not a transaction (R74, I5). -/
def stepAccess (a : Access) (s : State) : Host.Outcome State Fault Refusal :=
  match a with
  | .read addr bytes =>
    if isTransaction addr bytes then .next { s with replies := s.replies ++ [s.mapRead addr] }
    else .refused .notATransaction
  | .write addr bytes w =>
    if isTransaction addr bytes then
      match regAt s.build.mQuery addr with
      | .cmd => stepControl w s
      | .qcmd => stepQuery w s
      | r => .next (s.writeReg r w)
    else .refused .notATransaction

/-- The oldest host access on the bus (R82). -/
def stepBus (s : State) : Host.Outcome State Fault Refusal :=
  match s.bus with
  | [] => .next s
  | a :: rest => stepAccess a { s with bus := rest }

/-! ## Agent P: the input stream -/

/-- P can take this token now: a FRAME whose COUNT is C waits for SOUT, no other token waits (41_filter.md R198). -/
def State.streamReady (s : State) : Instr → Bool
  | .frame xs => xs.length != s.channels || s.soutTakesFrame
  | .setFreq _ | .setQ _ | .setGain _ | .setType _ _ | .setParams _ _ => true
  | .design _ | .readBand _ | .response _ | .responseBand _ _ | .responseChain _ => true
  | .rate _ | .channels _ | .discontinuity | .deliver => true

/-- One step of agent P: the next whole token of SIN (R198, R211, R212). Without one, P takes no step. DESIGN CHOICE
(log 17): an illegal token waits for no room on SOUT, not even one with OP 0x40, a reserved bit set and COUNT = C,
which R198 may or may not count as a FRAME. -/
def stepStream (s : State) : Host.Outcome State Fault Refusal :=
  match splitToken s.sin with
  | none => .next s
  | some (h, payload, rest) =>
    match decodeToken h payload with
    | .error _ => .next (State.withSstatus { s with sin := rest } .badCommand (opField h))
    | .ok i => if s.streamReady i then exec i { s with sin := rest } else .next s

/-! ## The schedule -/

/-- What one entry of the schedule does. -/
def takeTurn (t : Turn) (s : State) : Host.Outcome State Fault Refusal :=
  match t with
  | .processing => stepStream s
  | .bus => stepBus s
  | .delivery => exec .deliver s
  | .reset => .next s.afterReset
  | .sinArrives w => .next { s with sin := s.sin ++ [w] }
  | .hostIssues a => .next { s with bus := s.bus ++ [a] }
  | .soutReady room => .next { s with soutRoom := room }
  | .evtReady room => .next { s with evtRoom := room }

/-! ## Placing an instruction where the next step fetches it (log 7) -/

/-- A command word as the oldest host access, whose turn is next. -/
def State.placeCommand (s : State) (addr : Addr) (w : Word) : State :=
  { s with bus := .write addr 8 w :: s.bus, turns := .bus :: s.turns }

/-- A token at the head of SIN, whose turn is next, with SOUT ready. -/
def State.placeToken (s : State) (ws : List Word) : State :=
  { s with sin := ws ++ s.sin, turns := .processing :: s.turns, soutRoom := none }

/-- Agent E's turn next, with EVT ready and a slot pending: band 0's, unless some slot is pending already. -/
def State.placeDelivery (s : State) : State :=
  { s with
    turns := .delivery :: s.turns
    evtRoom := none
    slot := if s.nextDelivery.isSome then s.slot else s.slot.set 0 { s.slotAt 0 with pending := true } }

/-- The words of an instruction placed on the port whose map their opcode belongs to; a word with no opcode of
any map goes to CMD. -/
def State.placeWords (s : State) (nbits w : Nat) : State :=
  if nbits = 0 then s.placeDelivery
  else
    let h : Word := BitVec.ofNat 64 (w % 2 ^ nbits)
    match portOfOpcode (opField h) with
    | some .sin => s.placeToken (tableWords nbits w)
    | some .qcmd => s.placeCommand qcmdAddr h
    | some .cmd | none => s.placeCommand cmdAddr h

end Sys2Proof.Machine
end

