-- ==== Sys2Proof/Machine/Schedule.lean ====
section
/-! DEFINITION. Whole runs of the block (20_memory.md R80, R81): which of the five agents has an enabled step,
what an endless run is under an endless schedule, and when it is weakly fair (log 9). -/

namespace Sys2Proof.Machine

/-- The five agents P, K, A, E and H (R80). -/
inductive Agent where
  | processing
  | control
  | analyzer
  | delivery
  | host
deriving DecidableEq, Repr

/-- The turn in which an agent takes its step: K, A and H all step by taking the oldest host access (log 2). -/
def Agent.turn : Agent → Turn
  | .processing => .processing
  | .control | .analyzer | .host => .bus
  | .delivery => .delivery

/-- The agent whose step a host access is: K for a write to CMD, A for one to QCMD, H for any other (R71); none
for an access that is not a transaction (R74). -/
def accessAgent (m : Nat) : Access → Option Agent
  | .read a n => if isTransaction a n then some .host else none
  | .write a n _ =>
    if isTransaction a n then
      match regAt m a with
      | .cmd => some .control
      | .qcmd => some .analyzer
      | _ => some .host
    else none

/-- P has an enabled step: a whole token is on SIN and, for a FRAME of C samples, SOUT can take the output frame
(R87, 41_filter.md R198). DESIGN CHOICE (log 17): an illegal token needs no room on SOUT, whatever its OP and COUNT. -/
def State.tokenReady (s : State) : Bool :=
  match splitToken s.sin with
  | none => false
  | some (h, payload, _) =>
    match decodeToken h payload with
    | .error _ => true
    | .ok i => s.streamReady i

/-- An agent has an enabled step (R87): P as above; E when a slot is pending and EVT can take a record
(44_notifier.md R297); K, A and H when the oldest access the host has issued is theirs (R82). -/
def State.agentEnabled (s : State) (g : Agent) : Bool :=
  match g with
  | .processing => s.tokenReady
  | .delivery => s.nextDelivery.isSome && s.evtTakesRecord
  | .control | .analyzer | .host => s.bus.head?.any fun a => accessAgent s.build.mQuery a == some g

/-- r is the endless run under the endless schedule τ: from each state, a step in which τ has one turn gives the
next (R81: any τ is an order the block may follow). -/
def IsRun (r : Nat → State) (τ : Nat → Turn) : Prop :=
  ∀ k, step { r k with turns := [τ k] } = .next (r (k + 1))

/-- Weak fairness (R81): an agent that stays enabled from some point on takes a step after it. -/
def WeaklyFair (r : Nat → State) (τ : Nat → Turn) : Prop :=
  ∀ (g : Agent) (n : Nat), (∀ k, n ≤ k → (r k).agentEnabled g = true) → ∃ k, n ≤ k ∧ τ k = g.turn

end Sys2Proof.Machine
end

