-- ==== Sys2Proof/Safety.lean ====
section
/-! DEFINITION. What a sound state of the block is, and what a safe step may touch, in the terms the claims use. -/

namespace Sys2Proof.Machine

/-- Every file has the size its build gives it (10_state.md R43 to R49). -/
structure State.Sized (s : State) : Prop where
  band  : s.band.length = s.build.nBands
  coef  : s.coef.length = s.build.nBands
  slot  : s.slot.length = s.build.nBands
  seq   : s.seq.length = s.build.nBands
  lane  : s.hist.length = s.build.maxChannels
  hist  : ∀ l ∈ s.hist, l.length = s.build.nBands
  freq  : s.freqBuf.length = s.build.mQuery
  mag   : s.magBuf.length = s.build.mQuery
  phase : s.phaseBuf.length = s.build.mQuery

/-- A value that a denormal flush has stored: no subnormal and no -0.0 (41_filter.md R193). -/
def isFlushed (v : Word) : Prop := F64.expField v = 0 → v = F64.zero

/-- A history record of flushed values (R193). -/
structure Hist.Flushed (h : Hist) : Prop where
  x1 : isFlushed h.x1
  x2 : isFlushed h.x2
  y1 : isFlushed h.y1
  y2 : isFlushed h.y2

/-- COEF[b] is the designer's value for BAND[b] at the chain's rate (10_state.md R45). -/
def State.CoefDesigned (s : State) (b : Nat) : Prop := s.coefAt b = s.designFor (s.bandAt b) s.sampleRate

/-- The invariant every step keeps. -/
structure State.Inv (s : State) : Prop where
  /-- the build exists (00_scope.md R7) -/
  build    : buildValid s.build = true
  sized    : s.Sized
  /-- R40 -/
  rate     : validRate s.sampleRate = true
  /-- R41 -/
  channels : 1 ≤ s.channels ∧ s.channels ≤ s.build.maxChannels
  /-- R45 -/
  designed : ∀ b, b < s.build.nBands → s.CoefDesigned b
  /-- R193 -/
  flushed  : ∀ b ch, (s.histAt b ch).Flushed
  /-- R46: entries of no live channel hold +0.0 -/
  idle     : ∀ b ch, s.channels ≤ ch → s.histAt b ch = Hist.zero

/-- Pending slots carry stamps given out before, no two the same (44_notifier.md R294). -/
structure State.StampsUnique (s : State) : Prop where
  given    : ∀ b, (s.slotAt b).pending = true → (s.slotAt b).stamp.toNat < s.stamp.toNat
  distinct : ∀ b c, (s.slotAt b).pending = true → (s.slotAt c).pending = true →
    (s.slotAt b).stamp = (s.slotAt c).stamp → b = c

/-- A step that answers a next state of which P holds. -/
def Answers (o : Host.Outcome State Fault Refusal) (P : State → Prop) : Prop := ∃ t, o = .next t ∧ P t

/-- The value of a finite word, a rational number (00_scope.md R13). -/
def wordValue (w : Word) : ℚ := (F64.value w : ℚ) / 2 ^ 1074

/-- w is the exact number x rounded to binary64 (00_scope.md R11): the nearest finite value and, of two that are
equally near, the one whose last bit is 0; from half a unit in the last place above the largest finite value on, an
infinity. A result of x ≠ 0 has the sign of x, also where it is a zero. -/
structure RoundsTo (x : ℝ) (w : Word) : Prop where
  finite   : |x| < 2 ^ 1024 - 2 ^ 970 → F64.isFinite w = true
  nearest  : |x| < 2 ^ 1024 - 2 ^ 970 → ∀ u, F64.isFinite u = true → |x - wordValue w| ≤ |x - wordValue u|
  even     : |x| < 2 ^ 1024 - 2 ^ 970 → ∀ u, F64.isFinite u = true → |x - wordValue u| = |x - wordValue w| →
    wordValue u ≠ wordValue w → w.getLsbD 0 = false
  overflow : (2 ^ 1024 - 2 ^ 970 ≤ x → w = F64.posInf) ∧ (x ≤ -(2 ^ 1024 - 2 ^ 970) → w = F64.neg F64.posInf)
  sign     : (0 < x → F64.signBit w = false) ∧ (x < 0 → F64.signBit w = true)

/-! ## What an instruction may write -/

/-- The words of the register map, by address / 8, that an instruction may write (20_memory.md R72, R86): its
port's status register and the results its rule names. -/
def mayWriteWord (i : Instr) (k : Nat) : Bool :=
  match i with
  | .setFreq _ | .setQ _ | .setGain _ | .setType _ _ | .setParams _ _ => k == 0x21
  | .design _ => k == 0x41 || (decide (0x50 ≤ k) && decide (k < 0x55))
  | .readBand _ => k == 0x41 || (decide (0x50 ≤ k) && decide (k < 0x5A))
  | .response n | .responseBand _ n | .responseChain n =>
    k == 0x41 || (decide (0x4000 ≤ k) && decide (k < 0x4000 + n.toNat)) ||
      (decide (0x6000 ≤ k) && decide (k < 0x6000 + n.toNat))
  | .frame _ | .discontinuity => k == 0x03
  | .rate _ => k == 0x03 || k == 0x01
  | .channels _ => k == 0x03 || k == 0x02
  | .deliver => false

/-- The words of the register map that name a register or a buffer entry, for m query entries (R72). -/
def mappedWord (m k : Nat) : Bool :=
  decide (k < 4) || decide (0x20 ≤ k ∧ k < 0x22) || decide (0x28 ≤ k ∧ k < 0x30) || decide (0x40 ≤ k ∧ k < 0x42) ||
    decide (0x48 ≤ k ∧ k < 0x5A) || decide (0x2000 ≤ k ∧ k < 0x2000 + m) || decide (0x4000 ≤ k ∧ k < 0x4000 + m) ||
    decide (0x6000 ≤ k ∧ k < 0x6000 + m)

/-! ## What a setter leaves -/

/-- The ten words of a change record (30_encoding.md R116): word 0 holds TAG, band id, type code and sequence
number, then the rate, the parameters and the coefficients. -/
def recordWords (b : Nat) (q : BitVec 32) (sr : Word) (p : Params) (c : Coef) : List Word :=
  [(q ++ (0 : BitVec 13) ++ p.ftype.code ++ BitVec.ofNat 8 b ++ (0x80 : BitVec 8) : BitVec 64),
   sr, p.freq, p.gain, p.q, c.b0, c.b1, c.b2, c.a1, c.a2]

/-- From s to t, band b took the parameters p and the coefficients designed from them at the chain's rate, and
produced one record, as 42_control.md R232 and 44_notifier.md R292 say; no other band changed. -/
structure Edited (s t : State) (b : Nat) (p : Params) : Prop where
  band    : t.bandAt b = p
  coef    : t.coefAt b = design s.build.num p.ftype p.freq p.q p.gain s.sampleRate
  seq     : t.seqAt b = s.seqAt b + 1
  pending : (t.slotAt b).pending = true
  stamp   : (t.slotAt b).stamp = if (s.slotAt b).pending then (s.slotAt b).stamp else s.stamp
  given   : t.stamp = if (s.slotAt b).pending then s.stamp else s.stamp + 1
  record  : (t.slotAt b).record.toList = recordWords b (s.seqAt b + 1) s.sampleRate p (t.coefAt b)
  others  : ∀ c, c ≠ b → t.bandAt c = s.bandAt c ∧ t.coefAt c = s.coefAt c ∧ t.seqAt c = s.seqAt c ∧
    t.slotAt c = s.slotAt c
  rest    : t = { s with band := t.band, coef := t.coef, seq := t.seq, slot := t.slot, stamp := t.stamp,
                         cstatus := t.cstatus }

end Sys2Proof.Machine
end

