-- ==== Sys2Proof/Certificates/Slice0/Obligations.lean ====
section
/-! DEFINITION. The statements for the provers. Each formalises the rules its docstring cites. -/

open Sys2Proof Sys2Proof.Machine

/-! ## Encoding -/

/-- Decoding the words of a well-formed instruction gives it back, with every operand, and leaves the words
after it (30_encoding.md R101, R112, R119, R120). -/
def Obligations.DecodingAnEncodedInstructionGivesItBack : Prop :=
  ∀ (i : Instr) (p : Port) (rest : List Word), i.wf = true → i.port = some p →
    decode p (encode i ++ rest) = .ok (i, rest)

/-- Every accepted word or token has one meaning: encoding it gives the same words (R101, R102, R110). -/
def Obligations.EncodingADecodedInstructionGivesItsWords : Prop :=
  (∀ w i, decodeCmd w = .ok i → encode i = [w] ∧ i.port = some .cmd) ∧
  (∀ w i, decodeQcmd w = .ok i → encode i = [w] ∧ i.port = some .qcmd) ∧
  (∀ h payload i, decodeToken h payload = .ok i → encode i = h :: payload ∧ i.port = some .sin)

/-- A port accepts a word exactly when a row of the opcode table does (R102, R105, R106, R111, R113). -/
def Obligations.PortsAcceptExactlyTheOpcodeTable : Prop :=
  (∀ w, (∃ i, decodeCmd w = .ok i) ↔ ∃ r ∈ opcodeRows, r.port = .cmd ∧ r.accepts w = true) ∧
  (∀ w, (∃ i, decodeQcmd w = .ok i) ↔ ∃ r ∈ opcodeRows, r.port = .qcmd ∧ r.accepts w = true) ∧
  (∀ h payload, payload.length = payloadLen h →
    ((∃ i, decodeToken h payload = .ok i) ↔ ∃ r ∈ opcodeRows, r.port = .sin ∧ r.accepts h = true))

/-- Words written out from the encodings of 95_test_vectors.md section 5. -/
def Obligations.WrittenOutWordsDecode : Prop :=
  decodeCmd 0x0000000000000103 = .ok (.setGain 1) ∧
  decodeCmd 0x0000000000060204 = .ok (.setType 2 .notch) ∧
  decodeQcmd 0x0000000000070020 = .ok (.design .peaking) ∧
  decodeQcmd 0x0000000000030223 = .ok (.responseBand 2 3) ∧
  decodeToken 0x0000000000090042 [] = .ok (.channels 9) ∧
  decodeToken 0x0000000000010041 [0] = .error .reservedBits

/-- A token's length is fixed by its header's OP: FRAME 1 + COUNT words, RATE 2, any other 1 (R112). -/
def Obligations.TokenLengthIsFixedByTheHeader : Prop :=
  ∀ h : Word,
    (opField h = 0x40 → 1 + payloadLen h = 1 + (countField h).toNat) ∧
    (opField h = 0x41 → 1 + payloadLen h = 2) ∧
    (opField h ≠ 0x40 → opField h ≠ 0x41 → 1 + payloadLen h = 1)

/-! ## Steps -/

/-- A step runs the instruction its port's words decode to, after taking those words (42_control.md R230,
43_analyzer.md R260, 41_filter.md R211); agent E's turn runs DELIVER. -/
def Obligations.StepRunsTheDecodedInstruction : Prop :=
  (∀ (s : State) (w : Word) (i : Instr) rest more, s.turns = .bus :: rest → s.bus = .write 0x00100 8 w :: more →
    decodeCmd w = .ok i → step s = exec i { s with turns := rest, bus := more }) ∧
  (∀ (s : State) (w : Word) (i : Instr) rest more, s.turns = .bus :: rest → s.bus = .write 0x00200 8 w :: more →
    decodeQcmd w = .ok i → step s = exec i { s with turns := rest, bus := more }) ∧
  (∀ (s : State) (i : Instr) rest ws, s.turns = .processing :: rest → decode .sin s.sin = .ok (i, ws) →
    s.streamReady i = true → step s = exec i { s with turns := rest, sin := ws }) ∧
  (∀ (s : State) rest, s.turns = .delivery :: rest → step s = exec .deliver { s with turns := rest })

/-- An illegal command changes its port's status register and nothing else (30_encoding.md R102, R107). -/
def Obligations.IllegalCommandChangesOnlyItsStatus : Prop :=
  (∀ (s : State) (w : Word) e rest more, s.turns = .bus :: rest → s.bus = .write 0x00100 8 w :: more →
    decodeCmd w = .error e →
    step s = .next { s with turns := rest, bus := more, cstatus := ⟨.badCommand, w.extractLsb' 0 8⟩ }) ∧
  (∀ (s : State) (w : Word) e rest more, s.turns = .bus :: rest → s.bus = .write 0x00200 8 w :: more →
    decodeQcmd w = .error e →
    step s = .next { s with turns := rest, bus := more, qstatus := ⟨.badCommand, w.extractLsb' 0 8⟩ })

/-- A token with an unknown OP, or with a known OP and a reserved bit set, is taken with the length of R112 and
ignored: only SSTATUS changes (30_encoding.md R113, 41_filter.md R212). That one with OP 0x40 and COUNT = C is taken
also where SOUT has no room for a frame is the model's choice (log 17). -/
def Obligations.IllegalTokenIsTakenAndIgnored : Prop :=
  ∀ (s : State) (h : Word) ws rest, s.turns = .processing :: rest → s.sin = h :: ws → payloadLen h ≤ ws.length →
    ((opField h ≠ 0x40 ∧ opField h ≠ 0x41 ∧ opField h ≠ 0x42 ∧ opField h ≠ 0x43) ∨
      h.extractLsb' 8 8 ≠ 0 ∨ h.extractLsb' 32 32 ≠ 0 ∨
      ((opField h = 0x41 ∨ opField h = 0x43) ∧ h.extractLsb' 16 16 ≠ 0)) →
    step s = .next { s with turns := rest, sin := ws.drop (payloadLen h),
                            sstatus := ⟨.badCommand, h.extractLsb' 0 8, true⟩ }

/-- P takes no step on part of a token, nor on a frame of the current channel count that SOUT cannot take
(41_filter.md R198): the turn passes and the words stay. That a turn of an agent with no enabled step passes is the
model's form of "takes no step" (60_exceptions.md R334; log 2, log 14). -/
def Obligations.StreamWaitsForWholeTokensAndRoom : Prop :=
  (∀ (s : State) rest, s.turns = .processing :: rest → s.sin = [] → step s = .next { s with turns := rest }) ∧
  (∀ (s : State) (h : Word) ws rest, s.turns = .processing :: rest → s.sin = h :: ws → ws.length < payloadLen h →
    step s = .next { s with turns := rest }) ∧
  (∀ (s : State) xs ws rest room, s.turns = .processing :: rest → decode .sin s.sin = .ok (.frame xs, ws) →
    xs.length = s.channels → s.soutRoom = some room → room < 1 + s.channels →
    step s = .next { s with turns := rest })

/-- The model refuses exactly the accesses that are not aligned 64-bit words (20_memory.md R74), and no step
faults (60_exceptions.md R320). -/
def Obligations.OnlyNarrowOrMisalignedAccessesAreRefused : Prop :=
  ∀ s : State,
    (∃ r, step s = .refused r) ↔
      ∃ rest more a, s.turns = .bus :: rest ∧ s.bus = a :: more ∧
        match a with
        | .read addr bytes => ¬(bytes = 8 ∧ addr.toNat % 8 = 0)
        | .write addr bytes _ => ¬(bytes = 8 ∧ addr.toNat % 8 = 0)

/-! ## Reset -/

/-- Every piece of state after reset of a build (10_state.md R36, R54, 70_reset_and_hazards.md R351, R352). Where NUM
gives an interior band's frequency as a NaN, its pattern is free: that clause is the model's choice (log 4). -/
def Obligations.ResetGivesEveryPieceItsValue : Prop :=
  ∀ B : Config.Build, buildValid B = true →
    ((State.resetOf B).mapRead 0x00000 = idWord B ∧
      ((idWord B).extractLsb' 0 16).toNat = B.nBands ∧ ((idWord B).extractLsb' 16 16).toNat = B.maxChannels ∧
      ((idWord B).extractLsb' 32 16).toNat = B.mQuery ∧ (idWord B).extractLsb' 48 16 = 1) ∧
    (State.resetOf B).sampleRate = B.sr0 ∧
    (State.resetOf B).channels = B.c0 ∧
    (State.resetOf B).sstatus = ⟨.ok, 0, false⟩ ∧ (State.resetOf B).cstatus = ⟨.ok, 0⟩ ∧
    (State.resetOf B).qstatus = ⟨.ok, 0⟩ ∧
    (∀ i (_ : i < 8), (State.resetOf B).carg[i] = 0 ∧ (State.resetOf B).qarg[i] = 0) ∧
    (∀ i (_ : i < 10), (State.resetOf B).qres[i] = 0) ∧
    (∀ b, b < B.nBands → ((State.resetOf B).bandAt b).q = B.q0 ∧ ((State.resetOf B).bandAt b).gain = F64.zero ∧
      (State.resetOf B).coefAt b = Coef.ident ∧ (State.resetOf B).slotAt b = ⟨false, 0, Vector.replicate 10 0⟩ ∧
      (State.resetOf B).seqAt b = 0) ∧
    (((State.resetOf B).bandAt 0).ftype = .lowshelf ∧ ((State.resetOf B).bandAt 0).freq = B.fLo) ∧
    (1 < B.nBands → ((State.resetOf B).bandAt (B.nBands - 1)).ftype = .highshelf ∧
      ((State.resetOf B).bandAt (B.nBands - 1)).freq = B.fHi) ∧
    (∀ b, 0 < b → b < B.nBands - 1 → ((State.resetOf B).bandAt b).ftype = .peaking ∧
      ((State.resetOf B).bandAt b).freq = F64.settle (.layout b)
        (F64.mul B.fLo (Num.pow B.num (F64.div B.fHi B.fLo) (F64.div (F64.ofNat b) (F64.ofNat (B.nBands - 1)))))) ∧
    (∀ b ch, (State.resetOf B).histAt b ch = ⟨0, 0, 0, 0⟩) ∧
    (∀ i, (State.resetOf B).freqAt i = 0 ∧ (State.resetOf B).magAt i = 0 ∧ (State.resetOf B).phaseAt i = 0) ∧
    (State.resetOf B).stamp = 0

/-- After reset every band's coefficients are the designer's value for it, which is IDENT (R353). -/
def Obligations.ResetCoefficientsAreTheDesigners : Prop :=
  ∀ B : Config.Build, ∀ b, b < B.nBands →
    (State.resetOf B).coefAt b = Coef.ident ∧
    design B.num ((State.resetOf B).bandAt b).ftype ((State.resetOf B).bandAt b).freq ((State.resetOf B).bandAt b).q
      ((State.resetOf B).bandAt b).gain B.sr0 = Coef.ident

/-- The reset input sets every piece of the block's state to its reset value, writes no port and takes no word
of SIN; the words at the ports stay (R350, R355). -/
def Obligations.ResetInputLeavesThePorts : Prop :=
  ∀ (s : State) rest, s.turns = .reset :: rest →
    step s = .next { State.resetOf s.build with
      sin := s.sin, sout := s.sout, soutRoom := s.soutRoom, evt := s.evt, evtRoom := s.evtRoom,
      bus := s.bus, replies := s.replies, turns := rest, draws := s.draws }

/-- A build that breaks a constraint of 00_scope.md R7 has no reset state; one that breaks none has (R357). -/
def Obligations.OnlyValidBuildsHaveAResetState : Prop :=
  ∀ B : Config.Build,
    (∃ s, instantiate B = .ok s) ↔
      (1 ≤ B.nBands ∧ B.nBands ≤ 256) ∧ (1 ≤ B.maxChannels ∧ B.maxChannels ≤ 65535) ∧
      (1 ≤ B.mQuery ∧ B.mQuery ≤ 8192) ∧ (F64.lt F64.zero B.sr0 = true ∧ F64.lt B.sr0 F64.posInf = true) ∧
      (1 ≤ B.c0 ∧ B.c0 ≤ B.maxChannels) ∧
      (F64.lt F64.zero B.fLo = true ∧ F64.le B.fLo B.fHi = true ∧ F64.lt B.fHi F64.posInf = true) ∧
      (F64.lt F64.zero B.q0 = true ∧ F64.isFinite B.q0 = true)

/-! ## Invariants -/

/-- The invariant holds after reset of every build that exists, the model's own reset state among them. -/
def Obligations.ResetStatesMeetTheInvariant : Prop :=
  (∀ B : Config.Build, buildValid B = true → (State.resetOf B).Inv) ∧ State.reset.Inv

/-- From every state that meets it, a step gives a state that meets it: SAMPLE_RATE is valid (10_state.md R40),
C is in range (R41), COEF[b] is the designer's value for BAND[b] (R45), history is flushed (41_filter.md R193)
and zero outside the live channels (R46). -/
def Obligations.EveryStepKeepsTheInvariant : Prop :=
  ∀ s t : State, s.Inv → step s = .next t → t.Inv

/-- Pending slots keep distinct stamps, all given out before, as long as STAMP does not wrap (44_notifier.md R294,
R301). -/
def Obligations.EveryStepKeepsPendingStampsUnique : Prop :=
  ∀ s t : State, s.Sized → s.StampsUnique → s.stamp.toNat + s.build.nBands < 2 ^ 64 → step s = .next t → t.StampsUnique

/-! ## Who writes what -/

/-- An instruction leaves every byte of the register map but those of the words it may write
(20_memory.md R72, R75, R86). -/
def Obligations.InstructionsLeaveOtherMapBytes : Prop :=
  ∀ (i : Instr) (s t : State) (a : Addr), exec i s = .next t → mayWriteWord i (a.toNat / 8) = false →
    t.mapByte a = s.mapByte a

/-- Every control command leaves history, rate, channel count, operands, results, buffers, the other status
registers and every port (42_control.md R230, R240). -/
def Obligations.ControlCommandsLeaveEverythingElse : Prop :=
  ∀ (i : Instr) (s t : State), i.port = some .cmd → exec i s = .next t →
    t = { s with band := t.band, coef := t.coef, seq := t.seq, slot := t.slot, stamp := t.stamp, cstatus := t.cstatus }

/-- Every query leaves the bands, history, rate, channel count, operands, FREQ_BUF, the notifier and every port
(43_analyzer.md R273). -/
def Obligations.QueriesAreReadOnly : Prop :=
  ∀ (i : Instr) (s t : State), i.port = some .qcmd → exec i s = .next t →
    t = { s with qstatus := t.qstatus, qres := t.qres, magBuf := t.magBuf, phaseBuf := t.phaseBuf, draws := t.draws }

/-- Every token leaves the parameters, operands, results, buffers, the other status registers, EVT and the bus;
only RATE changes rate, coefficients and notifier, only CHANNELS the channel count, only FRAME writes SOUT
(41_filter.md R199, R213 to R215). -/
def Obligations.TokensLeaveEverythingElse : Prop :=
  ∀ (s t : State),
    (∀ xs, exec (.frame xs) s = .next t →
      t = { s with hist := t.hist, sout := t.sout, soutRoom := t.soutRoom, sstatus := t.sstatus, draws := t.draws }) ∧
    (∀ sr, exec (.rate sr) s = .next t →
      t = { s with sampleRate := t.sampleRate, coef := t.coef, hist := t.hist, seq := t.seq, slot := t.slot,
                   stamp := t.stamp, sstatus := t.sstatus }) ∧
    (∀ n, exec (.channels n) s = .next t →
      t = { s with channelCount := t.channelCount, hist := t.hist, sstatus := t.sstatus }) ∧
    (exec .discontinuity s = .next t → t = { s with hist := t.hist, sstatus := t.sstatus })

/-- Only a step of P, or reset, changes history (20_memory.md R86, 41_filter.md R206). -/
def Obligations.OnlyProcessingAndResetChangeHistory : Prop :=
  ∀ s t : State, step s = .next t → t.hist ≠ s.hist →
    ∃ rest, s.turns = .processing :: rest ∨ s.turns = .reset :: rest

/-- Nothing is written to SOUT but whole frames, by P: a header with the channel count and as many samples
(30_encoding.md R115). -/
def Obligations.SoutCarriesOnlyWholeFrames : Prop :=
  ∀ s t : State, s.channels ≤ s.hist.length → step s = .next t →
    t.sout = s.sout ∨
    ∃ os, t.sout = s.sout ++ wordN 0x40 0 s.channelCount :: os ∧ os.length = s.channels ∧
      ∃ rest, s.turns = .processing :: rest

/-- Nothing is written to EVT but whole records, by E: a producing step never writes EVT (44_notifier.md R295). -/
def Obligations.EvtCarriesOnlyDeliveredRecords : Prop :=
  ∀ s t : State, step s = .next t →
    t.evt = s.evt ∨
    ∃ b rest, (s.slotAt b).pending = true ∧ t.evt = s.evt ++ (s.slotAt b).record.toList ∧
      s.turns = .delivery :: rest

/-- STICKY is cleared only by a host write of 1 to bit 16 of SSTATUS or by reset (10_state.md R39, 60_exceptions.md R324). -/
def Obligations.StickyIsClearedOnlyByHostOrReset : Prop :=
  ∀ s t : State, step s = .next t → s.sstatus.sticky = true → t.sstatus.sticky = false →
    (∃ rest, s.turns = .reset :: rest) ∨
    (∃ rest more w, s.turns = .bus :: rest ∧ s.bus = .write 0x00018 8 w :: more ∧ w.getLsbD 16 = true)

/-- A token reports OK, BAD_VALUE or CONFIG_FAIL with its opcode, and sets STICKY exactly when it is not OK or
was set (41_filter.md R210); a FRAME that waits for SOUT is not taken. -/
def Obligations.TokensReportTheirStatus : Prop :=
  ∀ (i : Instr) (s t : State), i.port = some .sin → s.streamReady i = true → exec i s = .next t →
    t.sstatus.op = i.opcode ∧ (t.sstatus.code = .ok ∨ t.sstatus.code = .badValue ∨ t.sstatus.code = .configFail) ∧
    (t.sstatus.sticky = true ↔ s.sstatus.sticky = true ∨ t.sstatus.code ≠ .ok)

/-! ## Control commands -/

/-- Each setter whose band exists completes: it stores its operands, designs, emits one record and reports OK
(42_control.md R232 to R237, 30_encoding.md R116, 44_notifier.md R292). -/
def Obligations.SettersStoreDesignAndEmit : Prop :=
  ∀ (s : State) (b : BandId) (ft : FilterType), s.Sized → b.toNat < s.build.nBands →
    Answers (exec (.setFreq b) s) (fun t =>
      Edited s t b.toNat { s.bandAt b.toNat with freq := s.carg[0] } ∧ t.cstatus = ⟨.ok, 0x01⟩) ∧
    Answers (exec (.setQ b) s) (fun t =>
      Edited s t b.toNat { s.bandAt b.toNat with q := s.carg[0] } ∧ t.cstatus = ⟨.ok, 0x02⟩) ∧
    Answers (exec (.setGain b) s) (fun t =>
      Edited s t b.toNat { s.bandAt b.toNat with gain := s.carg[0] } ∧ t.cstatus = ⟨.ok, 0x03⟩) ∧
    Answers (exec (.setType b ft) s) (fun t =>
      Edited s t b.toNat { s.bandAt b.toNat with ftype := ft } ∧ t.cstatus = ⟨.ok, 0x04⟩) ∧
    Answers (exec (.setParams b ft) s) (fun t =>
      Edited s t b.toNat ⟨ft, s.carg[0], s.carg[1], s.carg[2]⟩ ∧ t.cstatus = ⟨.ok, 0x05⟩)

/-- A command that names a band the build has not reports NOT_FOUND and changes nothing else (R231, 60_exceptions.md R321). -/
def Obligations.UnknownBandIsReportedNotFound : Prop :=
  ∀ (s : State) (b : BandId) (ft : FilterType) (n : Count), s.build.nBands ≤ b.toNat →
    exec (.setFreq b) s = .next { s with cstatus := ⟨.notFound, 0x01⟩ } ∧
    exec (.setQ b) s = .next { s with cstatus := ⟨.notFound, 0x02⟩ } ∧
    exec (.setGain b) s = .next { s with cstatus := ⟨.notFound, 0x03⟩ } ∧
    exec (.setType b ft) s = .next { s with cstatus := ⟨.notFound, 0x04⟩ } ∧
    exec (.setParams b ft) s = .next { s with cstatus := ⟨.notFound, 0x05⟩ } ∧
    exec (.readBand b) s = .next { s with qstatus := ⟨.notFound, 0x21⟩ } ∧
    exec (.responseBand b n) s = .next { s with qstatus := ⟨.notFound, 0x23⟩ }

/-! ## Queries -/

/-- DESIGN at a valid rate completes with the designer's tuple in QRES[0..4]; at another rate it reports
BAD_VALUE and changes nothing else (40_designer.md R166). -/
def Obligations.DesignQueryEvaluatesTheDesigner : Prop :=
  ∀ (s : State) (ft : FilterType),
    (validRate s.qarg[3] = true → Answers (exec (.design ft) s) (fun t =>
      (t.qres.toList.take 5 = [(design s.build.num ft s.qarg[0] s.qarg[1] s.qarg[2] s.qarg[3]).b0,
        (design s.build.num ft s.qarg[0] s.qarg[1] s.qarg[2] s.qarg[3]).b1,
        (design s.build.num ft s.qarg[0] s.qarg[1] s.qarg[2] s.qarg[3]).b2,
        (design s.build.num ft s.qarg[0] s.qarg[1] s.qarg[2] s.qarg[3]).a1,
        (design s.build.num ft s.qarg[0] s.qarg[1] s.qarg[2] s.qarg[3]).a2]) ∧
      t.qres.toList.drop 5 = s.qres.toList.drop 5 ∧ t = { s with qres := t.qres, qstatus := ⟨.ok, 0x20⟩ })) ∧
    (validRate s.qarg[3] = false → exec (.design ft) s = .next { s with qstatus := ⟨.badValue, 0x20⟩ })

/-- READ_BAND of a band the build has completes with its coefficients, type code, stored parameters and the
chain's rate in QRES (43_analyzer.md R269). -/
def Obligations.ReadBandReturnsTheSnapshot : Prop :=
  ∀ (s : State) (b : BandId), b.toNat < s.build.nBands → Answers (exec (.readBand b) s) (fun t =>
    t.qres.toList = [(s.coefAt b.toNat).b0, (s.coefAt b.toNat).b1, (s.coefAt b.toNat).b2, (s.coefAt b.toNat).a1,
      (s.coefAt b.toNat).a2, (s.bandAt b.toNat).ftype.code.setWidth 64, (s.bandAt b.toNat).freq,
      (s.bandAt b.toNat).q, (s.bandAt b.toNat).gain, s.sampleRate] ∧
    t = { s with qres := t.qres, qstatus := ⟨.ok, 0x21⟩ })

/-- A response query within the buffers completes: entry i < n of MAG_BUF and PHASE_BUF is the response at
FREQ_BUF[i], a NaN with a free pattern, and entries from n on keep their words (R268, R270 to R272). -/
def Obligations.ResponseQueriesFillTheBuffers : Prop :=
  ∀ (s : State) (b : BandId) (n : Count), n.toNat ≤ s.build.mQuery →
    let filled := fun (f : Word → Response) (op : BitVec 8) (t : State) =>
      (∀ i, i < n.toNat → t.magAt i = F64.settle (.magnitude s.draws i) (f (s.freqAt i)).mag ∧
        t.phaseAt i = F64.settle (.phase s.draws i) (f (s.freqAt i)).ph) ∧
      (∀ i, n.toNat ≤ i → t.magAt i = s.magAt i ∧ t.phaseAt i = s.phaseAt i) ∧
      t = { s with magBuf := t.magBuf, phaseBuf := t.phaseBuf, draws := t.draws, qstatus := ⟨.ok, op⟩ }
    (validRate s.qarg[5] = true →
      Answers (exec (.response n) s)
        (filled (resp s.build.num ⟨s.qarg[0], s.qarg[1], s.qarg[2], s.qarg[3], s.qarg[4]⟩ s.qarg[5]) 0x22)) ∧
    (b.toNat < s.build.nBands →
      Answers (exec (.responseBand b n) s) (filled (resp s.build.num (s.coefAt b.toNat) s.sampleRate) 0x23)) ∧
    Answers (exec (.responseChain n) s) (filled s.chain 0x24)

/-- A query COUNT above M_QUERY is refused with BAD_VALUE, before the rate is looked at, and an invalid rate is
refused with BAD_VALUE; nothing else changes (R268, R270 to R272, 60_exceptions.md R322). -/
def Obligations.FailedQueriesWriteOnlyTheirStatus : Prop :=
  ∀ (s : State) (b : BandId) (n : Count),
    ((s.build.mQuery < n.toNat ∨ validRate s.qarg[5] = false) →
      exec (.response n) s = .next { s with qstatus := ⟨.badValue, 0x22⟩ }) ∧
    (b.toNat < s.build.nBands → s.build.mQuery < n.toNat →
      exec (.responseBand b n) s = .next { s with qstatus := ⟨.badValue, 0x23⟩ }) ∧
    (s.build.mQuery < n.toNat → exec (.responseChain n) s = .next { s with qstatus := ⟨.badValue, 0x24⟩ })

/-- The response of a coefficient set is the magnitude and argument of num ÷ den at z = (cos w, -sin w), each
operation rounded separately (R261, 00_scope.md R15); the chain's is the product, from 1.0 and in band order, of the
enabled bands' magnitudes and the sum, from 0.0, of their phases (R266, R267, R275). -/
def Obligations.ChainResponseComposesEnabledBands : Prop :=
  ∀ (s : State) (f : Word),
    let n := s.build.num
    let part := fun (k c1 c2 re im : Word) =>
      (F64.add k (F64.sub (F64.mul (F64.add c1 (F64.mul c2 re)) re) (F64.mul (F64.mul c2 im) im)),
       F64.add (F64.mul (F64.add c1 (F64.mul c2 re)) im) (F64.mul (F64.mul c2 im) re))
    (∀ (c : Coef) (sr : Word),
      let w := F64.mul F64.PI (F64.div f (F64.div sr Const.two))
      let re := Num.cos n w
      let im := F64.neg (Num.sin n w)
      let num := part c.b0 c.b1 c.b2 re im
      let den := part F64.one c.a1 c.a2 re im
      let h := Num.cdiv n num.1 num.2 den.1 den.2
      (resp n c sr f).mag = Num.hypot n h.1 h.2 ∧ (resp n c sr f).ph = Num.atan2 n h.2 h.1) ∧
    let on := (List.range s.build.nBands).filter (fun b => F64.lt F64.zero (s.bandAt b).q)
    (s.chain f).mag = (on.map (fun b => (resp n (s.coefAt b) s.sampleRate f).mag)).foldl F64.mul F64.one ∧
    (s.chain f).ph = (on.map (fun b => (resp n (s.coefAt b) s.sampleRate f).ph)).foldl F64.add F64.zero

/-- At every frequency from 0 to half the rate the analyzer's angle is bit for bit the designer's (R262), but for
f = -0.0 and a rate whose half rounds to zero. -/
def Obligations.AnalyzerAngleIsTheDesigners : Prop :=
  ∀ f sr : Word, F64.lt F64.zero (F64.div sr Const.two) = true → validRate sr = true →
    F64.le F64.zero f = true → F64.le f (F64.div sr Const.two) = true → f ≠ F64.negZero →
    angle sr f = F64.mul F64.PI (normFreq f sr)

/-! ## Stream tokens -/

/-- A FRAME of the current channel count that SOUT can take completes: on each channel, band 0 takes the sample,
each later band the output of the one before, by the difference equation and the history shift with its flush;
the last outputs go to SOUT after the frame header (41_filter.md R191, R192, R196, R199). Where an output is a NaN its
pattern is free: that part of the value is the model's choice (log 4). -/
def Obligations.FrameFiltersEveryChannelThroughEveryBand : Prop :=
  ∀ (s : State) (xs : List Word), s.Sized → s.channels ≤ s.build.maxChannels → xs.length = s.channels →
    s.soutTakesFrame = true → Answers (exec (.frame xs) s) (fun t =>
      ∃ v : Nat → Nat → Word,
        (∀ ch, ch < s.channels → v ch 0 = xs.getD ch 0) ∧
        (∀ ch b, ch < s.channels → b < s.build.nBands →
          let c := s.coefAt b
          let h := s.histAt b ch
          v ch (b + 1) = F64.settle (.sample s.draws b ch)
            (F64.sub (F64.sub (F64.add (F64.add (F64.mul c.b0 (v ch b)) (F64.mul c.b1 h.x1)) (F64.mul c.b2 h.x2))
              (F64.mul c.a1 h.y1)) (F64.mul c.a2 h.y2)) ∧
          t.histAt b ch = ⟨flush (v ch b), h.x1, flush (v ch (b + 1)), h.y1⟩) ∧
        (∀ ch b, s.channels ≤ ch → t.histAt b ch = s.histAt b ch) ∧
        t.sout = s.sout ++ wordN 0x40 0 s.channelCount :: (List.range s.channels).map (fun ch => v ch s.build.nBands) ∧
        t.sstatus = ⟨.ok, 0x40, s.sstatus.sticky⟩)

/-- A FRAME whose COUNT is not C is refused: its words are taken, nothing else changes but SSTATUS (R200). -/
def Obligations.FrameOfAnotherCountIsRefused : Prop :=
  ∀ (s : State) (xs ws : List Word) rest, s.turns = .processing :: rest → xs.length < 65536 →
    s.sin = encode (.frame xs) ++ ws → xs.length ≠ s.channels →
    step s = .next { s with turns := rest, sin := ws, sstatus := ⟨.badValue, 0x40, true⟩ }

/-- RATE with a valid rate completes: every band is designed at the new rate, history is zero, every band emits
one record in band order; with another rate it reports BAD_VALUE and changes nothing else (R213, 44_notifier.md
R291 to R293). -/
def Obligations.RateRedesignsResetsAndEmits : Prop :=
  ∀ (s : State) (sr : Word), s.Sized →
    (validRate sr = true → Answers (exec (.rate sr) s) (fun t =>
      t.sampleRate = sr ∧
      (∀ b, b < s.build.nBands →
        t.coefAt b = design s.build.num (s.bandAt b).ftype (s.bandAt b).freq (s.bandAt b).q (s.bandAt b).gain sr ∧
        t.seqAt b = s.seqAt b + 1 ∧ (t.slotAt b).pending = true ∧
        (t.slotAt b).record.toList = recordWords b (s.seqAt b + 1) sr (s.bandAt b) (t.coefAt b) ∧
        (t.slotAt b).stamp =
          if (s.slotAt b).pending then (s.slotAt b).stamp
          else s.stamp + BitVec.ofNat 64 ((List.range b).countP (fun c => !(s.slotAt c).pending))) ∧
      t.stamp = s.stamp + BitVec.ofNat 64 ((List.range s.build.nBands).countP (fun c => !(s.slotAt c).pending)) ∧
      (∀ b ch, t.histAt b ch = ⟨0, 0, 0, 0⟩) ∧
      t.sstatus = ⟨.ok, 0x41, s.sstatus.sticky⟩)) ∧
    (validRate sr = false → exec (.rate sr) s = .next { s with sstatus := ⟨.badValue, 0x41, true⟩ })

/-- CHANNELS with a count the history file holds completes with that count and zero history; any other count
reports CONFIG_FAIL and changes nothing else (R214). -/
def Obligations.ChannelsSetsTheCountOrFails : Prop :=
  ∀ (s : State) (n : Count),
    (1 ≤ n.toNat → n.toNat ≤ s.build.maxChannels → Answers (exec (.channels n) s) (fun t =>
      t.channelCount = n ∧ (∀ b ch, t.histAt b ch = ⟨0, 0, 0, 0⟩) ∧ t.sstatus = ⟨.ok, 0x42, s.sstatus.sticky⟩)) ∧
    ((n.toNat = 0 ∨ s.build.maxChannels < n.toNat) →
      exec (.channels n) s = .next { s with sstatus := ⟨.configFail, 0x42, true⟩ })

/-- DISCONTINUITY completes with zero history (R215). -/
def Obligations.DiscontinuityZeroesHistory : Prop :=
  ∀ s : State, Answers (exec .discontinuity s) (fun t =>
    (∀ b ch, t.histAt b ch = ⟨0, 0, 0, 0⟩) ∧ t.sstatus = ⟨.ok, 0x43, s.sstatus.sticky⟩ ∧
    t = { s with hist := t.hist, sstatus := t.sstatus })

/-- A chain whose coefficients are IDENT, as after reset, passes finite nonzero samples bit for bit while its
history is finite (70_reset_and_hazards.md R353; a zero sample's sign is left to the history). -/
def Obligations.IdentityChainIsTransparent : Prop :=
  ∀ (s : State) (xs : List Word), s.Sized → s.channels ≤ s.build.maxChannels →
    (∀ b, b < s.build.nBands → s.coefAt b = Coef.ident) →
    (∀ b ch, F64.isFinite (s.histAt b ch).x1 = true ∧ F64.isFinite (s.histAt b ch).x2 = true ∧
      F64.isFinite (s.histAt b ch).y1 = true ∧ F64.isFinite (s.histAt b ch).y2 = true) →
    xs.length = s.channels → (∀ x ∈ xs, F64.isFinite x = true ∧ F64.isZero x = false) → s.soutTakesFrame = true →
    Answers (exec (.frame xs) s) (fun t => t.sout = s.sout ++ wordN 0x40 0 s.channelCount :: xs)

/-! ## Delivery -/

/-- With a slot pending and room on EVT, DELIVER completes: the pending record with the smallest stamp goes to
EVT whole and its slot is cleared, keeping record and stamp (44_notifier.md R297). -/
def Obligations.DeliverSendsTheOldestPendingRecord : Prop :=
  ∀ s : State, (∃ c, (s.slotAt c).pending = true) → s.evtTakesRecord = true →
    Answers (exec .deliver s) (fun t =>
      ∃ b, (s.slotAt b).pending = true ∧
        (∀ c, (s.slotAt c).pending = true → (s.slotAt b).stamp.toNat ≤ (s.slotAt c).stamp.toNat) ∧
        t.evt = s.evt ++ (s.slotAt b).record.toList ∧
        t.slotAt b = { s.slotAt b with pending := false } ∧
        (∀ c, c ≠ b → t.slotAt c = s.slotAt c) ∧
        t = { s with evt := t.evt, evtRoom := t.evtRoom, slot := t.slot })

/-- With no slot pending, or where EVT cannot take ten words, agent E takes no step (R297). That its turn then leaves
the state is the model's form of that (60_exceptions.md R334; log 14). -/
def Obligations.DeliverWaitsForARecordAndRoom : Prop :=
  ∀ s : State, ((∀ c, (s.slotAt c).pending = false) ∨ ∃ room, s.evtRoom = some room ∧ room < 10) →
    exec .deliver s = .next s

/-! ## The register map -/

/-- What each mapped address reads as, ID with its four fields (10_state.md R36), and 0 at every other address
(20_memory.md R72, R73). -/
def Obligations.MapReadsTheNamedRegisters : Prop :=
  ∀ s : State, s.build.mQuery ≤ 8192 →
    ((s.mapRead 0x00000).extractLsb' 0 16 = BitVec.ofNat 16 s.build.nBands ∧
      (s.mapRead 0x00000).extractLsb' 16 16 = BitVec.ofNat 16 s.build.maxChannels ∧
      (s.mapRead 0x00000).extractLsb' 32 16 = BitVec.ofNat 16 s.build.mQuery ∧
      (s.mapRead 0x00000).extractLsb' 48 16 = 1) ∧
    s.mapRead 0x00000 = idWord s.build ∧ s.mapRead 0x00008 = s.sampleRate ∧
    s.mapRead 0x00010 = s.channelCount.setWidth 64 ∧ s.mapRead 0x00018 = s.sstatus.word ∧
    s.mapRead 0x00100 = 0 ∧ s.mapRead 0x00108 = s.cstatus.word ∧
    s.mapRead 0x00200 = 0 ∧ s.mapRead 0x00208 = s.qstatus.word ∧
    (∀ i (_ : i < 8), s.mapRead (BitVec.ofNat 18 (0x00140 + 8 * i)) = s.carg[i]) ∧
    (∀ i (_ : i < 8), s.mapRead (BitVec.ofNat 18 (0x00240 + 8 * i)) = s.qarg[i]) ∧
    (∀ i (_ : i < 10), s.mapRead (BitVec.ofNat 18 (0x00280 + 8 * i)) = s.qres[i]) ∧
    (∀ i, i < s.build.mQuery → s.mapRead (BitVec.ofNat 18 (0x10000 + 8 * i)) = s.freqAt i ∧
      s.mapRead (BitVec.ofNat 18 (0x20000 + 8 * i)) = s.magAt i ∧
      s.mapRead (BitVec.ofNat 18 (0x30000 + 8 * i)) = s.phaseAt i) ∧
    (∀ a : Addr, a.toNat % 8 = 0 → mappedWord s.build.mQuery (a.toNat / 8) = false → s.mapRead a = 0)

/-- An aligned MemRead returns the word at its address and changes nothing (R71, R76). -/
def Obligations.HostReadReturnsTheWordOnly : Prop :=
  ∀ (s : State) (a : Addr) rest more, s.turns = .bus :: rest → s.bus = .read a 8 :: more → a.toNat % 8 = 0 →
    step s = .next { s with turns := rest, bus := more, replies := s.replies ++ [s.mapRead a] }

/-- An aligned MemWrite to a CARG, QARG or FREQ_BUF entry writes that entry; one to SSTATUS clears STICKY when
bit 16 is 1; one to any other register but CMD and QCMD changes nothing (R73, R76, 10_state.md R39). -/
def Obligations.HostWriteChangesOnlyItsRegister : Prop :=
  ∀ (s : State) (a : Addr) (w : Word) rest more, s.turns = .bus :: rest → s.bus = .write a 8 w :: more →
    s.build.mQuery ≤ 8192 →
    let u := { s with turns := rest, bus := more }
    (∀ i (_ : i < 8), a.toNat = 0x00140 + 8 * i → step s = .next { u with carg := s.carg.set i w }) ∧
    (∀ i (_ : i < 8), a.toNat = 0x00240 + 8 * i → step s = .next { u with qarg := s.qarg.set i w }) ∧
    (∀ i, i < s.build.mQuery → a.toNat = 0x10000 + 8 * i → step s = .next { u with freqBuf := s.freqBuf.set i w }) ∧
    (a.toNat = 0x00018 → step s =
      .next { u with sstatus := ⟨s.sstatus.code, s.sstatus.op, s.sstatus.sticky && !w.getLsbD 16⟩ }) ∧
    (a.toNat % 8 = 0 → a.toNat ≠ 0x00018 → a.toNat ≠ 0x00100 → a.toNat ≠ 0x00200 →
      (∀ i, i < 8 → a.toNat ≠ 0x00140 + 8 * i ∧ a.toNat ≠ 0x00240 + 8 * i) →
      (∀ i, i < s.build.mQuery → a.toNat ≠ 0x10000 + 8 * i) → step s = .next u)

/-- The layouts of the status registers (10_state.md R37 to R39, 60_exceptions.md R321). -/
def Obligations.StatusWordsHaveTheirLayout : Prop :=
  (∀ st : Status, st.word.extractLsb' 0 8 = st.code.number ∧ st.word.extractLsb' 8 8 = st.op ∧
    st.word.extractLsb' 16 48 = 0) ∧
  (∀ st : StreamStatus, st.word.extractLsb' 0 8 = st.code.number ∧ st.word.extractLsb' 8 8 = st.op ∧
    st.word.getLsbD 16 = st.sticky ∧ st.word.extractLsb' 17 47 = 0) ∧
  Code.ok.number = 0 ∧ Code.notFound.number = 1 ∧ Code.badCommand.number = 2 ∧ Code.badValue.number = 3 ∧
  Code.configFail.number = 4

/-! ## The designer -/

/-- A PEAKING, LOWSHELF or HIGHSHELF band with gain 0 dB or NaN is IDENT at every frequency, Q and rate
(40_designer.md R148). -/
def Obligations.GainZeroGivesIdentity : Prop :=
  ∀ (n : Config.NumSel) (ft : FilterType) (f q g sr : Word), (ft = .peaking ∨ ft = .lowshelf ∨ ft = .highshelf) →
    (F64.isNaN g = true ∨ F64.eq g F64.zero = true) → design n ft f q g sr = Coef.ident

/-- A frequency that is NaN, a zero or negative is normalized to 0, and the nf = 0 table gives the tuple unless the
gain-zero case holds (40_designer.md R142, R147, R149). The entry A·A is
kept with a free pattern where NUM makes it a NaN: that clause is the model's choice (log 4, log 10). -/
def Obligations.ZeroNormalizedFrequencyTakesTableZ0 : Prop :=
  ∀ (n : Config.NumSel) (ft : FilterType) (f q g sr : Word),
    (validRate sr = true → F64.lt F64.zero f = false → normFreq f sr = F64.zero) ∧
    (F64.eq (normFreq f sr) F64.zero = true →
      ¬((ft = .peaking ∨ ft = .lowshelf ∨ ft = .highshelf) ∧ F64.eq (clampGain g) F64.zero = true) →
      let a := gainScale n (clampGain g)
      design n ft f q g sr = Coef.gain (match ft with
        | .allpass | .highpass | .lowshelf | .notch | .peaking => F64.one
        | .bandpass | .lowpass => F64.zero
        | .highshelf => F64.settle (.designGain a) (F64.mul a a)))

/-- A frequency above half the rate is normalized to 1, and the nf = 1 table gives the tuple unless the gain-zero
case holds (R142, R147, R150). The entry A·A is
kept with a free pattern where NUM makes it a NaN: that clause is the model's choice (log 4, log 10). -/
def Obligations.UnitNormalizedFrequencyTakesTableZ1 : Prop :=
  ∀ (n : Config.NumSel) (ft : FilterType) (f q g sr : Word),
    (validRate sr = true → F64.lt (F64.div sr Const.two) f = true → F64.eq (normFreq f sr) F64.one = true) ∧
    (F64.eq (normFreq f sr) F64.one = true →
      ¬((ft = .peaking ∨ ft = .lowshelf ∨ ft = .highshelf) ∧ F64.eq (clampGain g) F64.zero = true) →
      let a := gainScale n (clampGain g)
      design n ft f q g sr = Coef.gain (match ft with
        | .allpass | .highshelf | .lowpass | .notch | .peaking => F64.one
        | .bandpass | .highpass => F64.zero
        | .lowshelf => F64.settle (.designGain a) (F64.mul a a)))

/-- Between the boundaries the Q0 table gives the tuple where Q is not positive, and where a normalized interior
value is infinite or NaN; every other interior tuple stands (R143, R147, R151, R153). The entry A·A is
kept with a free pattern where NUM makes it a NaN: that clause is the model's choice (log 4, log 10). -/
def Obligations.DisabledAndGuardedBandsTakeTableQ0 : Prop :=
  ∀ (n : Config.NumSel) (ft : FilterType) (f q g sr : Word),
    F64.lt F64.zero (normFreq f sr) = true → F64.lt (normFreq f sr) F64.one = true →
    ¬((ft = .peaking ∨ ft = .lowshelf ∨ ft = .highshelf) ∧ F64.eq (clampGain g) F64.zero = true) →
    let a := gainScale n (clampGain g)
    let q0 := Coef.gain (match ft with
      | .allpass => F64.neg F64.one
      | .bandpass | .highpass | .highshelf | .lowpass | .lowshelf => F64.one
      | .notch => F64.zero
      | .peaking => F64.settle (.designGain a) (F64.mul a a))
    (F64.lt F64.zero q = false → design n ft f q g sr = q0) ∧
    (F64.lt F64.zero q = true →
      let c := normalize (interior n ft (normFreq f sr) q a)
      (c.isFinite = false → design n ft f q g sr = q0) ∧ (c.isFinite = true → design n ft f q g sr = c))

/-- The interior formulas of the eight types at w = PI * nf, normalized by na0 (R146, R152, R154 to R161), as they
are written there. -/
def Obligations.InteriorTypesHaveTheirFormulas : Prop :=
  ∀ (n : Config.NumSel) (nf q a : Word),
    let sn := Num.sin n (F64.mul F64.PI nf)
    let cs := Num.cos n (F64.mul F64.PI nf)
    let two : Word := 0x4000000000000000
    let four : Word := 0x4010000000000000
    let half : Word := 0x3FE0000000000000
    let one := F64.one
    let negTwo := F64.neg two
    let k := F64.mul negTwo cs
    let byNa0 := fun na0 nb0 nb1 nb2 na1 na2 =>
      (⟨F64.div nb0 na0, F64.div nb1 na0, F64.div nb2 na0, F64.div na1 na0, F64.div na2 na0⟩ : Coef)
    let al := F64.div sn (F64.mul two q)
    let na0 := F64.add one al
    let na2 := F64.sub one al
    let shelfAlpha := F64.div (F64.mul sn (F64.sqrt (F64.add
      (F64.mul (F64.add a (F64.div one a)) (F64.sub (F64.div one one) one)) two))) two
    let k2 := F64.mul (F64.mul two (F64.sqrt a)) shelfAlpha
    let ap1 := F64.add a one
    let am1 := F64.sub a one
    let plus := F64.add ap1 (F64.mul am1 cs)
    let minus := F64.sub ap1 (F64.mul am1 cs)
    let gg := Num.pow n 0x4024000000000000 (F64.mul 0x3FA999999999999A q)
    let d := F64.sqrt (F64.div (F64.sub four (F64.sqrt (F64.sub 0x4030000000000000
      (F64.div 0x4030000000000000 (F64.mul gg gg))))) two)
    let snh := F64.mul (F64.mul half d) sn
    let beta := F64.div (F64.mul half (F64.sub one snh)) (F64.add one snh)
    let gamma := F64.mul (F64.add half beta) cs
    let low := F64.mul 0x3FD0000000000000 (F64.sub (F64.add half beta) gamma)
    let high := F64.mul 0x3FD0000000000000 (F64.add (F64.add half beta) gamma)
    normalize (interior n .peaking nf q a) =
      byNa0 (F64.add one (F64.div al a)) (F64.add one (F64.mul al a)) k (F64.sub one (F64.mul al a))
        k (F64.sub one (F64.div al a)) ∧
    normalize (interior n .bandpass nf q a) = byNa0 na0 al F64.zero (F64.neg al) k na2 ∧
    normalize (interior n .notch nf q a) = byNa0 na0 one k one k na2 ∧
    normalize (interior n .allpass nf q a) = byNa0 na0 na2 k na0 k na2 ∧
    normalize (interior n .lowshelf nf q a) =
      byNa0 (F64.add plus k2) (F64.mul a (F64.add minus k2))
        (F64.mul (F64.mul two a) (F64.sub am1 (F64.mul ap1 cs))) (F64.mul a (F64.sub minus k2))
        (F64.mul negTwo (F64.add am1 (F64.mul ap1 cs))) (F64.sub plus k2) ∧
    normalize (interior n .highshelf nf q a) =
      byNa0 (F64.add minus k2) (F64.mul a (F64.add plus k2))
        (F64.mul (F64.mul negTwo a) (F64.add am1 (F64.mul ap1 cs))) (F64.mul a (F64.sub plus k2))
        (F64.mul two (F64.sub am1 (F64.mul ap1 cs))) (F64.sub minus k2) ∧
    normalize (interior n .lowpass nf q a) =
      byNa0 one (F64.mul two low) (F64.mul four low) (F64.mul two low)
        (F64.neg (F64.mul two gamma)) (F64.mul two beta) ∧
    normalize (interior n .highpass nf q a) =
      byNa0 one (F64.mul two high) (F64.mul (F64.neg four) high) (F64.mul two high)
        (F64.neg (F64.mul two gamma)) (F64.mul two beta)

/-- The clamps, for every argument: nf is 1 above the Nyquist ratio, the ratio itself where it is positive, else
+0.0, so in [0, 1]; Q is kept where positive, else +0.0; gain is +0.0 for a NaN and otherwise held to [-24, 24]
(R142 to R144). -/
def Obligations.ClampedArgumentsAreInRange : Prop :=
  (∀ f sr : Word,
    let r := F64.div f (F64.div sr Const.two)
    (F64.lt F64.one r = true → normFreq f sr = F64.one) ∧
    (F64.lt F64.one r = false → F64.lt F64.zero r = true → normFreq f sr = r) ∧
    (F64.lt F64.zero r = false → normFreq f sr = F64.zero) ∧
    F64.le F64.zero (normFreq f sr) = true ∧ F64.le (normFreq f sr) F64.one = true) ∧
  (∀ q : Word, (F64.lt F64.zero q = true → clampQ q = q) ∧ (F64.lt F64.zero q = false → clampQ q = F64.zero) ∧
    F64.le F64.zero (clampQ q) = true) ∧
  (∀ g : Word, (F64.isNaN g = true → clampGain g = F64.zero) ∧
    (F64.lt Const.gainLimit g = true → clampGain g = Const.gainLimit) ∧
    (F64.lt g Const.negGainLimit = true → clampGain g = Const.negGainLimit) ∧
    (F64.le Const.negGainLimit g = true → F64.le g Const.gainLimit = true → clampGain g = g) ∧
    F64.le Const.negGainLimit (clampGain g) = true ∧ F64.le (clampGain g) Const.gainLimit = true)

/-- The designer's tuple has five finite values for every argument, where A·A is finite, which R145 says of A and
which 00_scope.md R17 lets no model assume of a NUM other than the reference (R153, R163, log 10). -/
def Obligations.DesignedCoefficientsAreFinite : Prop :=
  ∀ (n : Config.NumSel) (ft : FilterType) (f q g sr : Word), validRate sr = true →
    F64.isFinite (F64.mul (gainScale n (clampGain g)) (gainScale n (clampGain g))) = true →
    F64.isFinite (design n ft f q g sr).b0 = true ∧ F64.isFinite (design n ft f q g sr).b1 = true ∧
    F64.isFinite (design n ft f q g sr).b2 = true ∧ F64.isFinite (design n ft f q g sr).a1 = true ∧
    F64.isFinite (design n ft f q g sr).a2 = true

/-! ## Arithmetic -/

/-- For either sign, the rounded value of ±m·2^e is the nearest binary64, of two that are equally near the one whose
last bit is 0, an infinity from half a unit beyond the largest finite value on; a zero keeps its sign (R11). -/
def Obligations.RoundingIsToNearestTiesToEven : Prop :=
  ∀ (neg : Bool) (m : Nat) (e : Int),
    RoundsTo ((if neg then -1 else 1) * (m : ℝ) * 2 ^ e) (F64.round neg m e) ∧
    (m = 0 → F64.round neg m e = if neg then F64.negZero else F64.zero)

/-- On finite operands a sum, difference, product, quotient or square root is the exact result rounded to the nearest
binary64, ties to even; a zero result has the sign IEEE-754 gives it (an exactly zero sum is +0.0 unless both terms
are -0.0); a sum or product that a binary64 holds is that binary64 (R11). -/
def Obligations.ArithmeticRoundsTheExactResult : Prop :=
  ∀ a b : Word, F64.isFinite a = true → F64.isFinite b = true →
    (RoundsTo (wordValue a + wordValue b) (F64.add a b) ∧
      (wordValue a + wordValue b = 0 →
        F64.add a b = if F64.signBit a && F64.signBit b then F64.negZero else F64.zero)) ∧
    (RoundsTo (wordValue a - wordValue b) (F64.sub a b) ∧
      (wordValue a - wordValue b = 0 →
        F64.sub a b = if F64.signBit a && !F64.signBit b then F64.negZero else F64.zero)) ∧
    (RoundsTo (wordValue a * wordValue b) (F64.mul a b) ∧
      F64.signBit (F64.mul a b) = (F64.signBit a != F64.signBit b)) ∧
    (F64.isZero b = false →
      RoundsTo (wordValue a / wordValue b) (F64.div a b) ∧
      F64.signBit (F64.div a b) = (F64.signBit a != F64.signBit b)) ∧
    (F64.isZero a = true → F64.sqrt a = a) ∧
    (F64.signBit a = false → RoundsTo (Real.sqrt (wordValue a)) (F64.sqrt a)) ∧
    (∀ c, F64.isFinite c = true → F64.isZero c = false →
      (wordValue a + wordValue b = wordValue c → F64.add a b = c) ∧
      (wordValue a * wordValue b = wordValue c → F64.mul a b = c))

/-- Comparisons of finite values are those of their values, so the two zeros are equal; +inf lies above and -inf
below every other value that is no NaN, and each equals itself; with a NaN operand every comparison is false (R12). -/
def Obligations.ComparisonsAreThoseOfTheValues : Prop :=
  ∀ a b : Word,
    let negInf := F64.neg F64.posInf
    (F64.isNaN a = true ∨ F64.isNaN b = true → F64.lt a b = false ∧ F64.le a b = false ∧ F64.eq a b = false) ∧
    (F64.isFinite a = true → F64.isFinite b = true →
      (F64.lt a b = true ↔ wordValue a < wordValue b) ∧ (F64.le a b = true ↔ wordValue a ≤ wordValue b) ∧
      (F64.eq a b = true ↔ wordValue a = wordValue b)) ∧
    (F64.isNaN a = false →
      (F64.lt a F64.posInf = true ↔ a ≠ F64.posInf) ∧ F64.le a F64.posInf = true ∧
      F64.lt F64.posInf a = false ∧ (F64.le F64.posInf a = true ↔ a = F64.posInf) ∧
      (F64.lt negInf a = true ↔ a ≠ negInf) ∧ F64.le negInf a = true ∧
      F64.lt a negInf = false ∧ (F64.le a negInf = true ↔ a = negInf) ∧
      (F64.eq a F64.posInf = true ↔ a = F64.posInf) ∧ (F64.eq F64.posInf a = true ↔ a = F64.posInf) ∧
      (F64.eq a negInf = true ↔ a = negInf) ∧ (F64.eq negInf a = true ↔ a = negInf)) ∧
    (F64.isInf a = true ↔ a = F64.posInf ∨ a = negInf)

/-- The flush: subnormals and both zeros become +0.0, every other word is kept (41_filter.md R192). -/
def Obligations.FlushReplacesSubnormalsByZero : Prop :=
  ∀ v : Word, (F64.expField v = 0 → flush v = 0) ∧ (F64.expField v ≠ 0 → flush v = v)

/-- Every NUM meets R18; the case of a NaN operand of hypot with no infinite one, which the model decides (log 6), is
left out. -/
def Obligations.EveryNumMeetsItsSpecialValues : Prop :=
  ∀ (n : Config.NumSel) (x y : Word),
    F64.eq (Num.pow n Num.ten F64.zero) F64.one = true ∧
    (F64.isFinite x = true →
      (F64.le (F64.neg F64.one) (Num.sin n x) = true ∧ F64.le (Num.sin n x) F64.one = true) ∧
      (F64.le (F64.neg F64.one) (Num.cos n x) = true ∧ F64.le (Num.cos n x) F64.one = true)) ∧
    (F64.isFinite x = false → F64.isNaN (Num.sin n x) = true ∧ F64.isNaN (Num.cos n x) = true) ∧
    (F64.isNaN x = true ∨ F64.isNaN y = true → F64.isNaN (Num.atan2 n y x) = true) ∧
    (F64.isNaN x = false → F64.isNaN y = false →
      F64.le (F64.neg F64.PI) (Num.atan2 n y x) = true ∧ F64.le (Num.atan2 n y x) F64.PI = true) ∧
    (F64.isZero y = true → (F64.lt F64.zero x = true ∨ x = F64.zero) → Num.atan2 n y x = y) ∧
    (F64.isZero y = true → (F64.lt x F64.zero = true ∨ x = F64.negZero) →
      Num.atan2 n y x = if F64.signBit y then F64.neg F64.PI else F64.PI) ∧
    (F64.isInf x = true ∨ F64.isInf y = true → Num.hypot n x y = F64.posInf) ∧
    (F64.isNaN x = false → F64.isNaN y = false → F64.le F64.zero (Num.hypot n x y) = true)

/-! ## Orders of steps -/

/-- A turn does the same whatever turns follow it; an agent with an enabled step may take the next one: its turn
answers a next state in which the token, the access or the record is taken; the turn of agents with none passes, but
for an access that is no transaction (20_memory.md R81, R87, R74; that the turn passes is the model's form of "takes no
step", log 2, log 14; that an illegal token needs no room on SOUT is its choice, log 17). -/
def Obligations.AnyEnabledAgentMayMoveNext : Prop :=
  (∀ (s t : State) (turn : Turn) rest, step { s with turns := [turn] } = .next t →
    step { s with turns := turn :: rest } = .next { t with turns := rest }) ∧
  (∀ (s : State) (g : Agent) rest, s.turns = g.turn :: rest →
    (s.agentEnabled g = true → Answers (step s) (fun t =>
      t.turns = rest ∧
      match g with
      | .processing => ∃ h payload ws, splitToken s.sin = some (h, payload, ws) ∧ t.sin = ws
      | .control | .analyzer | .host => ∃ a, s.bus = a :: t.bus
      | .delivery => ∃ b, (s.slotAt b).pending = true ∧ (t.slotAt b).pending = false)) ∧
    ((∀ g' : Agent, g'.turn = g.turn → s.agentEnabled g' = false) →
      step s = .next { s with turns := rest } ∨ step s = .refused .notATransaction))

/-- In a weakly fair run whose event port keeps accepting records, every pending slot is delivered eventually: its
record goes to EVT whole and the slot is cleared (44_notifier.md R298, 20_memory.md R81), unless the reset input empties
the slots or STAMP comes within N_BANDS of its wrap first, which R301 lets a model overlook. -/
def Obligations.FairRunsDeliverEveryPendingRecord : Prop :=
  ∀ (r : Nat → State) (τ : Nat → Turn) (n b : Nat), IsRun r τ → WeaklyFair r τ →
    (r n).Sized → (r n).StampsUnique → ((r n).slotAt b).pending = true →
    (∀ k, n ≤ k → (r k).evtTakesRecord = true) →
    ∃ k, n ≤ k ∧
      ((τ k = .delivery ∧ ((r k).slotAt b).pending = true ∧
          (r (k + 1)).evt = (r k).evt ++ ((r k).slotAt b).record.toList ∧
          ((r (k + 1)).slotAt b).pending = false) ∨
        τ k = .reset ∨ 2 ^ 64 ≤ (r k).stamp.toNat + (r k).build.nBands)
end

