-- ==== Sys2Proof/Laws/Decode.lean ====
section
/-! SUPPORT. The fields of the words the encoder writes, and the words an accepted word's fields give back. -/

namespace Sys2Proof

@[simp] theorem FilterType.ofCode_code (t : FilterType) : FilterType.ofCode t.code = t := by
  cases t <;> rfl

@[simp] theorem FilterType.code_ofCode (c : BitVec 3) : (FilterType.ofCode c).code = c := by
  revert c; decide

/-- A concatenation as a number. -/
theorem toNat_append_eq {m n : Nat} (x : BitVec m) (y : BitVec n) :
    (x ++ y).toNat = x.toNat * 2 ^ n + y.toNat := by
  rw [BitVec.toNat_append, ← Nat.shiftLeft_add_eq_or_of_lt y.isLt, Nat.shiftLeft_eq]

/-- A field of a word as a number. -/
theorem toNat_field (w : Word) (lo n : Nat) : (w.extractLsb' lo n).toNat = w.toNat / 2 ^ lo % 2 ^ n := by
  simp [BitVec.extractLsb'_toNat, Nat.shiftRight_eq_div_pow]

theorem wordB_toNat (op : BitVec 8) (b : BandId) : (wordB op b).toNat = b.toNat * 256 + op.toNat := by
  have := b.isLt
  have := op.isLt
  simp only [wordB, BitVec.toNat_setWidth, toNat_append_eq]
  omega

theorem wordT_toNat (op : BitVec 8) (b : BandId) (t : FilterType) :
    (wordT op b t).toNat = (t.code.toNat * 256 + b.toNat) * 256 + op.toNat := by
  have := b.isLt
  have := op.isLt
  have := t.code.isLt
  simp only [wordT, BitVec.toNat_setWidth, toNat_append_eq]
  omega

theorem wordN_toNat (op : BitVec 8) (b : BandId) (n : Count) :
    (wordN op b n).toNat = (n.toNat * 256 + b.toNat) * 256 + op.toNat := by
  have := b.isLt
  have := op.isLt
  have := n.isLt
  simp only [wordN, BitVec.toNat_setWidth, toNat_append_eq]
  omega

theorem wordB_fields (op : BitVec 8) (b : BandId) :
    opField (wordB op b) = op ∧ bandField (wordB op b) = b ∧ (wordB op b).extractLsb' 16 48 = 0 := by
  have := b.isLt
  have := op.isLt
  refine ⟨?_, ?_, ?_⟩ <;> apply BitVec.eq_of_toNat_eq <;>
    simp only [opField, bandField, toNat_field, wordB_toNat, BitVec.ofNat_eq_ofNat, BitVec.toNat_ofNat, Nat.reducePow] <;> omega

theorem wordT_fields (op : BitVec 8) (b : BandId) (t : FilterType) :
    opField (wordT op b t) = op ∧ bandField (wordT op b t) = b ∧ typeField (wordT op b t) = t.code ∧
    (wordT op b t).extractLsb' 19 45 = 0 := by
  have := b.isLt
  have := op.isLt
  have := t.code.isLt
  refine ⟨?_, ?_, ?_, ?_⟩ <;> apply BitVec.eq_of_toNat_eq <;>
    simp only [opField, bandField, typeField, toNat_field, wordT_toNat, BitVec.ofNat_eq_ofNat, BitVec.toNat_ofNat, Nat.reducePow] <;> omega

theorem wordN_fields (op : BitVec 8) (b : BandId) (n : Count) :
    opField (wordN op b n) = op ∧ bandField (wordN op b n) = b ∧ countField (wordN op b n) = n ∧
    (wordN op b n).extractLsb' 32 32 = 0 := by
  have := b.isLt
  have := op.isLt
  have := n.isLt
  refine ⟨?_, ?_, ?_, ?_⟩ <;> apply BitVec.eq_of_toNat_eq <;>
    simp only [opField, bandField, countField, toNat_field, wordN_toNat, BitVec.ofNat_eq_ofNat, BitVec.toNat_ofNat, Nat.reducePow] <;> omega

/-- A word is its own format-B encoding when the reserved bits are 0. -/
theorem wordB_of_fields (w : Word) (h : w.extractLsb' 16 48 = 0) : wordB (opField w) (bandField w) = w := by
  have h' := congrArg BitVec.toNat h
  have := w.isLt
  apply BitVec.eq_of_toNat_eq
  simp only [toNat_field, BitVec.ofNat_eq_ofNat, BitVec.toNat_ofNat, Nat.reducePow] at h'
  simp only [wordB_toNat, opField, bandField, toNat_field, Nat.reducePow]
  omega

theorem wordT_of_fields (w : Word) (h : w.extractLsb' 19 45 = 0) :
    wordT (opField w) (bandField w) (.ofCode (typeField w)) = w := by
  have h' := congrArg BitVec.toNat h
  have := w.isLt
  apply BitVec.eq_of_toNat_eq
  simp only [toNat_field, BitVec.ofNat_eq_ofNat, BitVec.toNat_ofNat, Nat.reducePow] at h'
  simp only [wordT_toNat, opField, bandField, typeField, FilterType.code_ofCode, toNat_field, Nat.reducePow]
  omega

theorem wordN_of_fields (w : Word) (h : w.extractLsb' 32 32 = 0) :
    wordN (opField w) (bandField w) (countField w) = w := by
  have h' := congrArg BitVec.toNat h
  have := w.isLt
  apply BitVec.eq_of_toNat_eq
  simp only [toNat_field, BitVec.ofNat_eq_ofNat, BitVec.toNat_ofNat, Nat.reducePow] at h'
  simp only [wordN_toNat, opField, bandField, countField, toNat_field, Nat.reducePow]
  omega

/-- The payload of a token whose words are all present. -/
theorem splitToken_append (h : Word) (payload rest : List Word) (hl : payload.length = payloadLen h) :
    splitToken (h :: (payload ++ rest)) = some (h, payload, rest) := by
  simp [splitToken, ← hl]

end Sys2Proof
end

