-- ==== Sys2Proof/Laws/State.lean ====
section
/-! SUPPORT. The fields of a state after each of the model's updates: one equation per field, all of an update's
in one simp lemma (simp takes each part of the conjunction as a rewrite of its own). -/

namespace Sys2Proof.Machine

@[simp] theorem State.withCstatus_fields (s : State) (c : Code) (op : BitVec 8) :
    (s.withCstatus c op).sampleRate = s.sampleRate ∧
    (s.withCstatus c op).channelCount = s.channelCount ∧
    (s.withCstatus c op).sstatus = s.sstatus ∧
    (s.withCstatus c op).cstatus = ⟨c, op⟩ ∧
    (s.withCstatus c op).qstatus = s.qstatus ∧
    (s.withCstatus c op).carg = s.carg ∧
    (s.withCstatus c op).qarg = s.qarg ∧
    (s.withCstatus c op).qres = s.qres ∧
    (s.withCstatus c op).band = s.band ∧
    (s.withCstatus c op).coef = s.coef ∧
    (s.withCstatus c op).hist = s.hist ∧
    (s.withCstatus c op).freqBuf = s.freqBuf ∧
    (s.withCstatus c op).magBuf = s.magBuf ∧
    (s.withCstatus c op).phaseBuf = s.phaseBuf ∧
    (s.withCstatus c op).slot = s.slot ∧
    (s.withCstatus c op).seq = s.seq ∧
    (s.withCstatus c op).stamp = s.stamp ∧
    (s.withCstatus c op).sin = s.sin ∧
    (s.withCstatus c op).sout = s.sout ∧
    (s.withCstatus c op).soutRoom = s.soutRoom ∧
    (s.withCstatus c op).evt = s.evt ∧
    (s.withCstatus c op).evtRoom = s.evtRoom ∧
    (s.withCstatus c op).bus = s.bus ∧
    (s.withCstatus c op).replies = s.replies ∧
    (s.withCstatus c op).build = s.build ∧
    (s.withCstatus c op).turns = s.turns ∧
    (s.withCstatus c op).draws = s.draws := by
  repeat' constructor

@[simp] theorem State.withQstatus_fields (s : State) (c : Code) (op : BitVec 8) :
    (s.withQstatus c op).sampleRate = s.sampleRate ∧
    (s.withQstatus c op).channelCount = s.channelCount ∧
    (s.withQstatus c op).sstatus = s.sstatus ∧
    (s.withQstatus c op).cstatus = s.cstatus ∧
    (s.withQstatus c op).qstatus = ⟨c, op⟩ ∧
    (s.withQstatus c op).carg = s.carg ∧
    (s.withQstatus c op).qarg = s.qarg ∧
    (s.withQstatus c op).qres = s.qres ∧
    (s.withQstatus c op).band = s.band ∧
    (s.withQstatus c op).coef = s.coef ∧
    (s.withQstatus c op).hist = s.hist ∧
    (s.withQstatus c op).freqBuf = s.freqBuf ∧
    (s.withQstatus c op).magBuf = s.magBuf ∧
    (s.withQstatus c op).phaseBuf = s.phaseBuf ∧
    (s.withQstatus c op).slot = s.slot ∧
    (s.withQstatus c op).seq = s.seq ∧
    (s.withQstatus c op).stamp = s.stamp ∧
    (s.withQstatus c op).sin = s.sin ∧
    (s.withQstatus c op).sout = s.sout ∧
    (s.withQstatus c op).soutRoom = s.soutRoom ∧
    (s.withQstatus c op).evt = s.evt ∧
    (s.withQstatus c op).evtRoom = s.evtRoom ∧
    (s.withQstatus c op).bus = s.bus ∧
    (s.withQstatus c op).replies = s.replies ∧
    (s.withQstatus c op).build = s.build ∧
    (s.withQstatus c op).turns = s.turns ∧
    (s.withQstatus c op).draws = s.draws := by
  repeat' constructor

@[simp] theorem State.withSstatus_fields (s : State) (c : Code) (op : BitVec 8) :
    (s.withSstatus c op).sampleRate = s.sampleRate ∧
    (s.withSstatus c op).channelCount = s.channelCount ∧
    (s.withSstatus c op).sstatus = s.sstatus.after c op ∧
    (s.withSstatus c op).cstatus = s.cstatus ∧
    (s.withSstatus c op).qstatus = s.qstatus ∧
    (s.withSstatus c op).carg = s.carg ∧
    (s.withSstatus c op).qarg = s.qarg ∧
    (s.withSstatus c op).qres = s.qres ∧
    (s.withSstatus c op).band = s.band ∧
    (s.withSstatus c op).coef = s.coef ∧
    (s.withSstatus c op).hist = s.hist ∧
    (s.withSstatus c op).freqBuf = s.freqBuf ∧
    (s.withSstatus c op).magBuf = s.magBuf ∧
    (s.withSstatus c op).phaseBuf = s.phaseBuf ∧
    (s.withSstatus c op).slot = s.slot ∧
    (s.withSstatus c op).seq = s.seq ∧
    (s.withSstatus c op).stamp = s.stamp ∧
    (s.withSstatus c op).sin = s.sin ∧
    (s.withSstatus c op).sout = s.sout ∧
    (s.withSstatus c op).soutRoom = s.soutRoom ∧
    (s.withSstatus c op).evt = s.evt ∧
    (s.withSstatus c op).evtRoom = s.evtRoom ∧
    (s.withSstatus c op).bus = s.bus ∧
    (s.withSstatus c op).replies = s.replies ∧
    (s.withSstatus c op).build = s.build ∧
    (s.withSstatus c op).turns = s.turns ∧
    (s.withSstatus c op).draws = s.draws := by
  repeat' constructor

@[simp] theorem State.resetHist_fields (s : State) :
    (s.resetHist).sampleRate = s.sampleRate ∧
    (s.resetHist).channelCount = s.channelCount ∧
    (s.resetHist).sstatus = s.sstatus ∧
    (s.resetHist).cstatus = s.cstatus ∧
    (s.resetHist).qstatus = s.qstatus ∧
    (s.resetHist).carg = s.carg ∧
    (s.resetHist).qarg = s.qarg ∧
    (s.resetHist).qres = s.qres ∧
    (s.resetHist).band = s.band ∧
    (s.resetHist).coef = s.coef ∧
    (s.resetHist).hist = zeroHist s.build ∧
    (s.resetHist).freqBuf = s.freqBuf ∧
    (s.resetHist).magBuf = s.magBuf ∧
    (s.resetHist).phaseBuf = s.phaseBuf ∧
    (s.resetHist).slot = s.slot ∧
    (s.resetHist).seq = s.seq ∧
    (s.resetHist).stamp = s.stamp ∧
    (s.resetHist).sin = s.sin ∧
    (s.resetHist).sout = s.sout ∧
    (s.resetHist).soutRoom = s.soutRoom ∧
    (s.resetHist).evt = s.evt ∧
    (s.resetHist).evtRoom = s.evtRoom ∧
    (s.resetHist).bus = s.bus ∧
    (s.resetHist).replies = s.replies ∧
    (s.resetHist).build = s.build ∧
    (s.resetHist).turns = s.turns ∧
    (s.resetHist).draws = s.draws := by
  repeat' constructor

@[simp] theorem State.emit_fields (s : State) (b : Nat) :
    (s.emit b).sampleRate = s.sampleRate ∧
    (s.emit b).channelCount = s.channelCount ∧
    (s.emit b).sstatus = s.sstatus ∧
    (s.emit b).cstatus = s.cstatus ∧
    (s.emit b).qstatus = s.qstatus ∧
    (s.emit b).carg = s.carg ∧
    (s.emit b).qarg = s.qarg ∧
    (s.emit b).qres = s.qres ∧
    (s.emit b).band = s.band ∧
    (s.emit b).coef = s.coef ∧
    (s.emit b).hist = s.hist ∧
    (s.emit b).freqBuf = s.freqBuf ∧
    (s.emit b).magBuf = s.magBuf ∧
    (s.emit b).phaseBuf = s.phaseBuf ∧
    (s.emit b).slot = s.slot.set b ((s.slotAt b).accept s.stamp (s.recordOf b (s.seqAt b + 1))) ∧
    (s.emit b).seq = s.seq.set b (s.seqAt b + 1) ∧
    (s.emit b).stamp = (if (s.slotAt b).pending then s.stamp else s.stamp + 1) ∧
    (s.emit b).sin = s.sin ∧
    (s.emit b).sout = s.sout ∧
    (s.emit b).soutRoom = s.soutRoom ∧
    (s.emit b).evt = s.evt ∧
    (s.emit b).evtRoom = s.evtRoom ∧
    (s.emit b).bus = s.bus ∧
    (s.emit b).replies = s.replies ∧
    (s.emit b).build = s.build ∧
    (s.emit b).turns = s.turns ∧
    (s.emit b).draws = s.draws := by
  repeat' constructor

@[simp] theorem State.apply_fields (s : State) (b : Nat) (p : Params) :
    (s.apply b p).sampleRate = s.sampleRate ∧
    (s.apply b p).channelCount = s.channelCount ∧
    (s.apply b p).sstatus = s.sstatus ∧
    (s.apply b p).cstatus = s.cstatus ∧
    (s.apply b p).qstatus = s.qstatus ∧
    (s.apply b p).carg = s.carg ∧
    (s.apply b p).qarg = s.qarg ∧
    (s.apply b p).qres = s.qres ∧
    (s.apply b p).band = s.band.set b p ∧
    (s.apply b p).coef = s.coef.set b (s.designFor p s.sampleRate) ∧
    (s.apply b p).hist = s.hist ∧
    (s.apply b p).freqBuf = s.freqBuf ∧
    (s.apply b p).magBuf = s.magBuf ∧
    (s.apply b p).phaseBuf = s.phaseBuf ∧
    (s.apply b p).seq = s.seq.set b (s.seqAt b + 1) ∧
    (s.apply b p).stamp = (if (s.slotAt b).pending then s.stamp else s.stamp + 1) ∧
    (s.apply b p).sin = s.sin ∧
    (s.apply b p).sout = s.sout ∧
    (s.apply b p).soutRoom = s.soutRoom ∧
    (s.apply b p).evt = s.evt ∧
    (s.apply b p).evtRoom = s.evtRoom ∧
    (s.apply b p).bus = s.bus ∧
    (s.apply b p).replies = s.replies ∧
    (s.apply b p).build = s.build ∧
    (s.apply b p).turns = s.turns ∧
    (s.apply b p).draws = s.draws := by
  repeat' constructor

@[simp] theorem State.respond_fields (s : State) (n : Nat) (f : Word → Response) :
    (s.respond n f).sampleRate = s.sampleRate ∧
    (s.respond n f).channelCount = s.channelCount ∧
    (s.respond n f).sstatus = s.sstatus ∧
    (s.respond n f).cstatus = s.cstatus ∧
    (s.respond n f).qstatus = s.qstatus ∧
    (s.respond n f).carg = s.carg ∧
    (s.respond n f).qarg = s.qarg ∧
    (s.respond n f).qres = s.qres ∧
    (s.respond n f).band = s.band ∧
    (s.respond n f).coef = s.coef ∧
    (s.respond n f).hist = s.hist ∧
    (s.respond n f).freqBuf = s.freqBuf ∧
    (s.respond n f).magBuf = (List.range n).map (s.magEntry f) ++ s.magBuf.drop n ∧
    (s.respond n f).phaseBuf = (List.range n).map (s.phaseEntry f) ++ s.phaseBuf.drop n ∧
    (s.respond n f).slot = s.slot ∧
    (s.respond n f).seq = s.seq ∧
    (s.respond n f).stamp = s.stamp ∧
    (s.respond n f).sin = s.sin ∧
    (s.respond n f).sout = s.sout ∧
    (s.respond n f).soutRoom = s.soutRoom ∧
    (s.respond n f).evt = s.evt ∧
    (s.respond n f).evtRoom = s.evtRoom ∧
    (s.respond n f).bus = s.bus ∧
    (s.respond n f).replies = s.replies ∧
    (s.respond n f).build = s.build ∧
    (s.respond n f).turns = s.turns ∧
    (s.respond n f).draws = s.draws + 1 := by
  repeat' constructor

@[simp] theorem State.toSout_fields (s : State) (ws : List Word) :
    (s.toSout ws).sampleRate = s.sampleRate ∧
    (s.toSout ws).channelCount = s.channelCount ∧
    (s.toSout ws).sstatus = s.sstatus ∧
    (s.toSout ws).cstatus = s.cstatus ∧
    (s.toSout ws).qstatus = s.qstatus ∧
    (s.toSout ws).carg = s.carg ∧
    (s.toSout ws).qarg = s.qarg ∧
    (s.toSout ws).qres = s.qres ∧
    (s.toSout ws).band = s.band ∧
    (s.toSout ws).coef = s.coef ∧
    (s.toSout ws).hist = s.hist ∧
    (s.toSout ws).freqBuf = s.freqBuf ∧
    (s.toSout ws).magBuf = s.magBuf ∧
    (s.toSout ws).phaseBuf = s.phaseBuf ∧
    (s.toSout ws).slot = s.slot ∧
    (s.toSout ws).seq = s.seq ∧
    (s.toSout ws).stamp = s.stamp ∧
    (s.toSout ws).sin = s.sin ∧
    (s.toSout ws).sout = s.sout ++ ws ∧
    (s.toSout ws).soutRoom = roomLess s.soutRoom ws.length ∧
    (s.toSout ws).evt = s.evt ∧
    (s.toSout ws).evtRoom = s.evtRoom ∧
    (s.toSout ws).bus = s.bus ∧
    (s.toSout ws).replies = s.replies ∧
    (s.toSout ws).build = s.build ∧
    (s.toSout ws).turns = s.turns ∧
    (s.toSout ws).draws = s.draws := by
  repeat' constructor

@[simp] theorem State.delivered_fields (s : State) (b : Nat) :
    (s.delivered b).sampleRate = s.sampleRate ∧
    (s.delivered b).channelCount = s.channelCount ∧
    (s.delivered b).sstatus = s.sstatus ∧
    (s.delivered b).cstatus = s.cstatus ∧
    (s.delivered b).qstatus = s.qstatus ∧
    (s.delivered b).carg = s.carg ∧
    (s.delivered b).qarg = s.qarg ∧
    (s.delivered b).qres = s.qres ∧
    (s.delivered b).band = s.band ∧
    (s.delivered b).coef = s.coef ∧
    (s.delivered b).hist = s.hist ∧
    (s.delivered b).freqBuf = s.freqBuf ∧
    (s.delivered b).magBuf = s.magBuf ∧
    (s.delivered b).phaseBuf = s.phaseBuf ∧
    (s.delivered b).slot = s.slot.set b ⟨false, (s.slotAt b).stamp, (s.slotAt b).record⟩ ∧
    (s.delivered b).seq = s.seq ∧
    (s.delivered b).stamp = s.stamp ∧
    (s.delivered b).sin = s.sin ∧
    (s.delivered b).sout = s.sout ∧
    (s.delivered b).soutRoom = s.soutRoom ∧
    (s.delivered b).evt = s.evt ++ (s.slotAt b).record.toList ∧
    (s.delivered b).evtRoom = roomLess s.evtRoom 10 ∧
    (s.delivered b).bus = s.bus ∧
    (s.delivered b).replies = s.replies ∧
    (s.delivered b).build = s.build ∧
    (s.delivered b).turns = s.turns ∧
    (s.delivered b).draws = s.draws := by
  repeat' constructor

/-- Emitting for any list of bands changes the notifier only. -/
theorem State.emits_fields (bs : List Nat) (s : State) :
    (bs.foldl State.emit s).sampleRate = s.sampleRate ∧
    (bs.foldl State.emit s).channelCount = s.channelCount ∧
    (bs.foldl State.emit s).sstatus = s.sstatus ∧
    (bs.foldl State.emit s).cstatus = s.cstatus ∧
    (bs.foldl State.emit s).qstatus = s.qstatus ∧
    (bs.foldl State.emit s).carg = s.carg ∧
    (bs.foldl State.emit s).qarg = s.qarg ∧
    (bs.foldl State.emit s).qres = s.qres ∧
    (bs.foldl State.emit s).band = s.band ∧
    (bs.foldl State.emit s).coef = s.coef ∧
    (bs.foldl State.emit s).hist = s.hist ∧
    (bs.foldl State.emit s).freqBuf = s.freqBuf ∧
    (bs.foldl State.emit s).magBuf = s.magBuf ∧
    (bs.foldl State.emit s).phaseBuf = s.phaseBuf ∧
    (bs.foldl State.emit s).sin = s.sin ∧
    (bs.foldl State.emit s).sout = s.sout ∧
    (bs.foldl State.emit s).soutRoom = s.soutRoom ∧
    (bs.foldl State.emit s).evt = s.evt ∧
    (bs.foldl State.emit s).evtRoom = s.evtRoom ∧
    (bs.foldl State.emit s).bus = s.bus ∧
    (bs.foldl State.emit s).replies = s.replies ∧
    (bs.foldl State.emit s).build = s.build ∧
    (bs.foldl State.emit s).turns = s.turns ∧
    (bs.foldl State.emit s).draws = s.draws := by
  induction bs generalizing s with
  | nil => repeat' constructor
  | cons b bs ih => simpa using ih (s.emit b)

@[simp] theorem State.emitAll_fields (s : State) :
    s.emitAll.sampleRate = s.sampleRate ∧
    s.emitAll.channelCount = s.channelCount ∧
    s.emitAll.sstatus = s.sstatus ∧
    s.emitAll.cstatus = s.cstatus ∧
    s.emitAll.qstatus = s.qstatus ∧
    s.emitAll.carg = s.carg ∧
    s.emitAll.qarg = s.qarg ∧
    s.emitAll.qres = s.qres ∧
    s.emitAll.band = s.band ∧
    s.emitAll.coef = s.coef ∧
    s.emitAll.hist = s.hist ∧
    s.emitAll.freqBuf = s.freqBuf ∧
    s.emitAll.magBuf = s.magBuf ∧
    s.emitAll.phaseBuf = s.phaseBuf ∧
    s.emitAll.sin = s.sin ∧
    s.emitAll.sout = s.sout ∧
    s.emitAll.soutRoom = s.soutRoom ∧
    s.emitAll.evt = s.evt ∧
    s.emitAll.evtRoom = s.evtRoom ∧
    s.emitAll.bus = s.bus ∧
    s.emitAll.replies = s.replies ∧
    s.emitAll.build = s.build ∧
    s.emitAll.turns = s.turns ∧
    s.emitAll.draws = s.draws :=
  State.emits_fields _ s

@[simp] theorem State.setRate_fields (s : State) (sr : Word) :
    (s.setRate sr).sampleRate = sr ∧
    (s.setRate sr).channelCount = s.channelCount ∧
    (s.setRate sr).sstatus = s.sstatus ∧
    (s.setRate sr).cstatus = s.cstatus ∧
    (s.setRate sr).qstatus = s.qstatus ∧
    (s.setRate sr).carg = s.carg ∧
    (s.setRate sr).qarg = s.qarg ∧
    (s.setRate sr).qres = s.qres ∧
    (s.setRate sr).band = s.band ∧
    (s.setRate sr).coef = s.band.map (fun p => s.designFor p sr) ∧
    (s.setRate sr).hist = zeroHist s.build ∧
    (s.setRate sr).freqBuf = s.freqBuf ∧
    (s.setRate sr).magBuf = s.magBuf ∧
    (s.setRate sr).phaseBuf = s.phaseBuf ∧
    (s.setRate sr).sin = s.sin ∧
    (s.setRate sr).sout = s.sout ∧
    (s.setRate sr).soutRoom = s.soutRoom ∧
    (s.setRate sr).evt = s.evt ∧
    (s.setRate sr).evtRoom = s.evtRoom ∧
    (s.setRate sr).bus = s.bus ∧
    (s.setRate sr).replies = s.replies ∧
    (s.setRate sr).build = s.build ∧
    (s.setRate sr).turns = s.turns ∧
    (s.setRate sr).draws = s.draws := by
  simp [State.setRate]

end Sys2Proof.Machine
end

