-- ==== Sys2Proof/Laws/Ops.lean ====
section
/-! SUPPORT. What the shared operations do, in terms of the files' elements: one lemma per operation. -/

namespace Sys2Proof.Machine

/-! ## Files as lists -/

theorem getD_set {α : Type} (l : List α) (b c : Nat) (v d : α) (hb : b < l.length) :
    (l.set b v).getD c d = if c = b then v else l.getD c d := by
  by_cases h : c = b
  · subst h
    simp [List.getD, hb]
  · have h' : b ≠ c := fun e => h e.symm
    simp [List.getD, h, h']

theorem getD_set_ne {α : Type} (l : List α) (b c : Nat) (v d : α) (h : c ≠ b) :
    (l.set b v).getD c d = l.getD c d := by
  have h' : b ≠ c := fun e => h e.symm
  simp [List.getD, h']

/-- An element of a file past its end is the file's default. -/
theorem getD_past {α : Type} (l : List α) (c : Nat) (d : α) (h : l.length ≤ c) : l.getD c d = d := by
  simp [List.getD, h]

/-! ## Zero history -/

theorem zeroHist_at (B : Config.Build) (b ch : Nat) : ((zeroHist B).getD ch []).getD b Hist.zero = Hist.zero := by
  simp only [zeroHist, List.getD, List.getElem?_replicate]
  split <;> simp [List.getElem?_replicate]
  split <;> rfl

/-- A state whose history is the zeroed file reads +0.0 everywhere (41_filter.md R204). -/
theorem histAt_of_zeroHist {s : State} {B : Config.Build} (h : s.hist = zeroHist B) (b ch : Nat) :
    s.histAt b ch = Hist.zero := by
  simp only [State.histAt, h, zeroHist_at]

/-- A property of every history record held, and of a zero record, is one of HIST[b][ch] for every b and ch. -/
theorem State.histAt_all {s : State} (P : Hist → Prop) (zero : P Hist.zero) (h : ∀ l ∈ s.hist, ∀ r ∈ l, P r)
    (b ch : Nat) : P (s.histAt b ch) := by
  simp only [State.histAt, List.getD]
  cases hl : s.hist[ch]? with
  | none => simpa using zero
  | some l =>
    cases hr : l[b]? with
    | none => simpa [hr] using zero
    | some r => simpa [hr] using h l (List.mem_of_getElem? hl) r (List.mem_of_getElem? hr)

/-- A property of the records of the lanes from n on. -/
theorem State.histAt_above {s : State} (P : Hist → Prop) (zero : P Hist.zero) (n : Nat)
    (h : ∀ l ∈ s.hist.drop n, ∀ r ∈ l, P r) (b ch : Nat) (hc : n ≤ ch) : P (s.histAt b ch) := by
  have := State.histAt_all (s := { s with hist := s.hist.drop n }) P zero h b (ch - n)
  simpa [State.histAt, List.getD, Nat.add_sub_cancel' hc] using this

/-! ## Records -/

/-- The ten words of a record (30_encoding.md R116). -/
theorem State.recordOf_words (s : State) (b : Nat) (q : BitVec 32) :
    (s.recordOf b q).toList = recordWords b q s.sampleRate (s.bandAt b) (s.coefAt b) := rfl

/-- A slot that takes a record is pending with it, under the stamp it holds or the next one (44_notifier.md R293). -/
theorem Slot.accept_spec (sl : Slot) (st : BitVec 64) (r : Vector Word 10) :
    sl.accept st r = ⟨true, if sl.pending then sl.stamp else st, r⟩ := by
  obtain ⟨p, st', r'⟩ := sl
  cases p <;> rfl

/-- emit(b) on the band's own counter and slot (44_notifier.md R292). -/
theorem State.emit_own (s : State) (b : Nat) (hq : b < s.seq.length) (hs : b < s.slot.length) :
    (s.emit b).seqAt b = s.seqAt b + 1 ∧
    (s.emit b).slotAt b =
      ⟨true, if (s.slotAt b).pending then (s.slotAt b).stamp else s.stamp, s.recordOf b (s.seqAt b + 1)⟩ := by
  refine ⟨?_, ?_⟩
  · simp only [State.seqAt, State.emit_fields, getD_set _ _ _ _ _ hq, if_true]
  · rw [← Slot.accept_spec]
    simp only [State.slotAt, State.emit_fields, getD_set _ _ _ _ _ hs, if_true]

/-- emit(b) leaves the other bands' counters and slots. -/
theorem State.emit_other (s : State) (b c : Nat) (h : c ≠ b) :
    (s.emit b).seqAt c = s.seqAt c ∧ (s.emit b).slotAt c = s.slotAt c := by
  simp only [State.seqAt, State.slotAt, State.emit_fields, getD_set_ne _ _ _ _ _ h, and_self]

/-- emit leaves the files that hold no notifier state, read by element. -/
@[simp] theorem State.emit_reads (s : State) (b c : Nat) :
    (s.emit b).bandAt c = s.bandAt c ∧ (s.emit b).coefAt c = s.coefAt c := ⟨rfl, rfl⟩

/-- apply(b, p) edits band b alone (42_control.md R232). -/
theorem State.apply_edited (s : State) (b : Nat) (p : Params) (c : Code) (op : BitVec 8)
    (h : s.Sized) (hb : b < s.build.nBands) : Edited s ((s.apply b p).withCstatus c op) b p := by
  have hband : b < s.band.length := h.band ▸ hb
  have hcoef : b < s.coef.length := h.coef ▸ hb
  have hslot : b < s.slot.length := h.slot ▸ hb
  have hseq : b < s.seq.length := h.seq ▸ hb
  let u : State := { s with band := s.band.set b p, coef := s.coef.set b (s.designFor p s.sampleRate) }
  have hu : s.apply b p = u.emit b := rfl
  have ub : u.bandAt b = p := by simp [u, State.bandAt, List.getD, hband]
  have uc : u.coefAt b = s.designFor p s.sampleRate := by simp [u, State.coefAt, List.getD, hcoef]
  have own := u.emit_own b hseq hslot
  have tslot : ((u.emit b).withCstatus c op).slotAt b = (u.emit b).slotAt b := rfl
  constructor
  · exact ub
  · exact uc
  · exact own.1
  · rw [hu, tslot, own.2]
  · rw [hu, tslot, own.2]; rfl
  · rfl
  · rw [hu, tslot, own.2, State.recordOf_words, ub, uc]
    simp only [State.coefAt] at uc ⊢
    show recordWords b _ _ p _ = recordWords b _ _ p (u.coef.getD b Coef.ident)
    rw [uc]
    rfl
  · intro d hd
    have o := u.emit_other b d hd
    exact ⟨getD_set_ne _ _ _ _ _ hd, getD_set_ne _ _ _ _ _ hd, o.1, o.2⟩
  · rfl

/-- Emitting for bands below n, in order: what each band's counter, slot and the stamp counter become. -/
theorem State.emits_spec (s : State) (n : Nat) (hq : n ≤ s.seq.length) (hs : n ≤ s.slot.length) :
    let t := (List.range n).foldl State.emit s
    (∀ b, b < n → t.seqAt b = s.seqAt b + 1 ∧
      t.slotAt b = ⟨true,
        if (s.slotAt b).pending then (s.slotAt b).stamp
        else s.stamp + BitVec.ofNat 64 ((List.range b).countP (fun c => !(s.slotAt c).pending)),
        s.recordOf b (s.seqAt b + 1)⟩) ∧
    (∀ b, n ≤ b → t.seqAt b = s.seqAt b ∧ t.slotAt b = s.slotAt b) ∧
    t.stamp = s.stamp + BitVec.ofNat 64 ((List.range n).countP (fun c => !(s.slotAt c).pending)) ∧
    t.seq.length = s.seq.length ∧ t.slot.length = s.slot.length := by
  induction n with
  | zero => simp
  | succ n ih =>
    obtain ⟨below, above, stamp, lq, ls⟩ := ih (by omega) (by omega)
    simp only [List.range_succ, List.foldl_append, List.foldl_cons, List.foldl_nil]
    generalize ht : (List.range n).foldl State.emit s = t at below above stamp lq ls
    have keep := State.emits_fields (List.range n) s
    rw [ht] at keep
    have own := t.emit_own n (by omega) (by omega)
    have hrec : ∀ q, t.recordOf n q = s.recordOf n q := by
      intro q
      simp only [State.recordOf, State.bandAt, State.coefAt, keep]
    refine ⟨?_, ?_, ?_, ?_, ?_⟩
    · intro b hb
      by_cases e : b = n
      · subst e
        rw [own.1, own.2, hrec, (above b (le_refl b)).1, (above b (le_refl b)).2, stamp]
        exact ⟨rfl, rfl⟩
      · have o := t.emit_other n b e
        rw [o.1, o.2]
        exact below b (by omega)
    · intro b hb
      have o := t.emit_other n b (by omega)
      rw [o.1, o.2]
      exact above b (by omega)
    · rw [(State.emit_fields t n).2.2.2.2.2.2.2.2.2.2.2.2.2.2.2.2.1, (above n (le_refl n)).2, stamp]
      cases hp : (s.slotAt n).pending <;> simp [hp, List.countP_append, ← BitVec.ofNat_add, BitVec.add_assoc]
    · simp [lq]
    · simp [ls]

end Sys2Proof.Machine
end

