-- ==== Sys2Proof/Laws/Filter.lean ====
section
/-! SUPPORT. What the cascade, the lanes and the flush do (41_filter.md R191 to R197). -/

namespace Sys2Proof.Machine

/-- The values along one channel: v 0 enters, v (i + 1) leaves band b + i. -/
theorem cascade_spec (draw ch : Nat) (cs : List Coef) (hs : List Hist) (b : Nat) (x : Word)
    (hl : hs.length = cs.length) :
    ∃ v : Nat → Word, v 0 = x ∧
      (∀ i, i < cs.length →
        v (i + 1) = F64.settle (.sample draw (b + i) ch)
          (difference (cs.getD i Coef.ident) (hs.getD i Hist.zero) (v i)) ∧
        (cascade draw ch b cs hs x).2.getD i Hist.zero = (hs.getD i Hist.zero).shift (v i) (v (i + 1))) ∧
      (cascade draw ch b cs hs x).1 = v cs.length ∧
      (cascade draw ch b cs hs x).2.length = hs.length := by
  induction cs generalizing hs b x with
  | nil =>
    obtain rfl := List.length_eq_zero_iff.mp hl
    exact ⟨fun _ => x, rfl, by simp, by simp [cascade], by simp [cascade]⟩
  | cons c cs ih =>
    obtain _ | ⟨h, hs⟩ := hs
    · simp at hl
    · have hl' : hs.length = cs.length := by simpa using hl
      let y := F64.settle (.sample draw b ch) (difference c h x)
      obtain ⟨v, v0, step, out, len⟩ := ih hs (b + 1) y hl'
      refine ⟨fun i => if i = 0 then x else v (i - 1), by simp, ?_, ?_, ?_⟩
      · rintro (_ | i) hi
        · simp [cascade, biquad, v0, y]
        · have := step i (by simpa using hi)
          simp only [cascade, biquad, Nat.add_sub_cancel, List.getD_cons_succ, Nat.add_one_ne_zero, if_false]
          rw [show b + (i + 1) = b + 1 + i by omega]
          exact this
      · simp only [cascade, biquad, List.length_cons, Nat.add_one_ne_zero, if_false, Nat.add_sub_cancel]
        exact out
      · simp only [cascade, biquad, List.length_cons]
        rw [len]

/-- A property of records that every band's shift keeps holds of a channel's new history. -/
theorem cascade_keeps (P : Hist → Prop) (hP : ∀ h x y, P h → P (h.shift x y)) (draw ch : Nat) (cs : List Coef)
    (hs : List Hist) (b : Nat) (x : Word) (h : ∀ r ∈ hs, P r) : ∀ r ∈ (cascade draw ch b cs hs x).2, P r := by
  induction cs generalizing hs b x with
  | nil => simpa [cascade] using h
  | cons c cs ih =>
    obtain _ | ⟨r, hs⟩ := hs
    · simp [cascade]
    · simp only [cascade, biquad, List.mem_cons]
      rintro _ (rfl | hr)
      · exact hP _ _ _ (h r (by simp))
      · exact ih hs (b + 1) _ (fun q hq => h q (by simp [hq])) _ hr

/-- Every channel with a sample goes through the cascade, the lanes above keep their history. -/
theorem lanes_spec (draw : Nat) (cs : List Coef) (ch : Nat) (xs : List Word) (ls : List (List Hist))
    (hl : xs.length ≤ ls.length) :
    (lanes draw cs ch xs ls).1.length = xs.length ∧
    (lanes draw cs ch xs ls).2.length = ls.length ∧
    (∀ i, i < xs.length →
      (lanes draw cs ch xs ls).1.getD i 0 = (cascade draw (ch + i) 0 cs (ls.getD i []) (xs.getD i 0)).1 ∧
      (lanes draw cs ch xs ls).2.getD i [] = (cascade draw (ch + i) 0 cs (ls.getD i []) (xs.getD i 0)).2) ∧
    (∀ i, xs.length ≤ i → (lanes draw cs ch xs ls).2.getD i [] = ls.getD i []) := by
  induction xs generalizing ch ls with
  | nil => simp [lanes]
  | cons x xs ih =>
    obtain _ | ⟨l, ls⟩ := ls
    · simp at hl
    · obtain ⟨lo, ll, live, idle⟩ := ih (ch + 1) ls (by simpa using hl)
      refine ⟨by simp [lanes, lo], by simp [lanes, ll], ?_, ?_⟩
      · rintro (_ | i) hi
        · simp [lanes]
        · have := live i (by simpa using hi)
          rw [show ch + (i + 1) = ch + 1 + i by omega]
          simpa [lanes] using this
      · rintro (_ | i) hi
        · simp at hi
        · simpa [lanes] using idle i (by simpa using hi)

end Sys2Proof.Machine
end

