-- ==== Sys2Proof/Laws/Float.lean ====
section
/-! SUPPORT. What binary64 rounding does, part by part: the rounded shift, the significand, the packed word and its
value; which word is the nearest to a number; the whole square root; and what settling leaves. -/

namespace Sys2Proof.F64

open Sys2Proof.Machine

/-! ## Classes of words -/

/-- A finite word is no NaN. -/
theorem isNaN_of_isFinite {w : Word} (h : isFinite w = true) : isNaN w = false := by
  simp only [isFinite, isNaN, bne_iff_ne, ne_eq, Bool.and_eq_false_iff, beq_eq_false_iff_ne] at *
  exact .inl h

/-- Settling leaves a word that is no NaN. -/
theorem settle_of_not_nan {site : Config.NanSite} {w : Word} (h : isNaN w = false) : settle site w = w := by
  simp [settle, h]

/-! ## Packed words -/

theorem pack_toNat (neg : Bool) (low : Nat) (h : low < 9223372036854775808) :
    (pack neg low).toNat = (if neg then 9223372036854775808 else 0) + low := by
  simp only [pack, BitVec.toNat_ofNat]
  split <;> omega

/-- The fields of a packed word. -/
theorem pack_fields (neg : Bool) (low : Nat) (h : low < 9223372036854775808) :
    signBit (pack neg low) = neg ∧ expField (pack neg low) = low / 4503599627370496 ∧
    fracField (pack neg low) = low % 4503599627370496 := by
  refine ⟨?_, ?_, ?_⟩
  · simp only [signBit, BitVec.getLsbD, pack_toNat neg low h, Nat.testBit, Nat.shiftRight_eq_div_pow]
    cases neg <;> norm_num <;> omega
  · simp only [expField, pack_toNat neg low h, Nat.shiftRight_eq_div_pow]
    norm_num
    split <;> omega
  · simp only [fracField, pack_toNat neg low h]
    split <;> omega

/-- The magnitude of a packed finite word: s units of 2^(u - 1074), for a significand s below 2^53 or equal to it
and a unit u that is 0 where s is below 2^52. -/
theorem mag_pack (neg : Bool) (s u : Nat) (hs : s ≤ 2 ^ 53) (hu : u = 0 ∨ 2 ^ 52 ≤ s)
    (hf : s + u * 2 ^ 52 < 0x7FF0000000000000) : mag (pack neg (s + u * 2 ^ 52)) = s * 2 ^ u := by
  have hlow : s + u * 2 ^ 52 < 9223372036854775808 := by omega
  obtain ⟨-, he, hr⟩ := pack_fields neg _ hlow
  rw [mag, he, hr, Nat.shiftLeft_eq]
  rcases Nat.lt_or_ge s (2 ^ 52) with h | h
  · have : u = 0 := by omega
    subst this
    rw [if_pos (by omega)]
    omega
  · have hq : (s + u * 2 ^ 52) / 4503599627370496 ≠ 0 := by omega
    rw [if_neg hq]
    rcases Nat.lt_or_ge s (2 ^ 53) with h' | h'
    · have e1 : (s + u * 2 ^ 52) / 4503599627370496 - 1 = u := by omega
      have e2 : (s + u * 2 ^ 52) % 4503599627370496 + 4503599627370496 = s := by omega
      rw [e1, e2]
    · have e0 : s = 2 ^ 53 := by omega
      subst e0
      have e1 : (2 ^ 53 + u * 2 ^ 52) / 4503599627370496 - 1 = u + 1 := by omega
      have e2 : (2 ^ 53 + u * 2 ^ 52) % 4503599627370496 + 4503599627370496 = 2 ^ 52 := by omega
      rw [e1, e2]
      ring

/-! ## The rounded shift -/

/-- m / 2^k to the nearest, ties to even: at most half a unit away, and even where it is half a unit away. -/
theorem roundShift_spec (m k : Nat) (hk : 1 ≤ k) :
    let d : Int := roundShift m k
    2 * |(m : Int) - d * 2 ^ k| ≤ 2 ^ k ∧ (2 * |(m : Int) - d * 2 ^ k| = 2 ^ k → d % 2 = 0) := by
  obtain ⟨j, rfl⟩ : ∃ j, k = j + 1 := ⟨k - 1, by omega⟩
  have hdiv := Nat.div_add_mod m (2 ^ (j + 1))
  have hlt := Nat.mod_lt m (show 0 < 2 ^ (j + 1) by positivity)
  have hp : (2 : Nat) ^ (j + 1) = 2 * 2 ^ j := by ring
  simp only [roundShift, Nat.shiftRight_eq_div_pow, Nat.add_sub_cancel]
  generalize m / 2 ^ (j + 1) = d at *
  generalize m % 2 ^ (j + 1) = r at *
  generalize hP : (2 : Nat) ^ j = P at *
  have hP' : ((2 : Int) ^ (j + 1)) = 2 * (P : Int) := by rw [← hP]; push_cast; ring
  have hm : (m : Int) = 2 * P * d + r := by
    have : m = 2 * P * d + r := by rw [← hdiv, hp]
    exact_mod_cast this
  have hr : (r : Int) < 2 * P := by rw [hp] at hlt; exact_mod_cast hlt
  rw [hP', hm]
  split
  · rename_i hc
    have e : (2 * (P : Int) * d + r - ((d + 1 : Nat) : Int) * (2 * P)) = (r : Int) - 2 * P := by push_cast; ring
    rw [e, abs_of_nonpos (by omega)]
    refine ⟨by omega, fun h => ?_⟩
    push_cast
    omega
  · rename_i hc
    have e : (2 * (P : Int) * d + r - (d : Int) * (2 * P)) = (r : Int) := by ring
    rw [e, abs_of_nonneg (by omega)]
    refine ⟨by omega, fun h => ?_⟩
    omega

/-- A rounded shift stays between the powers of two around the shifted number. -/
theorem roundShift_bounds (m k a b : Nat) (ha : a * 2 ^ k ≤ m) (hb : m ≤ b * 2 ^ k) :
    a ≤ roundShift m k ∧ roundShift m k ≤ b := by
  have hp : 0 < 2 ^ k := by positivity
  have h1 : a ≤ m / 2 ^ k := (Nat.le_div_iff_mul_le hp).mpr ha
  have h2 : m / 2 ^ k ≤ b := Nat.div_le_of_le_mul (by rw [Nat.mul_comm]; exact hb)
  simp only [roundShift, Nat.shiftRight_eq_div_pow]
  split
  · rename_i hc
    refine ⟨by omega, ?_⟩
    rcases Nat.lt_or_ge (m / 2 ^ k) b with h | h
    · exact h
    · exfalso
      have e : m / 2 ^ k = b := by omega
      have hd := Nat.div_add_mod m (2 ^ k)
      rw [e, Nat.mul_comm] at hd
      have : m % 2 ^ k = 0 := by omega
      have half : 0 < 2 ^ (k - 1) := by positivity
      omega
  · exact ⟨h1, h2⟩

/-! ## The significand (00_scope.md R11) -/

/-- The significand has at most 53 bits, or is 2^53, and has 53 bits unless the unit is the smallest one. -/
theorem significand_bounds (m : Nat) (e : Int) (hm : m ≠ 0) :
    significand m e ≤ 2 ^ 53 ∧ (ulpExp m e = -1074 ∨ 2 ^ 52 ≤ significand m e) ∧ -1074 ≤ ulpExp m e := by
  have lo := Nat.log2_self_le hm
  have hi := Nat.lt_log2_self (n := m)
  have hu : ulpExp m e = max (e + (Nat.log2 m : Int) - 52) (-1074) := rfl
  generalize Nat.log2 m = L at *
  simp only [significand]
  generalize ulpExp m e = u at *
  have hge : e + (L : Int) - 52 ≤ u ∧ -1074 ≤ u ∧ (u = e + (L : Int) - 52 ∨ u = -1074) := by omega
  refine ⟨?_, ?_, hge.2.1⟩
  · split
    · rename_i h
      obtain ⟨d, hd⟩ : ∃ d : Nat, (e - u).toNat = d ∧ (d : Int) = e - u := ⟨_, rfl, by omega⟩
      rw [hd.1, Nat.shiftLeft_eq]
      have : L + 1 + d ≤ 53 := by omega
      calc m * 2 ^ d ≤ 2 ^ (L + 1) * 2 ^ d := Nat.mul_le_mul_right _ hi.le
        _ = 2 ^ (L + 1 + d) := by rw [← Nat.pow_add]
        _ ≤ 2 ^ 53 := Nat.pow_le_pow_right (by omega) this
    · rename_i h
      obtain ⟨d, hd⟩ : ∃ d : Nat, (u - e).toNat = d ∧ (d : Int) = u - e := ⟨_, rfl, by omega⟩
      rw [hd.1]
      refine (roundShift_bounds m d 0 (2 ^ 53) (by omega) ?_).2
      have : L + 1 ≤ 53 + d := by omega
      calc m ≤ 2 ^ (L + 1) := hi.le
        _ ≤ 2 ^ (53 + d) := Nat.pow_le_pow_right (by omega) this
        _ = 2 ^ 53 * 2 ^ d := by rw [← Nat.pow_add]
  · rcases hge.2.2 with hu' | hu'
    swap
    · exact .inl hu'
    right
    split
    · rename_i h
      obtain ⟨d, hd⟩ : ∃ d : Nat, (e - u).toNat = d ∧ (d : Int) = e - u := ⟨_, rfl, by omega⟩
      rw [hd.1, Nat.shiftLeft_eq]
      have : 52 = L + d := by omega
      calc 2 ^ 52 = 2 ^ L * 2 ^ d := by rw [← Nat.pow_add, ← this]
        _ ≤ m * 2 ^ d := Nat.mul_le_mul_right _ lo
    · rename_i h
      obtain ⟨d, hd⟩ : ∃ d : Nat, (u - e).toNat = d ∧ (d : Int) = u - e := ⟨_, rfl, by omega⟩
      rw [hd.1]
      refine (roundShift_bounds m d (2 ^ 52) (m + 1) ?_ ?_).1
      · have : 52 + d = L := by omega
        calc 2 ^ 52 * 2 ^ d = 2 ^ L := by rw [← Nat.pow_add, this]
          _ ≤ m := lo
      · have : 1 ≤ 2 ^ d := Nat.one_le_two_pow
        nlinarith

/-- A rounded number is no NaN, and where it is finite its value is the significand in units in the last place. -/
theorem round_spec (neg : Bool) (m : Nat) (e : Int) :
    isNaN (round neg m e) = false ∧
    (m ≠ 0 → isFinite (round neg m e) = true →
      signBit (round neg m e) = neg ∧ mag (round neg m e) = significand m e * 2 ^ (ulpExp m e + 1074).toNat) ∧
    (m = 0 → round neg m e = pack neg 0) := by
  have key : ∀ k, k ≤ 0x7FF0000000000000 → isNaN (pack neg k) = false := by
    intro k hk
    obtain ⟨-, he, hf⟩ := pack_fields neg k (by omega)
    simp only [isNaN, he, hf, Bool.and_eq_false_iff, beq_eq_false_iff_ne, bne_eq_false_iff_eq]
    omega
  refine ⟨?_, ?_, fun h => by simp [round, h]⟩
  · unfold round
    split
    · exact key 0 (by omega)
    · exact key _ (by omega)
  · intro hm hfin
    obtain ⟨b1, b2, b3⟩ := significand_bounds m e hm
    simp only [round, if_neg hm, Nat.shiftLeft_eq] at hfin ⊢
    generalize hu : (ulpExp m e + 1074).toNat = u at *
    generalize significand m e = s at *
    have hlt : s + u * 2 ^ 52 < 0x7FF0000000000000 := by
      by_contra hge
      rw [Nat.min_eq_right (by omega)] at hfin
      obtain ⟨-, he, -⟩ := pack_fields neg 0x7FF0000000000000 (by omega)
      simp [isFinite, he] at hfin
    rw [Nat.min_eq_left (by omega)]
    refine ⟨(pack_fields neg _ (by omega)).1, ?_⟩
    refine mag_pack neg s u b1 ?_ hlt
    rcases b2 with h | h
    · exact .inl (by omega)
    · exact .inr h

/-! ## The nearest binary64 (00_scope.md R11) -/

/-- A finite value is a whole number of at most 53 bits of some unit. -/
theorem wordValue_grid (w : Word) :
    ∃ (a k : Int), |a| < 2 ^ 53 ∧ -1074 ≤ k ∧ (wordValue w : ℝ) = a * 2 ^ k := by
  have hf : fracField w < 2 ^ 52 := Nat.mod_lt _ (by norm_num)
  have hm : ∃ (m n : Nat), m < 2 ^ 53 ∧ mag w = m * 2 ^ n := by
    unfold mag
    split
    · exact ⟨fracField w, 0, by omega, by omega⟩
    · exact ⟨fracField w + 4503599627370496, expField w - 1, by omega, Nat.shiftLeft_eq _ _⟩
  obtain ⟨m, n, hlt, hmag⟩ := hm
  refine ⟨if signBit w then -(m : Int) else m, (n : Int) - 1074, ?_, by omega, ?_⟩
  · split <;> simp <;> exact_mod_cast hlt
  · have e : (2 : ℝ) ^ ((n : Int) - 1074) = 2 ^ n / 2 ^ 1074 := by
      rw [zpow_sub₀ (by norm_num)]; rfl
    rw [e]
    simp only [wordValue, value, hmag]
    generalize 1074 = z
    split <;> push_cast <;> ring

/-- x within half a unit of s units, of a unit that is the smallest one or in which x has 53 bits, is no nearer to
any other value of at most 53 bits, and as near only where it is half a unit away. -/
theorem nearest_of_grid (x : ℝ) (s a u k : Int) (near : |x - s * 2 ^ u| ≤ 2 ^ u / 2)
    (norm : u = -1074 ∨ (2 : ℝ) ^ 52 * 2 ^ u ≤ x) (ha : |a| < 2 ^ 53) (hk : -1074 ≤ k) :
    |x - s * 2 ^ u| ≤ |x - a * 2 ^ k| ∧
    (|x - a * 2 ^ k| = |x - s * 2 ^ u| → (a : ℝ) * 2 ^ k ≠ s * 2 ^ u → |x - s * 2 ^ u| = 2 ^ u / 2) := by
  have hu : (0 : ℝ) < 2 ^ u := by positivity
  have grid : ∀ b : Int, |x - s * 2 ^ u| ≤ |x - b * 2 ^ u| ∧
      (|x - b * 2 ^ u| = |x - s * 2 ^ u| → (b : ℝ) * 2 ^ u ≠ s * 2 ^ u → |x - s * 2 ^ u| = 2 ^ u / 2) := by
    intro b
    rcases eq_or_ne b s with e | e
    · subst e; exact ⟨le_refl _, fun _ h => absurd rfl h⟩
    · have one : (1 : ℝ) ≤ |(b : ℝ) - s| := by
        have : 1 ≤ |b - s| := Int.one_le_abs (sub_ne_zero.mpr e)
        exact_mod_cast this
      have tri : |(b : ℝ) - s| * 2 ^ u ≤ |x - b * 2 ^ u| + |x - s * 2 ^ u| := by
        have := abs_sub_abs_le_abs_sub ((b : ℝ) * 2 ^ u - x) 0
        calc |(b : ℝ) - s| * 2 ^ u = |((b : ℝ) - s) * 2 ^ u| := by rw [abs_mul, abs_of_pos hu]
          _ = |(x - s * 2 ^ u) - (x - b * 2 ^ u)| := by congr 1; ring
          _ ≤ |x - s * 2 ^ u| + |x - b * 2 ^ u| := abs_sub _ _
          _ = _ := add_comm _ _
      have : (2 : ℝ) ^ u ≤ |(b : ℝ) - s| * 2 ^ u := le_mul_of_one_le_left hu.le one
      exact ⟨by linarith, fun h _ => by linarith⟩
  rcases le_or_gt u k with h | h
  · have e : (a : ℝ) * 2 ^ k = ((a * 2 ^ (k - u).toNat : Int) : ℝ) * 2 ^ u := by
      have : (2 : ℝ) ^ k = 2 ^ (k - u).toNat * 2 ^ u := by
        rw [← zpow_natCast, ← zpow_add₀ (by norm_num)]
        congr 1; omega
      rw [this]; push_cast; ring
    rw [e]
    exact grid _
  · have hx := norm.resolve_left (by omega)
    have small : (a : ℝ) * 2 ^ k < 2 ^ 52 * 2 ^ u := by
      have h1 : (a : ℝ) < 2 ^ 53 := by exact_mod_cast lt_of_le_of_lt (le_abs_self a) ha
      have h2 : (2 : ℝ) ^ k ≤ 2 ^ (u - 1) := zpow_le_zpow_right₀ (by norm_num) (by omega)
      have h3 : (2 : ℝ) ^ u = 2 ^ (u - 1) * 2 := by rw [← zpow_add_one₀ (by norm_num)]; congr 1; omega
      have hk' : (0 : ℝ) < 2 ^ k := by positivity
      calc (a : ℝ) * 2 ^ k < 2 ^ 53 * 2 ^ k := mul_lt_mul_of_pos_right h1 hk'
        _ ≤ 2 ^ 53 * 2 ^ (u - 1) := by nlinarith
        _ = 2 ^ 52 * 2 ^ u := by rw [h3]; ring
    have g := (grid (2 ^ 52)).1
    rw [show ((2 ^ 52 : Int) : ℝ) = 2 ^ 52 by norm_cast] at g
    generalize (2 : ℝ) ^ 52 * 2 ^ u = top at *
    generalize (a : ℝ) * 2 ^ k = v at *
    rw [abs_of_nonneg (by linarith : 0 ≤ x - top)] at g
    rw [abs_of_nonneg (by linarith : 0 ≤ x - v)]
    exact ⟨by linarith, fun h _ => by linarith⟩

/-- The word of a significand and a unit is x rounded, where x lies within half a unit, an odd significand nearer
than that. -/
theorem roundsTo_pack (neg : Bool) (s : Nat) (u : Int) (x : ℝ) (near : |x - s * 2 ^ u| ≤ 2 ^ u / 2)
    (tie : |x - s * 2 ^ u| = 2 ^ u / 2 → s % 2 = 0) (hs : s ≤ 2 ^ 53) (hu : -1074 ≤ u)
    (norm : u = -1074 ∨ (2 ^ 52 ≤ s ∧ (2 : ℝ) ^ 52 * 2 ^ u ≤ x)) (hx : 0 ≤ x) :
    RoundsTo (if neg then -x else x) (pack neg (min (s + ((u + 1074).toNat <<< 52)) 0x7FF0000000000000)) := by
  obtain ⟨n, hn⟩ : ∃ n : Nat, u = (n : Int) - 1074 := ⟨(u + 1074).toNat, by omega⟩
  subst hn
  rw [show ((n : Int) - 1074 + 1074).toNat = n by omega, Nat.shiftLeft_eq]
  have pu : (0 : ℝ) < 2 ^ ((n : Int) - 1074) := by positivity
  have habs : |if neg then -x else x| = x := by cases neg <;> simp [abs_of_nonneg hx]
  have p970 : (0 : ℝ) < 2 ^ 970 := by positivity
  have c971 : (2 : ℝ) ^ 971 = 2 * 2 ^ 970 := pow_succ' _ _
  have c1024 : (2 : ℝ) ^ 1024 = 2 ^ 54 * 2 ^ 970 := by rw [← pow_add]
  have low : ∀ k : Nat, k ≤ n → (2 : ℝ) ^ ((k : Int) - 1074) ≤ 2 ^ ((n : Int) - 1074) :=
    fun k h => zpow_le_zpow_right₀ (by norm_num) (by omega)
  have high : ∀ k : Nat, n ≤ k → (2 : ℝ) ^ ((n : Int) - 1074) ≤ 2 ^ ((k : Int) - 1074) :=
    fun k h => zpow_le_zpow_right₀ (by norm_num) (by omega)
  have unit : ∀ k j : Nat, k = j + 1074 → (2 : ℝ) ^ ((k : Int) - 1074) = 2 ^ j := by
    intro k j h
    rw [show (k : Int) - 1074 = j by omega, zpow_natCast]
  have e44 := unit 2044 970 rfl
  have e45 := unit 2045 971 rfl
  have e46 := unit 2046 972 rfl
  have c972 : (2 : ℝ) ^ 972 = 4 * 2 ^ 970 := by rw [show (4 : ℝ) = 2 ^ 2 by norm_num, ← pow_add]
  rw [c971] at e45
  rw [c972] at e46
  have near1 := (abs_le.mp near).1
  have near2 := (abs_le.mp near).2
  have s53 : (s : ℝ) ≤ 2 ^ 53 := by exact_mod_cast hs
  -- the word is finite exactly below half a unit above the largest finite value
  have range : (0x7FF0000000000000 ≤ s + n * 2 ^ 52 → (2 : ℝ) ^ 1024 - 2 ^ 970 ≤ x) ∧
      ((2 : ℝ) ^ 1024 - 2 ^ 970 ≤ x → 0x7FF0000000000000 ≤ s + n * 2 ^ 52) := by
    rw [c1024]
    clear c971 c972 c1024 unit
    generalize (2 : ℝ) ^ 970 = P at *
    refine ⟨fun h => ?_, fun h => ?_⟩
    · rcases Nat.lt_or_ge n 2046 with h' | h'
      · have h1 : n = 2045 := by omega
        have h2 : (s : ℝ) = 2 ^ 53 := by
          have : s = 2 ^ 53 := by omega
          rw [this]; push_cast; ring
        subst h1
        rw [e45, h2] at near1
        linarith
      · have := (norm.resolve_left (by omega)).2
        have l := low 2046 h'
        rw [e46] at l
        clear e44 e45 e46 low high
        generalize (2 : ℝ) ^ ((n : Int) - 1074) = q at *
        linarith
    · by_contra hlt
      rcases Nat.lt_or_ge n 2045 with h' | h'
      · have l := high 2044 (by omega)
        rw [e44] at l
        clear e44 e45 e46 low high
        generalize (2 : ℝ) ^ ((n : Int) - 1074) = q at *
        have : (s : ℝ) * q ≤ 2 ^ 53 * P := mul_le_mul s53 l pu.le (by norm_num)
        linarith
      · have n45 : n = 2045 := by rcases norm with h1 | ⟨h1, -⟩ <;> omega
        subst n45
        rw [e45] at near1 near2 near tie
        clear e44 e45 e46 low high pu norm
        have hs1 : (s : ℝ) ≤ 2 ^ 53 - 1 := by
          have : (s : ℝ) + 1 ≤ 2 ^ 53 := by exact_mod_cast (by omega : s + 1 ≤ 2 ^ 53)
          linarith
        have sP : (s : ℝ) * (2 * P) ≤ (2 ^ 53 - 1) * (2 * P) := mul_le_mul_of_nonneg_right hs1 (by linarith)
        have sE : (s : ℝ) * (2 * P) = (2 ^ 53 - 1) * (2 * P) := by linarith
        have s1 : (s : ℝ) = 2 ^ 53 - 1 := mul_right_cancel₀ (by linarith : (2 * P) ≠ 0) sE
        have s2 : s + 1 = 2 ^ 53 := by
          have : (s : ℝ) + 1 = 2 ^ 53 := by linarith
          exact_mod_cast this
        have t := tie (by rw [sE, abs_of_nonneg (by linarith)]; linarith)
        omega
  have sgn : signBit (pack neg (min (s + n * 2 ^ 52) 0x7FF0000000000000)) = neg :=
    (pack_fields neg _ (by omega)).1
  have val : s + n * 2 ^ 52 < 0x7FF0000000000000 →
      isFinite (pack neg (s + n * 2 ^ 52)) = true ∧
      (wordValue (pack neg (s + n * 2 ^ 52)) : ℝ) =
        if neg then -((s : ℝ) * 2 ^ ((n : Int) - 1074)) else s * 2 ^ ((n : Int) - 1074) := by
    intro h
    have f := pack_fields neg (s + n * 2 ^ 52) (by omega)
    refine ⟨?_, ?_⟩
    · simp only [isFinite, f.2.1, bne_iff_ne, ne_eq]; omega
    · have m := mag_pack neg s n hs (by rcases norm with h1 | ⟨h1, -⟩
                                        · left; omega
                                        · exact .inr h1) h
      have e : (2 : ℝ) ^ ((n : Int) - 1074) = 2 ^ n / 2 ^ 1074 := by
        rw [zpow_sub₀ (by norm_num)]; rfl
      simp only [wordValue, value, f.1, m, e]
      generalize 1074 = z
      cases neg <;> simp <;> ring
  have flip : ∀ v : ℝ, |(if neg then -x else x) - (if neg then -v else v)| = |x - v| := by
    intro v; cases neg <;> simp
    rw [← abs_neg]; congr 1; ring
  have near' : ∀ w : Word, isFinite w = true → s + n * 2 ^ 52 < 0x7FF0000000000000 →
      |(if neg then -x else x) - wordValue (pack neg (s + n * 2 ^ 52))| ≤ |(if neg then -x else x) - wordValue w| ∧
      (|(if neg then -x else x) - wordValue w| = |(if neg then -x else x) - wordValue (pack neg (s + n * 2 ^ 52))| →
        (wordValue w : ℝ) ≠ wordValue (pack neg (s + n * 2 ^ 52)) → s % 2 = 0) := by
    intro w hw h
    obtain ⟨a, k, ha, hk, hv⟩ := wordValue_grid w
    have g := nearest_of_grid x s (if neg then -a else a) ((n : Int) - 1074) k (by push_cast; exact near)
      (norm.imp id And.right) (by cases neg <;> simpa using ha) hk
    push_cast at g
    have hv' : (wordValue w : ℝ) =
        if neg then -((if neg then -(a : ℝ) else a) * 2 ^ k) else (if neg then -(a : ℝ) else a) * 2 ^ k := by
      rw [hv]; cases neg <;> simp
    rw [hv', (val h).2, flip, flip]
    refine ⟨g.1, fun he hne => tie (g.2 he fun h2 => hne ?_)⟩
    rw [h2]
  constructor
  · intro h
    rw [habs] at h
    rcases Nat.lt_or_ge (s + n * 2 ^ 52) 0x7FF0000000000000 with h1 | h1
    · rw [Nat.min_eq_left h1.le]; exact (val h1).1
    · exact absurd (range.1 h1) (not_le.mpr h)
  · intro h w hw
    rw [habs] at h
    rcases Nat.lt_or_ge (s + n * 2 ^ 52) 0x7FF0000000000000 with h1 | h1
    · rw [Nat.min_eq_left h1.le]; exact (near' w hw h1).1
    · exact absurd (range.1 h1) (not_le.mpr h)
  · intro h w hw he hne
    rw [habs] at h
    rcases Nat.lt_or_ge (s + n * 2 ^ 52) 0x7FF0000000000000 with h1 | h1
    · rw [Nat.min_eq_left h1.le] at he hne ⊢
      have t := (near' w hw h1).2 he (by exact_mod_cast hne)
      simp only [BitVec.getLsbD, pack_toNat neg _ (by omega : s + n * 2 ^ 52 < 9223372036854775808), Nat.testBit]
      split <;> simp <;> omega
    · exact absurd (range.1 h1) (not_le.mpr h)
  · have top : (2 : ℝ) ^ 1024 - 2 ^ 970 ≤ x →
        pack neg (min (s + n * 2 ^ 52) 0x7FF0000000000000) = pack neg 0x7FF0000000000000 :=
      fun h => by rw [Nat.min_eq_right (range.2 h)]
    have pos : (0 : ℝ) < 2 ^ 1024 - 2 ^ 970 := by
      have pos : ∀ P : ℝ, 0 < P → 0 < 2 ^ 54 * P - P := fun P h => by linarith
      rw [c1024]
      exact pos _ p970
    generalize (2 : ℝ) ^ 1024 - 2 ^ 970 = B at *
    refine ⟨fun h => ?_, fun h => ?_⟩
    · cases neg
      · rw [top h]; rfl
      · simp at h; linarith
    · cases neg
      · simp at h; linarith
      · rw [top (by simpa using h)]; decide
  · rw [sgn]
    cases neg <;> simpa using hx

/-- Newton's iteration from a guess that is not below the root ends at the whole root. -/
theorem isqrtFrom_spec (n fuel g : Nat) (hg : n < (g + 1) * (g + 1)) (hf : g ≤ fuel) :
    isqrtFrom n fuel g * isqrtFrom n fuel g ≤ n ∧ n < (isqrtFrom n fuel g + 1) * (isqrtFrom n fuel g + 1) := by
  induction fuel generalizing g with
  | zero =>
    obtain rfl : g = 0 := by omega
    exact ⟨by simp [isqrtFrom], hg⟩
  | succ fuel ih =>
    simp only [isqrtFrom]
    split
    · rename_i h
      have hf' : (g + n / g) / 2 ≤ fuel := Nat.le_of_lt_succ (Nat.lt_of_lt_of_le h hf)
      refine ih _ ?_ hf'
      have pos : 0 < g := Nat.lt_of_le_of_lt (Nat.zero_le _) h
      have q := Nat.lt_mul_div_succ n pos
      have am := four_mul_le_sq_add g (n / g + 1)
      generalize n / g = d at *
      have e := Nat.mul_le_mul (show g + d + 1 ≤ 2 * ((g + d) / 2 + 1) by omega)
        (show g + d + 1 ≤ 2 * ((g + d) / 2 + 1) by omega)
      generalize (g + d) / 2 = k at *
      nlinarith
    · rename_i h
      refine ⟨?_, hg⟩
      have : g ≤ n / g := by omega
      calc g * g ≤ n / g * g := Nat.mul_le_mul_right _ this
        _ ≤ n := Nat.div_mul_le_self _ _

/-- isqrt n is the whole square root of n. -/
theorem isqrt_spec (n : Nat) : isqrt n * isqrt n ≤ n ∧ n < (isqrt n + 1) * (isqrt n + 1) := by
  unfold isqrt
  split
  · subst_vars; simp
  · refine isqrtFrom_spec n _ _ ?_ (le_refl _)
    have := Nat.lt_log2_self (n := n)
    have e : 2 ^ (Nat.log2 n + 1) ≤ 2 ^ (Nat.log2 n / 2 + 1) * 2 ^ (Nat.log2 n / 2 + 1) := by
      rw [← Nat.pow_add]; exact Nat.pow_le_pow_right (by omega) (by omega)
    generalize 2 ^ (Nat.log2 n / 2 + 1) = g at *
    nlinarith

/-- A zero of either sign is 0 rounded. -/
theorem roundsTo_zero (neg : Bool) : RoundsTo 0 (pack neg 0) := by
  have := roundsTo_pack neg 0 (-1074) 0 (by simp; positivity) (by simp) (by norm_num) (by norm_num) (.inl rfl)
    (le_refl _)
  simpa using this

/-! ## Signs -/

theorem neg_sign (b : Word) : signBit (neg b) = !signBit b := by simp [signBit, neg]

/-- Unary minus keeps everything but the sign bit. -/
theorem neg_toNat (b : Word) : (neg b).toNat % 9223372036854775808 = b.toNat % 9223372036854775808 := by
  have h : (neg b).toNat = b.toNat ^^^ 2 ^ 63 := by simp [neg]
  rw [h, show 9223372036854775808 = 2 ^ 63 from rfl, Nat.xor_mod_two_pow]; simp

theorem neg_fields (b : Word) : expField (neg b) = expField b ∧ fracField (neg b) = fracField b := by
  have h := neg_toNat b
  simp only [expField, fracField, Nat.shiftRight_eq_div_pow]
  omega

theorem neg_mag (b : Word) : mag (neg b) = mag b := by simp [mag, neg_fields]

/-- Unary minus negates the value. -/
theorem value_neg (b : Word) : value (neg b) = - value b := by
  simp only [value, neg_sign, neg_mag]; cases signBit b <;> simp

theorem isFinite_neg (b : Word) : isFinite (neg b) = isFinite b := by simp [isFinite, neg_fields]

/-- A rounded number has the sign it was given. -/
theorem round_sign (neg : Bool) (m e) : signBit (round neg m e) = neg := by
  unfold round; split
  · exact (pack_fields neg _ (by omega)).1
  · exact (pack_fields neg _ (by omega)).1

end Sys2Proof.F64
end

