-- ==== Sys2Proof/Laws/Notifier.lean ====
section
/-! SUPPORT. Which slot is delivered next (44_notifier.md R294, R297). -/

namespace Sys2Proof.Machine

/-- The choice names a pending slot whose stamp is the smallest among the pending ones, and is made whenever a
slot is pending. -/
theorem oldestFrom_spec (slots : List Slot) (b : Nat) :
    (∀ d st, oldestFrom b slots = some (d, st) →
      ∃ i, d = b + i ∧ i < slots.length ∧ (slots.getD i Slot.empty).pending = true ∧
        (slots.getD i Slot.empty).stamp = st ∧
        ∀ j, (slots.getD j Slot.empty).pending = true → st.toNat ≤ (slots.getD j Slot.empty).stamp.toNat) ∧
    (oldestFrom b slots = none → ∀ j, (slots.getD j Slot.empty).pending = false) := by
  induction slots generalizing b with
  | nil => simp [oldestFrom, Slot.empty]
  | cons sl rest ih =>
    obtain ⟨ihs, ihn⟩ := ih (b + 1)
    cases hr : oldestFrom (b + 1) rest with
    | none =>
      have none_rest := ihn hr
      cases hp : sl.pending
      · refine ⟨by simp [oldestFrom, hr, hp], fun _ j => ?_⟩
        cases j with
        | zero => simpa using hp
        | succ j => simpa using none_rest j
      · refine ⟨?_, by simp [oldestFrom, hr, hp]⟩
        intro d st h
        simp only [oldestFrom, hr, hp, if_true, Option.some.injEq, Prod.mk.injEq] at h
        obtain ⟨rfl, rfl⟩ := h
        refine ⟨0, rfl, by simp, by simpa using hp, rfl, ?_⟩
        rintro (_ | j) hj
        · exact le_refl _
        · have := none_rest j
          simp only [List.getD_cons_succ] at hj
          rw [this] at hj
          exact absurd hj (by simp)
    | some p =>
      obtain ⟨d', st'⟩ := p
      obtain ⟨i, hd, hi, hpend, hst, least⟩ := ihs d' st' hr
      refine ⟨?_, by simp only [oldestFrom, hr]; split <;> simp⟩
      intro d st h
      simp only [oldestFrom, hr] at h
      split at h
      · rename_i c
        simp only [Bool.and_eq_true, decide_eq_true_eq] at c
        simp only [Option.some.injEq, Prod.mk.injEq] at h
        obtain ⟨rfl, rfl⟩ := h
        refine ⟨0, rfl, by simp, by simpa using c.1, rfl, ?_⟩
        rintro (_ | j) hj
        · exact le_refl _
        · exact le_trans c.2 (least j (by simpa using hj))
      · rename_i c
        simp only [Option.some.injEq, Prod.mk.injEq] at h
        obtain ⟨rfl, rfl⟩ := h
        refine ⟨i + 1, by omega, by simpa using hi, by simpa using hpend, by simpa using hst, ?_⟩
        rintro (_ | j) hj
        · have hp : sl.pending = true := by simpa using hj
          simp only [hp, Bool.true_and, decide_eq_true_eq, Nat.not_le] at c
          simpa using Nat.le_of_lt c
        · exact least j (by simpa using hj)

end Sys2Proof.Machine
end

