-- ==== Sys2Proof/Laws/PerInstr.lean ====
section
/-! SUPPORT. Facts about every instruction as syntax, one lemma per constructor. -/

namespace Sys2Proof.Laws.EncodedOpcode

/-- The first word of an instruction's encoding carries its opcode in bits [7:0], and is the only word but for
the payload its port's format gives it. -/
def Statement (i : Instr) : Prop := ∀ h payload, encode i = h :: payload → opField h = i.opcode

theorem setFreq (b : BandId) : Statement (.setFreq b) := by
  rintro h payload ⟨⟩; exact (wordB_fields _ _).1

theorem setQ (b : BandId) : Statement (.setQ b) := by
  rintro h payload ⟨⟩; exact (wordB_fields _ _).1

theorem setGain (b : BandId) : Statement (.setGain b) := by
  rintro h payload ⟨⟩; exact (wordB_fields _ _).1

theorem setType (b : BandId) (t : FilterType) : Statement (.setType b t) := by
  rintro h payload ⟨⟩; exact (wordT_fields _ _ _).1

theorem setParams (b : BandId) (t : FilterType) : Statement (.setParams b t) := by
  rintro h payload ⟨⟩; exact (wordT_fields _ _ _).1

theorem design (t : FilterType) : Statement (.design t) := by
  rintro h payload ⟨⟩; exact (wordT_fields _ _ _).1

theorem readBand (b : BandId) : Statement (.readBand b) := by
  rintro h payload ⟨⟩; exact (wordB_fields _ _).1

theorem response (n : Count) : Statement (.response n) := by
  rintro h payload ⟨⟩; exact (wordN_fields _ _ _).1

theorem responseBand (b : BandId) (n : Count) : Statement (.responseBand b n) := by
  rintro h payload ⟨⟩; exact (wordN_fields _ _ _).1

theorem responseChain (n : Count) : Statement (.responseChain n) := by
  rintro h payload ⟨⟩; exact (wordN_fields _ _ _).1

theorem frame (xs : List Word) : Statement (.frame xs) := by
  rintro h payload ⟨⟩; exact (wordN_fields _ _ _).1

theorem rate (s : Word) : Statement (.rate s) := by
  rintro h payload ⟨⟩; exact (wordN_fields _ _ _).1

theorem channels (n : Count) : Statement (.channels n) := by
  rintro h payload ⟨⟩; exact (wordN_fields _ _ _).1

theorem discontinuity : Statement .discontinuity := by
  rintro h payload ⟨⟩; exact (wordN_fields _ _ _).1

theorem deliver : Statement .deliver := by
  rintro h payload ⟨⟩

end Sys2Proof.Laws.EncodedOpcode
end

