-- ==== Sys2Proof/Laws/Step.lean ====
section
/-! SUPPORT. What a step can be: the register at each word of the map, the cases of a host access, what the
buffers hold after a response query, what a flush leaves, and that every instruction answers a next state. -/

namespace Sys2Proof.Machine

/-! ## The register map (20_memory.md R72) -/

/-- The register at word k of the map. -/
theorem regAt_word (m : Nat) (k : Nat) (hk : k < 32768) :
    regAt m (BitVec.ofNat 18 (8 * k)) =
      if k = 0 then .id
      else if k = 1 then .sampleRate
      else if k = 2 then .channelCount
      else if k = 3 then .sstatus
      else if k = 0x20 then .cmd
      else if k = 0x21 then .cstatus
      else if 0x28 ≤ k ∧ k < 0x30 then .carg (k - 0x28)
      else if k = 0x40 then .qcmd
      else if k = 0x41 then .qstatus
      else if 0x48 ≤ k ∧ k < 0x50 then .qarg (k - 0x48)
      else if 0x50 ≤ k ∧ k < 0x5A then .qres (k - 0x50)
      else if 0x2000 ≤ k ∧ k < 0x2000 + m then .freq (k - 0x2000)
      else if 0x4000 ≤ k ∧ k < 0x4000 + m then .mag (k - 0x4000)
      else if 0x6000 ≤ k ∧ k < 0x6000 + m then .phase (k - 0x6000)
      else .unmapped := by
  have e : (BitVec.ofNat 18 (8 * k)).toNat = 8 * k := by simp; omega
  simp only [regAt, e, inFile, decide_eq_true_eq]
  by_cases h0 : k = 0; · simp [h0]
  by_cases h1 : k = 1; · simp [h1]
  by_cases h2 : k = 2; · simp [h2]
  by_cases h3 : k = 3; · simp [h3]
  by_cases h20 : k = 0x20; · simp [h20]
  by_cases h21 : k = 0x21; · simp [h21]
  by_cases h40 : k = 0x40; · simp [h40]
  by_cases h41 : k = 0x41; · simp [h41]
  rw [if_neg (by omega), if_neg (by omega), if_neg (by omega), if_neg (by omega), if_neg (by omega),
    if_neg (by omega), if_neg h0, if_neg h1, if_neg h2, if_neg h3, if_neg h20, if_neg h21, if_neg h40,
    if_neg h41, if_neg (show ¬8 * k = 0x200 by omega), if_neg (show ¬8 * k = 0x208 by omega)]
  have file : ∀ base k0, base = 8 * k0 → (8 * k - base) / 8 = k - k0 := by omega
  simp only [file 0x140 0x28 rfl, file 0x240 0x48 rfl, file 0x280 0x50 rfl, file 0x10000 0x2000 rfl,
    file 0x20000 0x4000 rfl, file 0x30000 0x6000 rfl]
  have span : ∀ base k0 n, base = 8 * k0 → ((base ≤ 8 * k ∧ 8 * k < base + 8 * n) ↔ (k0 ≤ k ∧ k < k0 + n)) := by omega
  simp only [span 0x140 0x28 8 rfl, span 0x240 0x48 8 rfl, span 0x280 0x50 10 rfl, span 0x10000 0x2000 m rfl,
    span 0x20000 0x4000 m rfl, span 0x30000 0x6000 m rfl]

theorem ite_ne {α : Type} {c : Prop} [Decidable c] {x y z : α} (hx : x ≠ z) (hy : y ≠ z) :
    (if c then x else y) ≠ z := by
  split <;> assumption

/-- Only one address names SSTATUS. -/
theorem regAt_sstatus (m : Nat) (a : Addr) (h : regAt m a = .sstatus) : a = 0x00018 := by
  by_contra hne
  have h18 : a.toNat ≠ 0x18 := fun e => hne (BitVec.eq_of_toNat_eq e)
  revert h
  unfold regAt
  dsimp only
  rw [if_neg h18]
  repeat' apply ite_ne
  all_goals simp

/-- ID as a number: its four fields of 16 bits (10_state.md R36). -/
theorem idWord_toNat (B : Config.Build) : (idWord B).toNat =
    281474976710656 + B.mQuery % 65536 * 4294967296 + B.maxChannels % 65536 * 65536 + B.nBands % 65536 := by
  have lt : ∀ k, k % 2 ^ 16 < 2 ^ 16 := fun k => Nat.mod_lt _ (by norm_num)
  simp only [idWord, BitVec.toNat_append, BitVec.toNat_ofNat]
  rw [← Nat.shiftLeft_add_eq_or_of_lt (lt _), ← Nat.shiftLeft_add_eq_or_of_lt (lt _),
    ← Nat.shiftLeft_add_eq_or_of_lt (lt _)]
  simp only [Nat.shiftLeft_eq, show BitVec.toNat (1 : BitVec 16) = 1 from rfl]
  omega

/-! ## Host accesses (20_memory.md R71 to R74) -/

/-- What an access that answers a next state was: an aligned read, or an aligned write to CMD, to QCMD, or to
any other register. -/
theorem stepAccess_cases (a : Access) (s t : State) (h : stepAccess a s = .next t) :
    (∃ addr, a = .read addr 8 ∧ addr.toNat % 8 = 0 ∧ t = { s with replies := s.replies ++ [s.mapRead addr] }) ∨
    (∃ addr w, a = .write addr 8 w ∧ addr.toNat % 8 = 0 ∧
      ((regAt s.build.mQuery addr = .cmd ∧ stepControl w s = .next t) ∨
       (regAt s.build.mQuery addr = .qcmd ∧ stepQuery w s = .next t) ∨
       (regAt s.build.mQuery addr ≠ .cmd ∧ regAt s.build.mQuery addr ≠ .qcmd ∧
        t = s.writeReg (regAt s.build.mQuery addr) w))) := by
  cases a with
  | read addr n =>
    simp only [stepAccess] at h
    split at h
    · rename_i c
      simp only [isTransaction, Bool.and_eq_true, beq_iff_eq] at c
      cases h
      exact .inl ⟨addr, by rw [c.1], c.2, rfl⟩
    · cases h
  | write addr n w =>
    simp only [stepAccess] at h
    split at h
    · rename_i c
      simp only [isTransaction, Bool.and_eq_true, beq_iff_eq] at c
      refine .inr ⟨addr, w, by rw [c.1], c.2, ?_⟩
      split at h
      · exact .inl ⟨‹_›, h⟩
      · exact .inr (.inl ⟨‹_›, h⟩)
      · rename_i h1 h2
        cases h
        exact .inr (.inr ⟨h1, h2, rfl⟩)
    · cases h

/-- A host write to a register touches operands, FREQ_BUF and STICKY at most (20_memory.md R73). -/
theorem State.writeReg_keeps (s : State) (r : Reg) (w : Word) :
    s.writeReg r w = { s with carg := (s.writeReg r w).carg, qarg := (s.writeReg r w).qarg,
                              freqBuf := (s.writeReg r w).freqBuf, sstatus := (s.writeReg r w).sstatus } := by
  cases r <;> rfl

/-! ## Response buffers (43_analyzer.md R268) -/

/-- An entry of a list whose first n entries were replaced. -/
theorem getD_filled {α : Type} (f : Nat → α) (n i : Nat) (l : List α) (d : α) :
    ((List.range n).map f ++ l.drop n).getD i d = if i < n then f i else l.getD i d := by
  simp only [List.getD]
  split
  · rename_i h
    rw [List.getElem?_append_left (by simpa using h)]
    simp [h]
  · rw [List.getElem?_append_right (by simp; omega)]
    simp only [List.length_map, List.length_range, List.getElem?_drop]
    congr 2
    omega

/-- The buffers' entries after a response query. -/
theorem State.respond_at (s : State) (n : Nat) (f : Word → Response) (i : Nat) :
    (s.respond n f).magAt i = (if i < n then s.magEntry f i else s.magAt i) ∧
    (s.respond n f).phaseAt i = (if i < n then s.phaseEntry f i else s.phaseAt i) :=
  ⟨getD_filled _ _ _ _ _, getD_filled _ _ _ _ _⟩

/-! ## The flush (41_filter.md R192, R193) -/

theorem toNat_abs (v : Word) : (F64.abs v).toNat = v.toNat % 9223372036854775808 := by
  simp only [F64.abs, BitVec.toNat_and]
  exact Nat.and_two_pow_sub_one_eq_mod v.toNat 63

/-- A flush leaves a value that is no subnormal and no -0.0. -/
theorem flush_isFlushed (v : Word) : isFlushed (flush v) := by
  intro h
  unfold flush at h ⊢
  split
  · rfl
  · rename_i c
    rw [if_neg c] at h
    exfalso
    apply c
    have := v.isLt
    simp only [F64.expField, Nat.shiftRight_eq_div_pow] at h
    have h2 : v.toNat % 9223372036854775808 / 2 ^ 63 % 2 = 0 := by omega
    have h1 : v.toNat % 9223372036854775808 / 2 ^ 52 % 2048 = 0 := by omega
    simp only [F64.lt, F64.isNaN, F64.expField, F64.order, F64.signBit, Nat.shiftRight_eq_div_pow, toNat_abs,
      BitVec.getLsbD, Nat.testBit, flushMin, F64.fracField]
    simp
    norm_num at *
    omega

/-- A history shift keeps flushed records flushed. -/
theorem Hist.shift_flushed (h : Hist) (x y : Word) (f : h.Flushed) : (h.shift x y).Flushed :=
  ⟨flush_isFlushed x, f.x1, flush_isFlushed y, f.y1⟩

/-! ## Outcomes -/

/-- Every instruction answers a next state: the block raises no exception and refuses nothing
(60_exceptions.md R320). -/
theorem exec_answers (i : Instr) (s : State) : ∃ t, exec i s = .next t := by
  cases i <;>
    simp only [exec, execSetFreq, execSetQ, execSetGain, execSetType, execSetParams, setter, execDesign,
      execReadBand, execResponse, execResponseBand, execResponseChain, execFrame, execRate, execChannels,
      execDiscontinuity, execDeliver] <;>
    repeat' split
  all_goals exact ⟨_, rfl⟩

end Sys2Proof.Machine
end

