-- ==== Sys2Proof/Laws/Schedule.lean ====
section
/-! SUPPORT. What a turn depends on and what it leaves: no instruction reads the schedule; which slots become pending
in a turn, and under which stamps. -/

namespace Sys2Proof.Machine

/-! ## The schedule (20_memory.md R81) -/

/-- The state with another schedule. -/
def State.scheduled (s : State) (ts : List Turn) : State := { s with turns := ts }

/-- The outcome with another schedule in its next state. -/
def withTurns (ts : List Turn) : Host.Outcome State Fault Refusal → Host.Outcome State Fault Refusal
  | .next t => .next (t.scheduled ts)
  | .fault r => .fault r
  | .refused r => .refused r

theorem withTurns_ite {c : Prop} [Decidable c] (ts : List Turn) (a b : Host.Outcome State Fault Refusal) :
    withTurns ts (if c then a else b) = if c then withTurns ts a else withTurns ts b := by
  split <;> rfl

theorem emitAll_turns (s : State) (ts : List Turn) :
    (s.scheduled ts).emitAll = s.emitAll.scheduled ts := by
  simp only [State.emitAll, show (s.scheduled ts).build = s.build from rfl]
  generalize List.range s.build.nBands = l
  induction l generalizing s with
  | nil => rfl
  | cons b l ih => exact ih (s.emit b)

/-- No instruction reads or writes the schedule. -/
theorem exec_turns (i : Instr) (s : State) (ts : List Turn) :
    exec i (s.scheduled ts) = withTurns ts (exec i s) := by
  have set : ∀ (op : BitVec 8) b (e : Params → Params),
      setter op b e (s.scheduled ts) = withTurns ts (setter op b e s) := by
    intro op b e
    simp only [setter, withTurns_ite]
    rfl
  cases i with
  | setFreq b => exact set 0x01 b (fun p => { p with freq := s.carg[0] })
  | setQ b => exact set 0x02 b (fun p => { p with q := s.carg[0] })
  | setGain b => exact set 0x03 b (fun p => { p with gain := s.carg[0] })
  | setType b t => exact set 0x04 b (fun p => { p with ftype := t })
  | setParams b t => exact set 0x05 b (fun _ => ⟨t, s.carg[0], s.carg[1], s.carg[2]⟩)
  | design t => simp only [exec, execDesign, withTurns_ite]; rfl
  | readBand b => simp only [exec, execReadBand, withTurns_ite]; rfl
  | response n => simp only [exec, execResponse, withTurns_ite]; rfl
  | responseBand b n => simp only [exec, execResponseBand, withTurns_ite]; rfl
  | responseChain n => simp only [exec, execResponseChain, withTurns_ite]; rfl
  | frame xs => simp only [exec, execFrame, withTurns_ite]; rfl
  | rate sr =>
    simp only [exec, execRate, withTurns_ite]
    congr 1
    exact congrArg (fun u => Host.Outcome.next (State.withSstatus u .ok 0x41))
      (emitAll_turns (State.resetHist { s with sampleRate := sr, coef := s.band.map (fun p => s.designFor p sr) }) ts)
  | channels n => simp only [exec, execChannels, withTurns_ite]; rfl
  | discontinuity => rfl
  | deliver =>
    simp only [exec, execDeliver, show (s.scheduled ts).nextDelivery = s.nextDelivery from rfl]
    cases s.nextDelivery with
    | none => rfl
    | some b => simp only [withTurns_ite]; rfl

theorem streamReady_turns (s : State) (ts : List Turn) (i : Instr) :
    (s.scheduled ts).streamReady i = s.streamReady i := by
  cases i <;> rfl

/-- What a turn does depends on no turn after it (20_memory.md R81). -/
theorem takeTurn_turns (t : Turn) (s : State) (ts : List Turn) :
    takeTurn t (s.scheduled ts) = withTurns ts (takeTurn t s) := by
  cases t with
  | processing =>
    simp only [takeTurn, stepStream, show (s.scheduled ts).sin = s.sin from rfl]
    cases splitToken s.sin with
    | none => rfl
    | some q =>
      obtain ⟨h, p, ws⟩ := q
      simp only
      cases decodeToken h p with
      | error e => rfl
      | ok i =>
        simp only [streamReady_turns, withTurns_ite]
        rw [← exec_turns]
        rfl
  | bus =>
    simp only [takeTurn, stepBus, show (s.scheduled ts).bus = s.bus from rfl]
    cases s.bus with
    | nil => rfl
    | cons a more =>
      simp only
      cases a with
      | read a n => simp only [stepAccess, withTurns_ite]; rfl
      | write a n w =>
        simp only [stepAccess, withTurns_ite]
        congr 1
        simp only [show (s.scheduled ts).build = s.build from rfl]
        generalize regAt s.build.mQuery a = q
        cases q with
        | cmd =>
          simp only [stepControl]
          cases decodeCmd w with
          | error e => rfl
          | ok i => exact exec_turns i { s with bus := more } ts
        | qcmd =>
          simp only [stepQuery]
          cases decodeQcmd w with
          | error e => rfl
          | ok i => exact exec_turns i { s with bus := more } ts
        | _ => rfl
  | delivery => exact exec_turns .deliver s ts
  | reset => rfl
  | sinArrives w => rfl
  | hostIssues a => rfl
  | soutReady r => rfl
  | evtReady r => rfl

/-- No instruction changes the schedule, the bus or SIN. -/
theorem exec_keeps_ports (i : Instr) (s t : State) (h : exec i s = .next t) :
    t.turns = s.turns ∧ t.bus = s.bus ∧ t.sin = s.sin := by
  have em : ∀ u : State, u.emitAll.turns = u.turns ∧ u.emitAll.bus = u.bus ∧ u.emitAll.sin = u.sin := by
    intro u
    simp only [State.emitAll]
    generalize List.range u.build.nBands = l
    induction l generalizing u with
    | nil => simp
    | cons b l ih => have := ih (u.emit b); simpa using this
  cases i <;>
    simp only [exec, execSetFreq, execSetQ, execSetGain, execSetType, execSetParams, setter, execDesign,
      execReadBand, execResponse, execResponseBand, execResponseChain, execFrame, execRate, execChannels,
      execDiscontinuity, execDeliver] at h <;>
    (repeat' split at h) <;> cases h <;> first | exact ⟨rfl, rfl, rfl⟩ | exact em (State.resetHist _)

/-! ## Records produced in a turn -/

/-- From s to t, at most n records were given stamps and none was delivered: pending slots stay pending under their
stamps, and slots that became pending carry stamps given out since (44_notifier.md R292 to R294). -/
structure Produced (s t : State) (n : Nat) : Prop where
  build : t.build = s.build
  length : t.slot.length = s.slot.length
  kept : ∀ c, (s.slotAt c).pending = true → (t.slotAt c).pending = true ∧ (t.slotAt c).stamp = (s.slotAt c).stamp
  fresh : ∀ c, (s.slotAt c).pending = false → (t.slotAt c).pending = true →
    s.stamp.toNat ≤ (t.slotAt c).stamp.toNat
  stamp : s.stamp.toNat ≤ t.stamp.toNat ∧ t.stamp.toNat ≤ s.stamp.toNat + n

theorem Produced.same {s t : State} (n : Nat) (h1 : t.build = s.build) (h2 : t.slot = s.slot)
    (h3 : t.stamp = s.stamp) : Produced s t n := by
  have : ∀ c, t.slotAt c = s.slotAt c := fun c => by simp [State.slotAt, h2]
  refine ⟨h1, by rw [h2], fun c h => by rw [this]; exact ⟨h, rfl⟩, fun c h h' => ?_, by rw [h3]; omega⟩
  rw [this, h] at h'; cases h'

theorem Produced.trans {s t u : State} {n m : Nat} (h : Produced s t n) (h' : Produced t u m) :
    Produced s u (n + m) := by
  refine ⟨h'.build.trans h.build, h'.length.trans h.length, fun c hc => ?_, fun c hc hu => ?_, ?_⟩
  · have a := h.kept c hc
    have b := h'.kept c a.1
    exact ⟨b.1, b.2.trans a.2⟩
  · cases ht : (t.slotAt c).pending
    · have := h'.fresh c ht hu; have := h.stamp; omega
    · have := h.fresh c hc ht; rw [(h'.kept c ht).2]; exact this
  · have := h.stamp; have := h'.stamp; omega

theorem emit_produced (s : State) (b : Nat) (h : s.stamp.toNat + 1 < 2 ^ 64) : Produced s (s.emit b) 1 := by
  have key : ∀ c, (s.emit b).slotAt c = s.slotAt c ∨ (s.emit b).slotAt c =
      ⟨true, if (s.slotAt c).pending then (s.slotAt c).stamp else s.stamp, s.recordOf b (s.seqAt b + 1)⟩ := by
    intro c
    by_cases hc : c = b
    · subst hc
      by_cases hl : c < s.slot.length
      · right
        rw [← Slot.accept_spec]
        simp only [State.slotAt, State.emit_fields, getD_set _ _ _ _ _ hl, if_true]
      · left
        simp [State.slotAt, List.getD, hl]
    · left
      exact (s.emit_other b c hc).2
  refine ⟨rfl, by simp, fun c hc => ?_, fun c hc ht => ?_, ?_⟩
  · rcases key c with k | k <;> rw [k]
    · exact ⟨hc, rfl⟩
    · simp [hc]
  · rcases key c with k | k <;> rw [k] at ht ⊢
    · rw [hc] at ht; cases ht
    · simp [hc]
  · have : (s.emit b).stamp = (if (s.slotAt b).pending then s.stamp else s.stamp + 1) := rfl
    rw [this]
    split
    · omega
    · rw [BitVec.toNat_add]
      simp
      omega

theorem emitAll_produced (s : State) (h : s.stamp.toNat + s.build.nBands < 2 ^ 64) :
    Produced s s.emitAll s.build.nBands := by
  have : ∀ (l : List Nat) (u : State), u.stamp.toNat + l.length < 2 ^ 64 →
      Produced u (l.foldl State.emit u) l.length := by
    intro l
    induction l with
    | nil => intro u _; exact .same _ rfl rfl rfl
    | cons b l ih =>
      intro u hu
      simp only [List.length_cons, List.foldl_cons] at *
      have a := emit_produced u b (by omega)
      have := a.stamp
      have := a.trans (ih (u.emit b) (by omega))
      rwa [Nat.add_comm 1] at this
  have := this (List.range s.build.nBands) s (by simpa using h)
  simpa [State.emitAll] using this

/-- Every instruction but DELIVER produces at most N_BANDS records and delivers none. -/
theorem exec_produced (i : Instr) (s t : State) (hn : 1 ≤ s.build.nBands)
    (hs : s.stamp.toNat + s.build.nBands < 2 ^ 64) (hd : i ≠ .deliver) (h : exec i s = .next t) :
    Produced s t s.build.nBands := by
  have more : ∀ (p : State) (n m : Nat), n ≤ m → Produced s p n → Produced s p m :=
    fun p n m h q => ⟨q.build, q.length, q.kept, q.fresh, by have := q.stamp; omega⟩
  have setr : ∀ (op : BitVec 8) b (e : Params → Params), setter op b e s = .next t →
      Produced s t s.build.nBands := by
    intro op b e h
    simp only [setter] at h
    split at h <;> cases h
    · let p := e (s.bandAt b.toNat)
      let u : State := { s with
        band := s.band.set b.toNat p
        coef := s.coef.set b.toNat (s.designFor p s.sampleRate) }
      have one := emit_produced u b.toNat (by show s.stamp.toNat + 1 < _; omega)
      exact more _ 1 _ hn ⟨one.build, one.length, one.kept, one.fresh, one.stamp⟩
    · exact .same _ rfl rfl rfl
  cases i with
  | setFreq b => simp only [exec, execSetFreq] at h; exact setr _ _ _ h
  | setQ b => simp only [exec, execSetQ] at h; exact setr _ _ _ h
  | setGain b => simp only [exec, execSetGain] at h; exact setr _ _ _ h
  | setType b t => simp only [exec, execSetType] at h; exact setr _ _ _ h
  | setParams b t => simp only [exec, execSetParams] at h; exact setr _ _ _ h
  | deliver => exact absurd rfl hd
  | rate sr =>
    simp only [exec, execRate] at h
    split at h <;> cases h
    · have := emitAll_produced
        (State.resetHist { s with sampleRate := sr, coef := s.band.map (fun p => s.designFor p sr) }) hs
      exact ⟨this.build, this.length, this.kept, this.fresh, this.stamp⟩
    · exact .same _ rfl rfl rfl
  | _ =>
    simp only [exec, execDesign, execReadBand, execResponse, execResponseBand, execResponseChain, execFrame,
      execChannels, execDiscontinuity] at h
    (repeat' split at h) <;> cases h <;> exact .same _ rfl rfl rfl

/-- Every turn but E's and the reset input produces at most N_BANDS records and delivers none. -/
theorem turn_produced (τ : Turn) (s t : State) (hn : 1 ≤ s.build.nBands)
    (hs : s.stamp.toNat + s.build.nBands < 2 ^ 64) (hd : τ ≠ .delivery) (hr : τ ≠ .reset)
    (h : takeTurn τ s = .next t) : Produced s t s.build.nBands := by
  have nd : ∀ w i, decodeCmd w = .ok i ∨ decodeQcmd w = .ok i → i ≠ .deliver := by
    rintro w i h rfl
    rcases h with h | h
    · simp only [decodeCmd] at h
      split at h <;> (try simp only [formatB, formatT] at h) <;> (try split at h) <;> cases h
    · simp only [decodeQcmd] at h
      split at h <;> (try simp only [formatB, formatT, formatN, bandZero] at h) <;> (repeat' split at h) <;> cases h
  have nt : ∀ w p i, decodeToken w p = .ok i → i ≠ .deliver := by
    rintro w p i h rfl
    simp only [decodeToken] at h
    split at h
    · cases h
    · split at h <;> (try simp only [formatS, countZero] at h) <;> (repeat' split at h) <;> cases h
  have wr : ∀ (r : Reg) (w : Word) (u : State), Produced u (u.writeReg r w) u.build.nBands := by
    intro r w u; cases r <;> exact .same _ rfl rfl rfl
  have ex : ∀ (u : State) (i : Instr), exec i u = .next t → u.build = s.build → u.slot = s.slot →
      u.stamp = s.stamp → i ≠ .deliver → Produced s t s.build.nBands := by
    intro u i h e1 e2 e3 hi
    have a := exec_produced i u t (by rw [e1]; exact hn) (by rw [e1, e3]; exact hs) hi h
    have b := Produced.same (s := s) 0 e1 e2 e3
    rw [← e1]
    simpa using b.trans a
  cases τ with
  | delivery => exact absurd rfl hd
  | reset => exact absurd rfl hr
  | processing =>
    simp only [takeTurn, stepStream] at h
    split at h
    · cases h; exact .same _ rfl rfl rfl
    · split at h
      · cases h; exact .same _ rfl rfl rfl
      · rename_i i hi
        split at h
        · exact ex _ i h rfl rfl rfl (nt _ _ _ hi)
        · cases h; exact .same _ rfl rfl rfl
  | bus =>
    simp only [takeTurn, stepBus] at h
    split at h
    · cases h; exact .same _ rfl rfl rfl
    · rcases stepAccess_cases _ _ _ h with ⟨a, -, -, rfl⟩ | ⟨a, w, -, -, ⟨-, h⟩ | ⟨-, h⟩ | ⟨-, -, rfl⟩⟩
      · exact .same _ rfl rfl rfl
      · simp only [stepControl] at h
        split at h
        · rename_i i hi
          exact ex _ i h rfl rfl rfl (nd _ _ (.inl hi))
        · cases h; exact .same _ rfl rfl rfl
      · simp only [stepQuery] at h
        split at h
        · rename_i i hi
          exact ex _ i h rfl rfl rfl (nd _ _ (.inr hi))
        · cases h; exact .same _ rfl rfl rfl
      · rename_i more hb
        have := wr (regAt s.build.mQuery a) w { s with bus := more }
        exact ⟨this.build, this.length, this.kept, this.fresh, this.stamp⟩
  | sinArrives w => cases h; exact .same _ rfl rfl rfl
  | hostIssues w => cases h; exact .same _ rfl rfl rfl
  | soutReady w => cases h; exact .same _ rfl rfl rfl
  | evtReady w => cases h; exact .same _ rfl rfl rfl

end Sys2Proof.Machine
end

