-- ==== Sys2Proof/Tests/Slice0.lean ====
section
/-! SUPPORT. Tests. Expected values are those of 95_test_vectors.md (V-…, S…, P…), of its worked programs, or
written out by hand from the rule named; every step is one step in the test configuration TC. Each `witness_…`
theorem shows a concrete state and operands that meet the hypotheses of the statement it names. -/

namespace Sys2Proof.Tests

open Sys2Proof.Machine

-- one theorem at a time: the kernel evaluates each of them, and a task for each would want memory of its own
set_option Elab.async false

/-! ## Well-formedness (30_encoding.md R110): the ill-formed term is refused -/

theorem test_wf_frame_too_long : (Instr.frame (List.replicate 65536 0)).wf = false := by
  rw [Instr.wf, List.length_replicate]
  decide
theorem test_wf_frame_longest : (Instr.frame (List.replicate 65535 0)).wf = true := by
  rw [Instr.wf, List.length_replicate]
  decide
theorem test_wf_frame_empty : (Instr.frame []).wf = true := by decide

/-! ## Decoding: the words of section 5, and words written out from the formats of 30_encoding.md R101 -/

theorem test_decode_set_freq : decodeCmd 0x0000000000000001 = .ok (.setFreq 0) := by decide
/-- B(0x02, 255): bits [15:8] are all 1. -/
theorem test_decode_set_q : decodeCmd 0x000000000000FF02 = .ok (.setQ 255) := by decide
theorem test_decode_set_gain : decodeCmd 0x0000000000000103 = .ok (.setGain 1) := by decide
theorem test_decode_set_type : decodeCmd 0x0000000000060204 = .ok (.setType 2 .notch) := by decide
theorem test_decode_set_params : decodeCmd 0x0000000000040105 = .ok (.setParams 1 .lowpass) := by decide
theorem test_decode_design : decodeQcmd 0x0000000000070020 = .ok (.design .peaking) := by decide
theorem test_decode_read_band : decodeQcmd 0x0000000000000121 = .ok (.readBand 1) := by decide
theorem test_decode_response : decodeQcmd 0x0000000000100022 = .ok (.response 16) := by decide
theorem test_decode_response_band : decodeQcmd 0x0000000000030223 = .ok (.responseBand 2 3) := by decide
theorem test_decode_response_chain : decodeQcmd 0x0000000000010024 = .ok (.responseChain 1) := by decide
theorem test_decode_frame : decode .sin [0x0000000000020040, 7, 8, 9] = .ok (.frame [7, 8], [9]) := by decide
theorem test_decode_rate : decode .sin [0x0000000000000041, 7, 8] = .ok (.rate 7, [8]) := by decide
theorem test_decode_channels : decode .sin [0x0000000000090042, 7] = .ok (.channels 9, [7]) := by decide
theorem test_decode_discontinuity : decode .sin [0x0000000000000043] = .ok (.discontinuity, []) := by decide
/-- DELIVER is a step of agent E with no word; the table gives it no bits. -/
theorem test_decode_deliver : decodeTableWord 0 0 = some .deliver := by decide

/-- The eight type codes of R104. -/
theorem test_type_codes :
    [FilterType.ofCode 0, .ofCode 1, .ofCode 2, .ofCode 3, .ofCode 4, .ofCode 5, .ofCode 6, .ofCode 7] =
      [.allpass, .bandpass, .highpass, .highshelf, .lowpass, .lowshelf, .notch, .peaking] := by decide

/-- V-E21 to V-E26. -/
theorem test_illegal_commands :
    decodeCmd 0x0000000000010101 = .error .reservedBits ∧ decodeCmd 0x0000000000080104 = .error .reservedBits ∧
    decodeCmd 0x0000000000000006 = .error .unknownOpcode ∧ decodeCmd 0x0000000000000021 = .error .unknownOpcode ∧
    decodeQcmd 0x0000000000000120 = .error .bandNotZero ∧ decodeQcmd 0 = .error .unknownOpcode := by decide

/-- V-E27, V-E28. -/
theorem test_illegal_tokens :
    decodeToken 0x0000000000010041 [0] = .error .reservedBits ∧ payloadLen 0x0000000000010041 = 1 ∧
    decodeToken 0x0000000000000044 [] = .error .unknownOpcode ∧ payloadLen 0x0000000000000044 = 0 := by decide

/-- A payload of another length than the header's is no token. -/
theorem test_illegal_payload : decodeToken 0x0000000000020040 [1] = .error .payloadLength := by decide

/-- No word matches two rows of one port's map. -/
theorem test_rows_do_not_overlap :
    opcodeRows.Pairwise (fun r q => r.port ≠ q.port ∨ (r.pattern ^^^ q.pattern) &&& r.mask &&& q.mask ≠ 0) := by
  decide

/-! ## Small states -/

/-- The state a step answers. -/
def after : Host.Outcome State Fault Refusal → State
  | .next t => t
  | .fault _ | .refused _ => State.reset

/-- Whether a step answers a next state. -/
def isNext : Host.Outcome State Fault Refusal → Bool
  | .next _ => true
  | .fault _ | .refused _ => false

theorem eq_next {o : Host.Outcome State Fault Refusal} (h : isNext o = true) : o = .next (after o) := by
  cases o <;> first | rfl | cases h

/-- TC with operands in CARG. -/
def withCarg (a b c : Word) : State := { State.reset with carg := #v[a, b, c, 0, 0, 0, 0, 0] }

/-- TC with operands in QARG. -/
def withQarg (a b c d e f : Word) : State := { State.reset with qarg := #v[a, b, c, d, e, f, 0, 0] }

/-- TC with a command word written to an address, its turn next. -/
def written (a : Addr) (w : Word) : State := { State.reset with turns := [.bus], bus := [.write a 8 w] }

/-- TC with words on SIN, P's turn next. -/
def streamed (ws : List Word) : State := { State.reset with turns := [.processing], sin := ws }

/-- The coefficients of V-D1. -/
def coefD1 : Coef :=
  ⟨0x3FF0B40826F2E860, 0xBFFE533BD2CBD1D1, 0x3FEBC4618661BA3B, 0xBFFE533BD2CBD1D1, 0x3FED2C71D4478AFA⟩

/-- The record of P1. -/
def recordP1 : Vector Word 10 :=
  #v[0x0000000100070180, 0x40E7700000000000, 0x408F400000000000, 0x4018000000000000, 0x3FF0000000000000,
     0x3FF0B40826F2E860, 0xBFFE533BD2CBD1D1, 0x3FEBC4618661BA3B, 0xBFFE533BD2CBD1D1, 0x3FED2C71D4478AFA]

/-- The bands of TC, band 1 at a gain of 6.0 dB. -/
def bandsP1 : List Params :=
  [⟨.lowshelf, 0x4059000000000000, 0x3FF0000000000000, 0⟩,
   ⟨.peaking, 0x408F400000000000, 0x3FF0000000000000, 0x4018000000000000⟩,
   ⟨.highshelf, 0x40C3880000000000, 0x3FF0000000000000, 0⟩]

/-- TC after SET_GAIN 1, 6.0, as P1 gives it: band 1 has the coefficients of V-D1 and a pending record. -/
def louder : State :=
  { State.reset with
    band := bandsP1, coef := [Coef.ident, coefD1, Coef.ident], seq := [0, 1, 0], stamp := 1
    slot := [Slot.empty, ⟨true, 0, recordP1⟩, Slot.empty] }

/-- That state with the history V-P1 gives band 1 after its first sample, on channel 0. -/
def worked : State :=
  { louder with
    hist := [Hist.zero, ⟨0x3FF0000000000000, 0, 0x3FF0B40826F2E860, 0⟩, Hist.zero] ::
      List.replicate 7 (List.replicate 3 Hist.zero) }

/-- TC with records of bands 2 and 0 pending, band 2's first. -/
def waiting : State :=
  { State.reset with
    slot := [⟨true, 5, Vector.replicate 10 1⟩, ⟨false, 0, Vector.replicate 10 0⟩, ⟨true, 4, Vector.replicate 10 2⟩]
    stamp := 6
    turns := [.delivery] }

/-! ## Control commands -/

/-- V-S1: status, parameter, coefficients (gain 0), record. -/
theorem test_set_freq :
    let t := after (exec (.setFreq 0) (withCarg 0x407F400000000000 0 0))
    t.cstatus.word = 0x0100 ∧ t.bandAt 0 = ⟨.lowshelf, 0x407F400000000000, 0x3FF0000000000000, 0⟩ ∧
    t.coefAt 0 = Coef.ident ∧ t.seq = [1, 0, 0] ∧ t.stamp = 1 := by decide +kernel

/-- V-S2. -/
theorem test_set_freq_unknown :
    let t := after (exec (.setFreq 3) (withCarg 0x407F400000000000 0 0))
    t.cstatus.word = 0x0101 ∧ t.band = State.reset.band ∧ t.seq = [0, 0, 0] := by decide +kernel

/-- V-D3: Q 0.0 at gain 6.0 gives the Q0 entry. -/
theorem test_set_q :
    let t := after (exec (.setQ 1) { louder with carg := Vector.replicate 8 0 })
    t.cstatus.word = 0x0200 ∧ t.coefAt 1 = ⟨0x3FFFEC982D5BB8B0, 0, 0, 0, 0⟩ ∧ (t.bandAt 1).q = 0 ∧
    t.seqAt 1 = 2 ∧ t.stamp = 1 := by decide +kernel

/-- V-D1, and the record of P1. -/
theorem test_set_gain :
    let t := after (exec (.setGain 1) (withCarg 0x4018000000000000 0 0))
    t.cstatus.word = 0x0300 ∧ t.band = bandsP1 ∧ t.coefAt 1 = coefD1 ∧
    (t.slotAt 1).record.toList = recordP1.toList := by decide +kernel

/-- V-D34. -/
theorem test_set_type :
    let t := after (exec (.setType 1 .notch) State.reset)
    t.cstatus.word = 0x0400 ∧ t.coefAt 1 = ⟨0x3FEE0A1E784C3973, 0xBFFDC854389C37D9, 0x3FEE0A1E784C3973,
      0xBFFDC854389C37D9, 0x3FEC143CF09872E6⟩ := by decide +kernel

/-- V-D19, as in P2. -/
theorem test_set_params :
    let t := after (exec (.setParams 1 .lowpass) (withCarg 0x408F400000000000 0x3FF0000000000000 0))
    t.cstatus.word = 0x0500 ∧ t.bandAt 1 = ⟨.lowpass, 0x408F400000000000, 0x3FF0000000000000, 0⟩ ∧
    t.coefAt 1 = ⟨0x3F7066DE6E928940, 0x3F8066DE6E928940, 0x3F7066DE6E928940, 0xBFFDB327B89E03B0,
      0x3FEBE98664B09BAA⟩ := by decide +kernel

/-! ## Query commands -/

/-- V-S4 with V-D3. -/
theorem test_design :
    let t := after (exec (.design .peaking) (withQarg 0x408F400000000000 0 0x4018000000000000 0x40E7700000000000 0 0))
    t.qstatus.word = 0x2000 ∧ t.qres.toList = [0x3FFFEC982D5BB8B0, 0, 0, 0, 0, 0, 0, 0, 0, 0] := by decide +kernel

/-- V-S5. -/
theorem test_design_bad_rate :
    let t := after (exec (.design .peaking) (withQarg 0x408F400000000000 0x3FF0000000000000 0x4018000000000000 0 0 0))
    t.qstatus.word = 0x2003 ∧ t.qres = State.reset.qres := by decide +kernel

/-- READ_BAND of band 1 after reset: IDENT, PEAKING, 1000.0, 1.0, 0.0, 48000.0 (TC of 95_test_vectors.md). -/
theorem test_read_band :
    (after (exec (.readBand 1) State.reset)).qres.toList = [0x3FF0000000000000, 0, 0, 0, 0, 7, 0x408F400000000000,
      0x3FF0000000000000, 0, 0x40E7700000000000] := by decide +kernel

/-- V-R1 at 12000 Hz: IDENT has magnitude 1.0 and phase 0.0. -/
theorem test_response :
    let s := { withQarg 0x3FF0000000000000 0 0 0 0 0x40E7700000000000 with
               freqBuf := 0x40C7700000000000 :: List.replicate 15 0, magBuf := List.replicate 16 9 }
    let t := after (exec (.response 1) s)
    t.qstatus.word = 0x2200 ∧ t.magAt 0 = 0x3FF0000000000000 ∧ t.phaseAt 0 = 0 ∧ t.magAt 1 = 9 := by decide +kernel

/-- V-S7: the count is checked before the rate. -/
theorem test_response_too_many :
    (after (exec (.response 17) State.reset)).qstatus.word = 0x2203 := by decide +kernel

/-- V-R4 at 1000 Hz, on band 1. -/
theorem test_response_band :
    let t := after (exec (.responseBand 1 1) { louder with freqBuf := 0x408F400000000000 :: List.replicate 15 0 })
    t.qstatus.word = 0x2300 ∧ t.magAt 0 = 0x3FFFEC982D5BB8A5 ∧ t.phaseAt 0 = 0xBCE65337C28CC55D := by decide +kernel

/-- V-S6: NOT_FOUND before BAD_VALUE. -/
theorem test_response_band_unknown :
    (after (exec (.responseBand 5 17) State.reset)).qstatus.word = 0x2301 := by decide +kernel

/-- P1's chain response. -/
theorem test_response_chain :
    let t := after (exec (.responseChain 1) { louder with freqBuf := 0x408F400000000000 :: List.replicate 15 0 })
    t.qstatus.word = 0x2400 ∧ t.magAt 0 = 0x3FFFEC982D5BB8A5 ∧ t.phaseAt 0 = 0xBCE65337C28CC55D := by decide +kernel

/-- V-S8. -/
theorem test_response_chain_none :
    let t := after (exec (.responseChain 0) State.reset)
    t.qstatus.word = 0x2400 ∧ t.magBuf = State.reset.magBuf ∧ t.phaseBuf = State.reset.phaseBuf := by decide +kernel

/-! ## Stream tokens -/

/-- V-P1 for n = 0 on channel 0, through the IDENT bands 0 and 2; the inputs of channel 1 are their negation. -/
theorem test_frame :
    let t := after (exec (.frame [0x3FF0000000000000, 0xBFF0000000000000]) louder)
    t.sout = [0x0000000000020040, 0x3FF0B40826F2E860, 0xBFF0B40826F2E860] ∧ t.sstatus.word = 0x4000 ∧
    t.histAt 1 0 = ⟨0x3FF0000000000000, 0, 0x3FF0B40826F2E860, 0⟩ ∧ t.histAt 1 2 = Hist.zero := by decide +kernel

/-- V-P3 and V-P6: a subnormal goes out unflushed and leaves flushed history; -0.0 comes out as +0.0. -/
theorem test_frame_subnormal_and_negative_zero :
    let t := after (exec (.frame [0x000012688B70E62B, 0x8000000000000000]) State.reset)
    t.sout = [0x0000000000020040, 0x000012688B70E62B, 0] ∧ t.hist = State.reset.hist := by decide +kernel

/-- V-N6. -/
theorem test_rate :
    let t := after (exec (.rate 0x40F7700000000000) worked)
    t.sampleRate = 0x40F7700000000000 ∧ t.hist = State.reset.hist ∧ t.slot.map (·.pending) = [true, true, true] ∧
    t.slot.map (·.stamp) = [1, 0, 2] ∧ t.seq = [1, 2, 1] ∧ t.stamp = 3 := by decide +kernel

/-- V-S12. -/
theorem test_rate_invalid :
    let t := after (exec (.rate 0) State.reset)
    t.sstatus.word = 0x14103 ∧ t.sampleRate = 0x40E7700000000000 := by decide +kernel

/-- P1: CHANNELS 1. -/
theorem test_channels :
    let t := after (exec (.channels 1) worked)
    t.channelCount = 1 ∧ t.hist = State.reset.hist ∧ t.sstatus.word = 0x4200 := by decide +kernel

/-- V-S9. -/
theorem test_channels_too_many :
    let t := after (exec (.channels 9) worked)
    t.sstatus.word = 0x14204 ∧ t.channelCount = 2 ∧ t.hist = worked.hist := by decide +kernel

/-- R215. -/
theorem test_discontinuity :
    let t := after (exec .discontinuity worked)
    t.hist = State.reset.hist ∧ t.sstatus.word = 0x4300 ∧ t.coef = worked.coef := by decide +kernel

/-! ## Delivery -/

/-- The smaller stamp goes first, whatever the band (44_notifier.md R297). -/
theorem test_deliver :
    let t := after (exec .deliver waiting)
    t.evt = List.replicate 10 2 ∧ t.slot.map (·.pending) = [true, false, false] ∧ t.stamp = 6 := by decide +kernel

/-- No slot pending: no step. -/
theorem test_deliver_nothing : after (exec .deliver State.reset) = State.reset := by decide +kernel

/-! ## Steps -/

/-- V-S3: BAD_COMMAND before NOT_FOUND. -/
theorem test_step_illegal_command : (after (step (written 0x00100 0x10301))).cstatus.word = 0x0102 := by
  decide +kernel

/-- V-E27: the token is two words long. -/
theorem test_step_illegal_token :
    let t := after (step (streamed [0x0000000000010041, 5, 6]))
    t.sstatus.word = 0x14102 ∧ t.sin = [6] := by decide +kernel

/-- V-S11. -/
theorem test_step_frame_of_another_count :
    let t := after (step (streamed [0x0000000000030040, 1, 2, 3]))
    t.sstatus.word = 0x14003 ∧ t.sout = [] ∧ t.sin = [] := by decide +kernel

/-- V-S15: CLEAR_STICKY. -/
theorem test_step_clear_sticky :
    let t := after (step { written 0x00018 0x10000 with sstatus := ⟨.ok, 0x40, true⟩ })
    t.sstatus.word = 0x4000 := by decide +kernel

/-- V-E16: the ID word. -/
theorem test_map_id : State.reset.mapRead 0 = 0x0001001000080003 := by decide +kernel

/-- TC after reset (95_test_vectors.md): 48000.0 Hz, two channels, three bands. -/
theorem test_reset :
    State.reset.sampleRate = 0x40E7700000000000 ∧ State.reset.channels = 2 ∧
    State.reset.band = [⟨.lowshelf, 0x4059000000000000, 0x3FF0000000000000, 0⟩,
      ⟨.peaking, 0x408F400000000000, 0x3FF0000000000000, 0⟩,
      ⟨.highshelf, 0x40C3880000000000, 0x3FF0000000000000, 0⟩] := by decide +kernel

/-- A placed word is the next step's instruction: `SET_GAIN 1` and a FRAME of two zero samples. -/
theorem test_fetch_word :
    (after (step (State.reset.withFetchWord 64 0x103))).cstatus.word = 0x0300 ∧
    (after (step (State.reset.withFetchWord 64 0x20040))).sout = [0x20040, 0, 0] ∧
    (after (step (State.reset.withFetchWord 0 0))).evt = List.replicate 10 0 := by decide +kernel

/-! ## Arithmetic -/

/-- 0.1 + 0.2 and 1/3 in binary64; a tie to even; overflow; the smallest subnormal halved. -/
theorem test_arithmetic :
    F64.add 0x3FB999999999999A 0x3FC999999999999A = 0x3FD3333333333334 ∧
    F64.div 0x3FF0000000000000 0x4008000000000000 = 0x3FD5555555555555 ∧
    F64.add 0x4340000000000000 0x3FF0000000000000 = 0x4340000000000000 ∧
    F64.mul 0x7FEFFFFFFFFFFFFF 0x4000000000000000 = F64.posInf ∧
    F64.mul 0x0000000000000001 0x3FE0000000000000 = 0 ∧
    F64.sqrt 0x4000000000000000 = 0x3FF6A09E667F3BCD := by decide +kernel

/-! ## Witnesses: encoding -/

theorem witness_DecodingAnEncodedInstructionGivesItBack :
    ((Instr.setType 255 .peaking).wf = true ∧ (Instr.setType 255 .peaking).port = some .cmd) ∧
    ((Instr.responseBand 255 65535).wf = true ∧ (Instr.responseBand 255 65535).port = some .qcmd) ∧
    ((Instr.frame [1, 2]).wf = true ∧ (Instr.frame [1, 2]).port = some .sin) := by decide

theorem witness_EncodingADecodedInstructionGivesItsWords :
    decodeCmd 0x0000000000060204 = .ok (.setType 2 .notch) ∧
    decodeQcmd 0x0000000000030223 = .ok (.responseBand 2 3) ∧
    decodeToken 0x0000000000020040 [1, 2] = .ok (.frame [1, 2]) := by decide

theorem witness_PortsAcceptExactlyTheOpcodeTable :
    [(7 : Word)].length = payloadLen 0x0000000000000041 ∧ ([] : List Word).length = payloadLen 0x0000000000000040 := by
  decide

theorem witness_TokenLengthIsFixedByTheHeader :
    opField 0x00000000FFFF0040 = 0x40 ∧ opField 0x0000000000000041 = 0x41 ∧
    (opField 0x0000000000000043 ≠ 0x40 ∧ opField 0x0000000000000043 ≠ 0x41) := by decide

/-! ## Witnesses: steps -/

theorem witness_StepRunsTheDecodedInstruction :
    ((written 0x00100 0x103).turns = [.bus] ∧ (written 0x00100 0x103).bus = [.write 0x00100 8 0x103] ∧
      decodeCmd 0x103 = .ok (.setGain 1)) ∧
    ((written 0x00200 0x121).turns = [.bus] ∧ (written 0x00200 0x121).bus = [.write 0x00200 8 0x121] ∧
      decodeQcmd 0x121 = .ok (.readBand 1)) ∧
    ((streamed [0x20040, 1, 2]).turns = [.processing] ∧
      decode .sin (streamed [0x20040, 1, 2]).sin = .ok (.frame [1, 2], []) ∧
      (streamed [0x20040, 1, 2]).streamReady (.frame [1, 2]) = true) ∧
    waiting.turns = [.delivery] := by decide +kernel

theorem witness_IllegalCommandChangesOnlyItsStatus :
    ((written 0x00100 0x6).turns = [.bus] ∧ (written 0x00100 0x6).bus = [.write 0x00100 8 0x6] ∧
      decodeCmd 0x6 = .error .unknownOpcode) ∧
    ((written 0x00200 0x120).turns = [.bus] ∧ (written 0x00200 0x120).bus = [.write 0x00200 8 0x120] ∧
      decodeQcmd 0x120 = .error .bandNotZero) := by decide +kernel

/-- An unknown OP; a RATE with a COUNT; a CHANNELS with bit 8, and a FRAME with bit 63 set. -/
theorem witness_IllegalTokenIsTakenAndIgnored :
    (streamed [0x10041, 5]).turns = [.processing] ∧ (streamed [0x10041, 5]).sin = [0x10041, 5] ∧
    payloadLen 0x10041 ≤ [(5 : Word)].length ∧
    (opField 0x10041 = 0x41 ∧ (0x10041 : Word).extractLsb' 16 16 ≠ 0) ∧
    (payloadLen 0x44 ≤ 0 ∧ opField 0x44 ≠ 0x40 ∧ opField 0x44 ≠ 0x41 ∧ opField 0x44 ≠ 0x42 ∧ opField 0x44 ≠ 0x43) ∧
    (payloadLen 0x90142 ≤ 0 ∧ (0x90142 : Word).extractLsb' 8 8 ≠ 0) ∧
    (payloadLen 0x8000000000000040 ≤ 0 ∧ (0x8000000000000040 : Word).extractLsb' 32 32 ≠ 0) := by decide +kernel

/-- The third state's SOUT is one word short of the frame. -/
theorem witness_StreamWaitsForWholeTokensAndRoom :
    ((streamed []).turns = [.processing] ∧ (streamed []).sin = []) ∧
    ((streamed [0x20040, 1]).sin = [0x20040, 1] ∧ [(1 : Word)].length < payloadLen 0x20040) ∧
    (let s := { streamed [0x20040, 1, 2] with soutRoom := some 2 }
     decode .sin s.sin = .ok (.frame [1, 2], []) ∧ [(1 : Word), 2].length = s.channels ∧
     s.soutRoom = some 2 ∧ 2 < 1 + s.channels) := by decide +kernel

/-- Both sides: a 32-bit read is refused, an aligned 64-bit one is not. -/
theorem witness_OnlyNarrowOrMisalignedAccessesAreRefused :
    isNext (step { State.reset with turns := [.bus], bus := [.read 0x00008 4] }) = false ∧
    isNext (step { State.reset with turns := [.bus], bus := [.read 0x0000C 8] }) = false ∧
    isNext (step { State.reset with turns := [.bus], bus := [.read 0x00008 8] }) = true := by decide +kernel

/-! ## Witnesses: reset -/

/-- A build with one band, one channel and one query entry. -/
def oneBand : Config.Build := { Config.Build.tc with nBands := 1, maxChannels := 1, mQuery := 1, c0 := 1 }

/-- TC has an interior band 1 and a last band 2; the build with one band has neither. -/
theorem witness_ResetGivesEveryPieceItsValue :
    buildValid Config.Build.tc = true ∧ buildValid oneBand = true ∧ 0 < Config.Build.tc.nBands ∧
    1 < Config.Build.tc.nBands ∧ (0 < 1 ∧ 1 < Config.Build.tc.nBands - 1) := by decide +kernel

theorem witness_ResetCoefficientsAreTheDesigners : 0 < oneBand.nBands ∧ 2 < Config.Build.tc.nBands := by decide

theorem witness_ResetInputLeavesThePorts :
    ({ State.reset with turns := [.reset, .bus], sin := [1] } : State).turns = .reset :: [.bus] := rfl

theorem witness_OnlyValidBuildsHaveAResetState :
    buildValid Config.Build.tc = true ∧ buildValid { Config.Build.tc with nBands := 0 } = false := by decide +kernel

theorem witness_ResetStatesMeetTheInvariant : buildValid oneBand = true := by decide +kernel

/-! ## Witnesses: invariants -/

/-- `louder` and `worked` have files of the right sizes. -/
theorem louder_sized : louder.Sized := by
  constructor <;> decide +kernel

theorem worked_sized : worked.Sized := by
  constructor <;> decide +kernel

/-- The invariant holds of a state with an edited band, nonzero history and a pending record. -/
theorem worked_inv : worked.Inv where
  build := by decide +kernel
  sized := worked_sized
  rate := by decide +kernel
  channels := by decide +kernel
  designed := by
    show ∀ b, b < worked.build.nBands → worked.coefAt b = worked.designFor (worked.bandAt b) worked.sampleRate
    decide +kernel
  flushed := fun b ch => by
    have h : ∀ l ∈ worked.hist, ∀ r ∈ l,
        ((F64.expField r.x1 = 0 → r.x1 = F64.zero) ∧ (F64.expField r.x2 = 0 → r.x2 = F64.zero)) ∧
        (F64.expField r.y1 = 0 → r.y1 = F64.zero) ∧ (F64.expField r.y2 = 0 → r.y2 = F64.zero) := by decide +kernel
    have z : Hist.zero.Flushed := ⟨fun _ => rfl, fun _ => rfl, fun _ => rfl, fun _ => rfl⟩
    exact State.histAt_all Hist.Flushed z (fun l hl r hr =>
      ⟨(h l hl r hr).1.1, (h l hl r hr).1.2, (h l hl r hr).2.1, (h l hl r hr).2.2⟩) b ch
  idle := fun b ch hc => by
    have h : ∀ l ∈ worked.hist.drop worked.channels, ∀ r ∈ l, r = Hist.zero := by decide +kernel
    exact State.histAt_above (· = Hist.zero) rfl worked.channels h b ch hc

/-- The state `worked` with one more entry of the schedule: a RATE token waits, P's turn is next. -/
def ready : State := { worked with turns := [.processing], sin := [0x41, 0x40F7700000000000] }

theorem witness_EveryStepKeepsTheInvariant : ready.Inv ∧ step ready = .next (after (step ready)) :=
  ⟨⟨worked_inv.build, ⟨worked_sized.band, worked_sized.coef, worked_sized.slot, worked_sized.seq, worked_sized.lane,
    worked_sized.hist, worked_sized.freq, worked_sized.mag, worked_sized.phase⟩, worked_inv.rate, worked_inv.channels,
    worked_inv.designed, worked_inv.flushed, worked_inv.idle⟩, eq_next (by decide +kernel)⟩

theorem ready_sized : ready.Sized := witness_EveryStepKeepsTheInvariant.1.sized

/-- Band 1 is pending with stamp 0, STAMP is 1, and a RATE token gives the other bands' records their stamps. -/
theorem witness_EveryStepKeepsPendingStampsUnique :
    ready.Sized ∧ ready.StampsUnique ∧ ready.stamp.toNat + ready.build.nBands < 2 ^ 64 ∧
    step ready = .next (after (step ready)) := by
  have hl : ready.slot.length = 3 := by decide +kernel
  have h0 : (ready.slotAt 0).pending = false := by decide +kernel
  have h2 : (ready.slotAt 2).pending = false := by decide +kernel
  have only : ∀ b, (ready.slotAt b).pending = true → b = 1 := by
    intro b hb
    by_contra hne
    have : b = 0 ∨ b = 2 ∨ 3 ≤ b := by omega
    rcases this with rfl | rfl | h3
    · rw [h0] at hb; cases hb
    · rw [h2] at hb; cases hb
    · rw [State.slotAt, getD_past _ _ _ (by omega)] at hb; cases hb
  refine ⟨ready_sized, ⟨?_, ?_⟩, by decide +kernel, witness_EveryStepKeepsTheInvariant.2⟩
  · intro b hb
    rw [only b hb]
    decide +kernel
  · intro b c hb hc _
    rw [only b hb, only c hc]

/-! ## Witnesses: frames -/

/-- SET_GAIN leaves SAMPLE_RATE; a response query leaves the entry after its last one; CHANNELS leaves SSTATUS's
neighbour. -/
theorem witness_InstructionsLeaveOtherMapBytes :
    (isNext (exec (.setGain 1) louder) = true ∧ mayWriteWord (.setGain 1) (0x0000C / 8) = false) ∧
    (isNext (exec (.responseChain 2) louder) = true ∧ mayWriteWord (.responseChain 2) (0x20010 / 8) = false) ∧
    (isNext (exec (.channels 1) louder) = true ∧ mayWriteWord (.channels 1) (0x00020 / 8) = false) := by decide +kernel

theorem witness_ControlCommandsLeaveEverythingElse :
    (Instr.setGain 1).port = some .cmd ∧ isNext (exec (.setGain 1) louder) = true := by decide +kernel

theorem witness_QueriesAreReadOnly :
    (Instr.responseChain 1).port = some .qcmd ∧ isNext (exec (.responseChain 1) louder) = true := by decide +kernel

theorem witness_TokensLeaveEverythingElse :
    isNext (exec (.frame [1, 2]) State.reset) = true ∧ isNext (exec (.rate 0x40F7700000000000) State.reset) = true ∧
    isNext (exec (.channels 8) State.reset) = true ∧ isNext (exec .discontinuity State.reset) = true := by
  decide +kernel

/-- A frame of 1.0 and -1.0 changes history. -/
theorem witness_OnlyProcessingAndResetChangeHistory :
    let s := streamed [0x20040, 0x3FF0000000000000, 0xBFF0000000000000]
    isNext (step s) = true ∧ (after (step s)).hist ≠ s.hist := by decide +kernel

theorem witness_SoutCarriesOnlyWholeFrames :
    let s := streamed [0x20040, 0x3FF0000000000000, 0xBFF0000000000000]
    s.channels ≤ s.hist.length ∧ isNext (step s) = true ∧ (after (step s)).sout ≠ s.sout := by decide +kernel

theorem witness_EvtCarriesOnlyDeliveredRecords :
    isNext (step waiting) = true ∧ (after (step waiting)).evt ≠ waiting.evt := by decide +kernel

theorem witness_StickyIsClearedOnlyByHostOrReset :
    (let s := { written 0x00018 0x10000 with sstatus := ⟨.badValue, 0x40, true⟩ }
     isNext (step s) = true ∧ s.sstatus.sticky = true ∧ (after (step s)).sstatus.sticky = false) ∧
    (let s := { State.reset with turns := [.reset], sstatus := ⟨.badValue, 0x40, true⟩ }
     isNext (step s) = true ∧ s.sstatus.sticky = true ∧ (after (step s)).sstatus.sticky = false) := by decide +kernel

/-- One token that is OK and one that fails. -/
theorem witness_TokensReportTheirStatus :
    ((Instr.frame [1, 2]).port = some .sin ∧ State.reset.streamReady (.frame [1, 2]) = true ∧
      isNext (exec (.frame [1, 2]) State.reset) = true) ∧
    ((Instr.channels 0).port = some .sin ∧ State.reset.streamReady (.channels 0) = true ∧
      isNext (exec (.channels 0) State.reset) = true) := by decide +kernel

/-! ## Witnesses: commands -/

/-- The first and the last band of TC; on `louder` band 1 already has a pending record. -/
theorem witness_SettersStoreDesignAndEmit :
    louder.Sized ∧ (0 : BandId).toNat < louder.build.nBands ∧ (1 : BandId).toNat < louder.build.nBands ∧
    (2 : BandId).toNat < louder.build.nBands :=
  ⟨louder_sized, by decide +kernel, by decide +kernel, by decide +kernel⟩

theorem witness_UnknownBandIsReportedNotFound :
    State.reset.build.nBands ≤ (3 : BandId).toNat ∧ State.reset.build.nBands ≤ (255 : BandId).toNat := by
  decide +kernel

theorem witness_DesignQueryEvaluatesTheDesigner :
    validRate (withQarg 0 0 0 0x40E7700000000000 0 0).qarg[3] = true ∧ validRate State.reset.qarg[3] = false := by
  decide +kernel

theorem witness_ReadBandReturnsTheSnapshot : (2 : BandId).toNat < State.reset.build.nBands := by decide +kernel

/-- The largest COUNT of TC. -/
theorem witness_ResponseQueriesFillTheBuffers :
    let s := withQarg 0 0 0 0 0 0x40E7700000000000
    (16 : Count).toNat ≤ s.build.mQuery ∧ validRate s.qarg[5] = true ∧ (2 : BandId).toNat < s.build.nBands := by
  decide +kernel

theorem witness_FailedQueriesWriteOnlyTheirStatus :
    State.reset.build.mQuery < (17 : Count).toNat ∧ validRate State.reset.qarg[5] = false ∧
    (2 : BandId).toNat < State.reset.build.nBands := by decide +kernel

/-- 1000 Hz, and the two ends of the range, at 48000 Hz. -/
theorem witness_AnalyzerAngleIsTheDesigners :
    let sr : Word := 0x40E7700000000000
    (F64.lt F64.zero (F64.div sr Const.two) = true ∧ validRate sr = true) ∧
    [(0x408F400000000000 : Word), 0x40D7700000000000, 0].all (fun f =>
      F64.le F64.zero f && F64.le f (F64.div sr Const.two) && decide (f ≠ F64.negZero)) = true := by decide +kernel

/-! ## Witnesses: tokens -/

theorem witness_FrameFiltersEveryChannelThroughEveryBand :
    louder.Sized ∧ louder.channels ≤ louder.build.maxChannels ∧
    [(0x3FF0000000000000 : Word), 0xBFF0000000000000].length = louder.channels ∧ louder.soutTakesFrame = true :=
  ⟨louder_sized, by decide +kernel, by decide +kernel, by decide +kernel⟩

theorem witness_FrameOfAnotherCountIsRefused :
    (streamed [0x30040, 1, 2, 3, 9]).turns = [.processing] ∧ [(1 : Word), 2, 3].length < 65536 ∧
    (streamed [0x30040, 1, 2, 3, 9]).sin = encode (.frame [1, 2, 3]) ++ [9] ∧
    [(1 : Word), 2, 3].length ≠ (streamed [0x30040, 1, 2, 3, 9]).channels := by decide +kernel

theorem witness_RateRedesignsResetsAndEmits :
    worked.Sized ∧ validRate 0x40F7700000000000 = true ∧ validRate 0 = false ∧ validRate F64.posInf = false :=
  ⟨worked_sized, by decide +kernel, by decide +kernel, by decide +kernel⟩

/-- The smallest and largest count of TC, and the counts next to them. -/
theorem witness_ChannelsSetsTheCountOrFails :
    (1 ≤ (1 : Count).toNat ∧ (1 : Count).toNat ≤ State.reset.build.maxChannels) ∧
    (1 ≤ (8 : Count).toNat ∧ (8 : Count).toNat ≤ State.reset.build.maxChannels) ∧
    (0 : Count).toNat = 0 ∧ State.reset.build.maxChannels < (9 : Count).toNat := by decide +kernel

/-- TC after a frame of 1.0 and -1.0: every band is IDENT and history is finite and not zero. -/
def passed : State := after (exec (.frame [0x3FF0000000000000, 0xBFF0000000000000]) State.reset)

theorem witness_IdentityChainIsTransparent :
    passed.Sized ∧ passed.channels ≤ passed.build.maxChannels ∧
    (∀ b, b < passed.build.nBands → passed.coefAt b = Coef.ident) ∧
    (∀ b ch, F64.isFinite (passed.histAt b ch).x1 = true ∧ F64.isFinite (passed.histAt b ch).x2 = true ∧
      F64.isFinite (passed.histAt b ch).y1 = true ∧ F64.isFinite (passed.histAt b ch).y2 = true) ∧
    [(0x000012688B70E62B : Word), 0xBFF0000000000000].length = passed.channels ∧
    (∀ x ∈ [(0x000012688B70E62B : Word), 0xBFF0000000000000], F64.isFinite x = true ∧ F64.isZero x = false) ∧
    passed.soutTakesFrame = true := by
  refine ⟨by constructor <;> decide +kernel, by decide +kernel, by decide +kernel, ?_, by decide +kernel,
    ?_, by decide +kernel⟩
  rotate_left
  · simp only [List.forall_mem_cons, List.not_mem_nil, false_imp_iff, implies_true, and_true]
    decide +kernel
  exact State.histAt_all (fun h => F64.isFinite h.x1 = true ∧ F64.isFinite h.x2 = true ∧ F64.isFinite h.y1 = true ∧
    F64.isFinite h.y2 = true) (by decide +kernel) (by decide +kernel)

/-! ## Witnesses: delivery and the map -/

theorem witness_DeliverSendsTheOldestPendingRecord :
    (waiting.slotAt 2).pending = true ∧ waiting.evtTakesRecord = true := by decide +kernel

/-- No slot pending after reset; EVT one word short of a record. -/
theorem witness_DeliverWaitsForARecordAndRoom :
    (∀ c, (State.reset.slotAt c).pending = false) ∧
    ({ waiting with evtRoom := some 9 } : State).evtRoom = some 9 ∧ 9 < 10 := by
  refine ⟨fun c => ?_, rfl, by decide⟩
  by_cases h : c < 3
  · revert c; decide +kernel
  · rw [State.slotAt, getD_past _ _ _ (by have : State.reset.slot.length = 3 := by decide +kernel
                                          omega)]
    rfl

/-- The first and last entries of the files of TC, and the unmapped words next to them. -/
theorem witness_MapReadsTheNamedRegisters :
    State.reset.build.mQuery ≤ 8192 ∧ 15 < State.reset.build.mQuery ∧
    [(0x00020 : Addr), 0x000F8, 0x00110, 0x00138, 0x00180, 0x00210, 0x00238, 0x002D0, 0x0FFF8, 0x10080, 0x1FFF8,
      0x20080, 0x2FFF8, 0x30080, 0x3FFF8].all (fun a =>
        a.toNat % 8 == 0 && !mappedWord State.reset.build.mQuery (a.toNat / 8)) = true := by decide +kernel

theorem witness_HostReadReturnsTheWordOnly :
    ({ State.reset with turns := [.bus], bus := [.read 0x3FFF8 8] } : State).bus = .read 0x3FFF8 8 :: [] ∧
    (0x3FFF8 : Addr).toNat % 8 = 0 := by decide +kernel

/-- The last entry of each file, SSTATUS, and addresses beside them. -/
theorem witness_HostWriteChangesOnlyItsRegister :
    ((written 0x00178 5).turns = [.bus] ∧ (written 0x00178 5).bus = [.write 0x00178 8 5]) ∧
    (0x00018 : Addr).toNat = 0x00018 ∧
    State.reset.build.mQuery ≤ 8192 ∧ (0x00178 : Addr).toNat = 0x00140 + 8 * 7 ∧
    (0x00278 : Addr).toNat = 0x00240 + 8 * 7 ∧ 15 < State.reset.build.mQuery ∧
    (0x10078 : Addr).toNat = 0x10000 + 8 * 15 ∧
    [(0x00180 : Addr), 0x00280, 0x10080, 0x00020, 0x00108, 0x00010].all (fun a =>
      a.toNat % 8 == 0 && a.toNat != 0x00018 && a.toNat != 0x00100 && a.toNat != 0x00200 &&
      (List.range 8).all (fun i => a.toNat != 0x00140 + 8 * i && a.toNat != 0x00240 + 8 * i) &&
      (List.range State.reset.build.mQuery).all (fun i => a.toNat != 0x10000 + 8 * i)) = true := by decide +kernel

/-! ## Witnesses: the designer -/

theorem witness_GainZeroGivesIdentity :
    (FilterType.peaking = .peaking ∨ FilterType.peaking = .lowshelf ∨ FilterType.peaking = .highshelf) ∧
    (FilterType.lowshelf = .peaking ∨ FilterType.lowshelf = .lowshelf ∨ FilterType.lowshelf = .highshelf) ∧
    (FilterType.highshelf = .peaking ∨ FilterType.highshelf = .lowshelf ∨ FilterType.highshelf = .highshelf) ∧
    F64.isNaN F64.someNaN = true ∧ F64.eq F64.negZero F64.zero = true := by decide +kernel

/-- V-D16 (HIGHSHELF at 0 Hz, 6 dB) and V-D28 (HIGHPASS at -5 Hz). -/
theorem witness_ZeroNormalizedFrequencyTakesTableZ0 :
    validRate 0x40E7700000000000 = true ∧ F64.lt F64.zero 0 = false ∧ F64.lt F64.zero 0xC014000000000000 = false ∧
    F64.eq (normFreq 0 0x40E7700000000000) F64.zero = true ∧
    ¬((FilterType.highshelf = .peaking ∨ FilterType.highshelf = .lowshelf ∨ FilterType.highshelf = .highshelf) ∧
      F64.eq (clampGain 0x4018000000000000) F64.zero = true) ∧
    ¬((FilterType.highpass = .peaking ∨ FilterType.highpass = .lowshelf ∨ FilterType.highpass = .highshelf) ∧
      F64.eq (clampGain 0) F64.zero = true) := by decide +kernel

/-- V-D23 (LOWPASS at 30000 Hz) and V-D22 (at 24000 Hz). -/
theorem witness_UnitNormalizedFrequencyTakesTableZ1 :
    validRate 0x40E7700000000000 = true ∧ F64.lt (F64.div 0x40E7700000000000 Const.two) 0x40DD4C0000000000 = true ∧
    F64.eq (normFreq 0x40D7700000000000 0x40E7700000000000) F64.one = true ∧
    ¬((FilterType.lowpass = .peaking ∨ FilterType.lowpass = .lowshelf ∨ FilterType.lowpass = .highshelf) ∧
      F64.eq (clampGain 0) F64.zero = true) := by decide +kernel

/-- V-D3 and V-D9 (Q 0.0 or NaN), V-D8 (the guard) and V-D1 (neither), all PEAKING at 1000 Hz, 6 dB. -/
theorem witness_DisabledAndGuardedBandsTakeTableQ0 :
    F64.lt F64.zero (normFreq 0x408F400000000000 0x40E7700000000000) = true ∧
    F64.lt (normFreq 0x408F400000000000 0x40E7700000000000) F64.one = true ∧
    ¬((FilterType.peaking = .peaking ∨ FilterType.peaking = .lowshelf ∨ FilterType.peaking = .highshelf) ∧
      F64.eq (clampGain 0x4018000000000000) F64.zero = true) ∧
    (F64.lt F64.zero 0 = false ∧ F64.lt F64.zero F64.someNaN = false) ∧
    (let nf := normFreq 0x408F400000000000 0x40E7700000000000
     let a := gainScale .reference (clampGain 0x4018000000000000)
     (F64.lt F64.zero 0x0000000000000001 = true ∧
       (normalize (interior .reference .peaking nf 0x0000000000000001 a)).isFinite = false) ∧
     (F64.lt F64.zero F64.one = true ∧ (normalize (interior .reference .peaking nf F64.one a)).isFinite = true)) := by
  decide +kernel

/-- A ratio above 1, one between the bounds, one not positive; Q positive and not; gain NaN, above, below, and the
two ends of its range. -/
theorem witness_ClampedArgumentsAreInRange :
    F64.lt F64.one (F64.div 0x40DD4C0000000000 (F64.div 0x40E7700000000000 Const.two)) = true ∧
    (F64.lt F64.one (F64.div 0x408F400000000000 (F64.div 0x40E7700000000000 Const.two)) = false ∧
      F64.lt F64.zero (F64.div 0x408F400000000000 (F64.div 0x40E7700000000000 Const.two)) = true) ∧
    F64.lt F64.zero (F64.div F64.someNaN (F64.div 0x40E7700000000000 Const.two)) = false ∧
    F64.lt F64.zero 0x0000000000000001 = true ∧ F64.lt F64.zero F64.negZero = false ∧
    F64.isNaN F64.someNaN = true ∧ F64.lt Const.gainLimit F64.posInf = true ∧
    F64.lt (F64.neg F64.posInf) Const.negGainLimit = true ∧
    F64.le Const.negGainLimit Const.negGainLimit = true ∧ F64.le Const.negGainLimit Const.gainLimit = true ∧
    F64.le Const.gainLimit Const.gainLimit = true := by decide +kernel

/-- The largest gain with the reference NUM. -/
theorem witness_DesignedCoefficientsAreFinite :
    validRate 0x40E7700000000000 = true ∧
    F64.isFinite (F64.mul (gainScale .reference (clampGain Const.gainLimit))
      (gainScale .reference (clampGain Const.gainLimit))) = true := by decide +kernel

/-! ## Witnesses: arithmetic -/

/-- A number between -2^60 and 2^60 is in the range that rounds to finite values. -/
theorem in_range (x : ℝ) (h : |x| ≤ 2 ^ 60) : |x| < 2 ^ 1024 - 2 ^ 970 := by
  have a : ∀ P : ℝ, 2 ^ 60 ≤ P → |x| < 2 ^ 54 * P - P := fun P hP => by linarith
  have b := a (2 ^ 970) (pow_le_pow_right₀ (by norm_num) (by norm_num))
  rwa [← pow_add] at b

/-- 2^53 + 1 lies halfway between 2^53 and 2^53 + 2, and rounds to 2^53; 2^1024 rounds to an infinity. -/
theorem witness_RoundingIsToNearestTiesToEven :
    (|((9007199254740993 : Nat) : ℝ)| < 2 ^ 1024 - 2 ^ 970 ∧ F64.isFinite 0x4340000000000001 = true ∧
      |((9007199254740993 : Nat) : ℚ) - wordValue 0x4340000000000001| =
        |((9007199254740993 : Nat) : ℚ) - wordValue (F64.round false 9007199254740993 0)| ∧
      wordValue 0x4340000000000001 ≠ wordValue (F64.round false 9007199254740993 0)) ∧
    (2 : ℝ) ^ 1024 - 2 ^ 970 ≤ 1 * 2 ^ 1024 := by
  have a : F64.value (F64.round false 9007199254740993 0) = 2 ^ 53 * 2 ^ 1074 := by decide +kernel
  have b : F64.value 0x4340000000000001 = (2 ^ 53 + 2) * 2 ^ 1074 := by decide +kernel
  refine ⟨⟨in_range _ (by norm_num), by decide +kernel, ?_, ?_⟩, ?_⟩
  · simp only [wordValue, a, b]
    norm_num
  · simp only [wordValue, a, b]
    norm_num
  · have : (0 : ℝ) ≤ 2 ^ 970 := by positivity
    rw [one_mul]
    exact sub_le_self _ this

/-- 1.0 + 2.0 = 3.0, 2.0 · 3.0 = 6.0, 1.0 + -1.0 = 0, 1.0 - 1.0 = 0, a divisor that is no zero, and -0.0. -/
theorem witness_ArithmeticRoundsTheExactResult :
    (F64.isFinite 0x3FF0000000000000 = true ∧ F64.isFinite 0x4000000000000000 = true ∧
      F64.isFinite 0x4008000000000000 = true ∧ F64.isZero 0x4008000000000000 = false ∧
      wordValue 0x3FF0000000000000 + wordValue 0x4000000000000000 = wordValue 0x4008000000000000) ∧
    (F64.isFinite 0x4018000000000000 = true ∧ F64.isZero 0x4018000000000000 = false ∧
      wordValue 0x4000000000000000 * wordValue 0x4008000000000000 = wordValue 0x4018000000000000) ∧
    (F64.isFinite 0xBFF0000000000000 = true ∧ wordValue 0x3FF0000000000000 + wordValue 0xBFF0000000000000 = 0 ∧
      wordValue 0x3FF0000000000000 - wordValue 0x3FF0000000000000 = 0) ∧
    F64.isZero F64.negZero = true ∧ F64.isFinite F64.negZero = true ∧ F64.signBit 0x4000000000000000 = false := by
  have a : F64.value 0x3FF0000000000000 = 2 ^ 1074 := by decide +kernel
  have b : F64.value 0x4000000000000000 = 2 * 2 ^ 1074 := by decide +kernel
  have c : F64.value 0x4008000000000000 = 3 * 2 ^ 1074 := by decide +kernel
  have d : F64.value 0x4018000000000000 = 6 * 2 ^ 1074 := by decide +kernel
  have e : F64.value 0xBFF0000000000000 = -2 ^ 1074 := by decide +kernel
  refine ⟨⟨by decide, by decide, by decide, by decide, ?_⟩, ⟨by decide, by decide, ?_⟩,
    ⟨by decide, ?_, sub_self _⟩, by decide, by decide, by decide⟩ <;>
    · simp only [wordValue, a, b, c, d, e]
      norm_num

/-- A NaN, the two zeros, and the two infinities. -/
theorem witness_ComparisonsAreThoseOfTheValues :
    F64.isNaN F64.someNaN = true ∧ F64.isFinite F64.zero = true ∧ F64.isFinite F64.negZero = true ∧
    F64.isNaN F64.posInf = false ∧ F64.isNaN (F64.neg F64.posInf) = false ∧ F64.isNaN F64.one = false := by decide

/-- The largest subnormal, -0.0, and the smallest normal. -/
theorem witness_FlushReplacesSubnormalsByZero :
    F64.expField 0x000FFFFFFFFFFFFF = 0 ∧ F64.expField 0x8000000000000000 = 0 ∧
    F64.expField 0x0010000000000000 ≠ 0 := by decide

theorem witness_EveryNumMeetsItsSpecialValues :
    F64.isFinite F64.one = true ∧ F64.isFinite F64.posInf = false ∧ F64.isNaN F64.someNaN = true ∧
    F64.isNaN F64.one = false ∧ F64.isZero F64.negZero = true ∧ F64.lt F64.zero F64.one = true ∧
    F64.lt (F64.neg F64.one) F64.zero = true ∧ F64.isInf F64.posInf = true := by decide +kernel

/-! ## Witnesses: orders of steps -/

/-- One enabled agent of each kind, and P and the bus with nothing to take. -/
theorem witness_AnyEnabledAgentMayMoveNext :
    ((streamed [0x43]).turns = [Agent.processing.turn] ∧ (streamed [0x43]).agentEnabled .processing = true) ∧
    ((written 0x00100 1).turns = [Agent.control.turn] ∧ (written 0x00100 1).agentEnabled .control = true) ∧
    ((written 0x00200 1).turns = [Agent.analyzer.turn] ∧ (written 0x00200 1).agentEnabled .analyzer = true) ∧
    ((written 0x00140 1).turns = [Agent.host.turn] ∧ (written 0x00140 1).agentEnabled .host = true) ∧
    (waiting.turns = [Agent.delivery.turn] ∧ waiting.agentEnabled .delivery = true) ∧
    State.reset.agentEnabled .processing = false ∧ State.reset.agentEnabled .control = false ∧
    State.reset.agentEnabled .analyzer = false ∧ State.reset.agentEnabled .host = false ∧
    State.reset.agentEnabled .delivery = false ∧
    isNext (step { State.reset with turns := [.sinArrives 0x43] }) = true := by decide +kernel

/-- A weakly fair run in which E has every turn: two records are delivered, then its turns pass. -/
def drained : State := after (step { after (step waiting) with turns := [.delivery] })
def draining : Nat → State
  | 0 => waiting
  | 1 => after (step waiting)
  | _ + 2 => drained

theorem witness_FairRunsDeliverEveryPendingRecord :
    IsRun draining (fun _ => .delivery) ∧ WeaklyFair draining (fun _ => .delivery) ∧ (draining 0).Sized ∧
    (draining 0).StampsUnique ∧ ((draining 0).slotAt 0).pending = true ∧
    (∀ k, 0 ≤ k → (draining k).evtTakesRecord = true) := by
  refine ⟨?_, ?_, by constructor <;> decide +kernel, ?_, by decide +kernel, ?_⟩
  · intro k
    match k with
    | 0 => exact eq_next (o := step waiting) (by decide +kernel)
    | 1 => exact eq_next (o := step { after (step waiting) with turns := [.delivery] }) (by decide +kernel)
    | _ + 2 =>
      have same : after (step { drained with turns := [.delivery] }) = drained := by decide +kernel
      have n := eq_next (o := step { drained with turns := [.delivery] }) (by decide +kernel)
      rw [same] at n
      exact n
  · intro g n h
    have quiet : ∀ s : State, s = waiting ∨ s = after (step waiting) ∨ s = drained →
        s.agentEnabled .processing = false ∧ s.agentEnabled .control = false ∧
        s.agentEnabled .analyzer = false ∧ s.agentEnabled .host = false := by
      rintro s (rfl | rfl | rfl) <;> decide +kernel
    have idle := quiet (draining n) (by
      match n with
      | 0 => exact .inl rfl
      | 1 => exact .inr (.inl rfl)
      | _ + 2 => exact .inr (.inr rfl))
    have on := h n (le_refl n)
    cases g
    · rw [idle.1] at on; cases on
    · rw [idle.2.1] at on; cases on
    · rw [idle.2.2.1] at on; cases on
    · exact ⟨n, le_refl n, rfl⟩
    · rw [idle.2.2.2] at on; cases on
  · have past : ∀ b, 3 ≤ b → (waiting.slotAt b).pending = false := fun b h => by
      rw [State.slotAt, getD_past _ _ _ (by have : waiting.slot.length = 3 := by decide +kernel
                                            omega)]
      rfl
    have lt : ∀ b, (waiting.slotAt b).pending = true → b < 3 := fun b h => by
      by_contra c
      rw [past b (by omega)] at h
      cases h
    have given : ∀ b, b < 3 → (waiting.slotAt b).pending = true →
        (waiting.slotAt b).stamp.toNat < waiting.stamp.toNat := by decide +kernel
    have distinct : ∀ b, b < 3 → ∀ c, c < 3 → (waiting.slotAt b).pending = true → (waiting.slotAt c).pending = true →
        (waiting.slotAt b).stamp = (waiting.slotAt c).stamp → b = c := by decide +kernel
    exact ⟨fun b h => given b (lt b h) h, fun b c h h' => distinct b (lt b h) c (lt c h') h h'⟩
  · intro k _
    match k with
    | 0 => show waiting.evtTakesRecord = true; decide +kernel
    | 1 => show (after (step waiting)).evtTakesRecord = true; decide +kernel
    | _ + 2 => show drained.evtTakesRecord = true; decide +kernel

end Sys2Proof.Tests
end

section
/-! The order of the words and of their values (00_scope.md R12, R13): the low 63 bits order the magnitudes, and
the infinities bound every word that is no NaN. -/

namespace Sys2Proof.F64

open Sys2Proof.Machine

/-! ## The fields of a word, from its low 63 bits -/

theorem expField_eq_div (w : Word) : expField w = w.toNat % 9223372036854775808 / 4503599627370496 := by
  simp only [expField, Nat.shiftRight_eq_div_pow]
  omega

theorem fracField_eq_mod (w : Word) : fracField w = w.toNat % 9223372036854775808 % 4503599627370496 := by
  simp only [fracField]
  omega

theorem isZero_iff (w : Word) : isZero w = true ↔ w.toNat % 9223372036854775808 = 0 := beq_iff_eq

theorem isNaN_iff (w : Word) : isNaN w = true ↔ 0x7FF0000000000000 < w.toNat % 9223372036854775808 := by
  simp only [isNaN, Bool.and_eq_true, beq_iff_eq, bne_iff_ne, expField_eq_div, fracField_eq_mod]
  omega

theorem isInf_iff (w : Word) : isInf w = true ↔ w.toNat % 9223372036854775808 = 0x7FF0000000000000 := by
  simp only [isInf, Bool.and_eq_true, beq_iff_eq, expField_eq_div, fracField_eq_mod]
  omega

theorem signBit_iff (w : Word) : signBit w = true ↔ 9223372036854775808 ≤ w.toNat := by
  rw [signBit, ← BitVec.msb_eq_getLsbD_last, BitVec.msb_eq_decide, decide_eq_true_iff]

/-- A word is its sign bit and its low 63 bits. -/
theorem eq_of_sign_low {a b : Word} (hs : signBit a = signBit b)
    (hl : a.toNat % 9223372036854775808 = b.toNat % 9223372036854775808) : a = b := by
  have high : 9223372036854775808 ≤ a.toNat ↔ 9223372036854775808 ≤ b.toNat := by
    rw [← signBit_iff, ← signBit_iff, hs]
  apply BitVec.eq_of_toNat_eq
  omega

theorem isZero_eq_or {y : Word} (h : isZero y = true) : y = zero ∨ y = negZero := by
  have low := (isZero_iff y).mp h
  cases hs : signBit y
  · exact .inl (eq_of_sign_low (hs.trans (by decide)) (low.trans (by decide)))
  · exact .inr (eq_of_sign_low (hs.trans (by decide)) (low.trans (by decide)))

theorem isNaN_of_isZero {y : Word} (h : isZero y = true) : isNaN y = false := by
  rcases isZero_eq_or h with rfl | rfl <;> decide

/-! ## The low 63 bits order the magnitudes -/

/-- A magnitude below 2^(52 + e), for the exponent field e. -/
theorem mag_lt (w : Word) : mag w < 2 ^ 52 * 2 ^ expField w := by
  have hf : fracField w < 2 ^ 52 := Nat.mod_lt _ (by norm_num)
  unfold mag
  split
  · next h => rw [h]; omega
  · next h =>
    obtain ⟨k, hk⟩ := Nat.exists_eq_succ_of_ne_zero h
    rw [hk, Nat.shiftLeft_eq, Nat.succ_sub_one, pow_succ' 2 k, ← mul_assoc]
    exact Nat.mul_lt_mul_of_pos_right (by omega) (by positivity)

/-- A magnitude of a nonzero exponent field e is at least 2^(51 + e). -/
theorem le_mag (w : Word) {e : Nat} (h : e < expField w) : 2 ^ 52 * 2 ^ e ≤ mag w := by
  rw [mag, if_neg (by omega), Nat.shiftLeft_eq]
  exact Nat.mul_le_mul (by omega) (Nat.pow_le_pow_right (by omega) (by omega))

theorem mag_lt_mag_of_low_lt {a b : Word}
    (h : a.toNat % 9223372036854775808 < b.toNat % 9223372036854775808) : mag a < mag b := by
  rcases Nat.lt_or_ge (expField a) (expField b) with he | he
  · exact (mag_lt a).trans_le (le_mag b he)
  · have ea := expField_eq_div a
    have eb := expField_eq_div b
    have hfa := fracField_eq_mod a
    have hfb := fracField_eq_mod b
    have same : expField a = expField b := by omega
    have frac : fracField a < fracField b := by omega
    unfold mag
    rw [same]
    split
    · exact frac
    · rw [Nat.shiftLeft_eq, Nat.shiftLeft_eq]
      exact Nat.mul_lt_mul_of_pos_right (by omega) (by positivity)

theorem mag_lt_mag_iff (a b : Word) :
    mag a < mag b ↔ a.toNat % 9223372036854775808 < b.toNat % 9223372036854775808 := by
  refine ⟨fun h => ?_, mag_lt_mag_of_low_lt⟩
  by_contra hle
  rcases Nat.lt_or_eq_of_le (Nat.not_lt.mp hle) with hlt | heq
  · exact absurd h (mag_lt_mag_of_low_lt hlt).not_gt
  · simp [mag, expField_eq_div, fracField_eq_mod, heq] at h

theorem mag_eq_zero_iff (w : Word) : mag w = 0 ↔ w.toNat % 9223372036854775808 = 0 := by
  have h := mag_lt_mag_iff zero w
  rw [show mag zero = 0 by decide, show (zero : Word).toNat = 0 by decide] at h
  omega

/-- `order` orders the words as their values are ordered. -/
theorem order_lt_iff (a b : Word) : order a < order b ↔ value a < value b := by
  have hab := mag_lt_mag_iff a b
  have hba := mag_lt_mag_iff b a
  have ha := mag_eq_zero_iff a
  have hb := mag_eq_zero_iff b
  unfold order value
  cases signBit a <;> cases signBit b <;> simp only [Bool.false_eq_true, if_true, if_false] <;> omega

theorem wordValue_lt_iff (a b : Word) : wordValue a < wordValue b ↔ order a < order b := by
  rw [order_lt_iff, wordValue, wordValue, div_lt_div_iff_of_pos_right (by positivity), Int.cast_lt]

theorem wordValue_le_iff (a b : Word) : wordValue a ≤ wordValue b ↔ order a ≤ order b := by
  rw [← not_lt, ← not_lt, wordValue_lt_iff]

theorem wordValue_eq_iff (a b : Word) : wordValue a = wordValue b ↔ order a = order b := by
  rw [le_antisymm_iff, le_antisymm_iff, wordValue_le_iff, wordValue_le_iff]

/-- Only the two zeros share a place in the order. -/
theorem eq_of_order_eq {a b : Word} (h : order a = order b) (hb : isZero b = false) : a = b := by
  rw [Bool.eq_false_iff, ne_eq, isZero_iff] at hb
  unfold order at h
  cases hsa : signBit a <;> cases hsb : signBit b <;>
    simp only [hsa, hsb, Bool.false_eq_true, if_true, if_false] at h
  case false.false | true.true => exact eq_of_sign_low (hsa.trans hsb.symm) (by omega)
  all_goals omega

/-! ## The comparisons, of words that are no NaN -/

theorem lt_iff_order {a b : Word} (ha : isNaN a = false) (hb : isNaN b = false) :
    lt a b = true ↔ order a < order b := by
  simp [lt, ha, hb]

theorem le_iff_order {a b : Word} (ha : isNaN a = false) (hb : isNaN b = false) :
    le a b = true ↔ order a ≤ order b := by
  simp [le, ha, hb]

theorem eq_iff_order {a b : Word} (ha : isNaN a = false) (hb : isNaN b = false) :
    eq a b = true ↔ order a = order b := by
  simp [eq, ha, hb]

/-- Every comparison with a NaN is false (R12). -/
theorem compare_nan {a b : Word} (h : isNaN a = true ∨ isNaN b = true) :
    lt a b = false ∧ le a b = false ∧ eq a b = false := by
  rcases h with h | h <;> simp [lt, le, eq, h]

/-- Only words that are no NaN are less than another (R12). -/
theorem not_nan_of_lt {a b : Word} (h : lt a b = true) : isNaN a = false ∧ isNaN b = false := by
  simp only [lt, Bool.and_eq_true, Bool.not_eq_true'] at h
  exact h.1

theorem lt_false_of_lt {a b : Word} (h : lt a b = true) : lt b a = false := by
  simp only [lt, Bool.and_eq_true, decide_eq_true_eq] at h
  simp only [lt, Bool.and_eq_false_iff, decide_eq_false_iff_not]
  exact .inr (by omega)

/-- The infinities bound the order of the words that are no NaN. -/
theorem order_mem_of_not_nan {a : Word} (h : isNaN a = false) :
    order (neg posInf) ≤ order a ∧ order a ≤ order posInf := by
  rw [Bool.eq_false_iff, ne_eq, isNaN_iff] at h
  rw [show order (neg posInf) = -0x7FF0000000000000 by decide, show order posInf = 0x7FF0000000000000 by decide]
  unfold order
  split <;> omega

theorem order_eq_posInf_iff (a : Word) : order a = order posInf ↔ a = posInf :=
  ⟨fun h => eq_of_order_eq h (by decide), fun h => h ▸ rfl⟩

theorem order_eq_negInf_iff (a : Word) : order a = order (neg posInf) ↔ a = neg posInf :=
  ⟨fun h => eq_of_order_eq h (by decide), fun h => h ▸ rfl⟩

theorem isInf_eq_or (a : Word) : isInf a = true ↔ a = posInf ∨ a = neg posInf := by
  refine ⟨fun h => ?_, ?_⟩
  · have low := (isInf_iff a).mp h
    cases hs : signBit a
    · exact .inl (eq_of_sign_low (by rw [hs]; decide) (by rw [low]; decide))
    · exact .inr (eq_of_sign_low (by rw [hs]; decide) (by rw [low]; decide))
  · rintro (rfl | rfl) <;> decide

/-- +inf is above every other word that is no NaN and -inf below (R12). -/
theorem compare_infinities {a : Word} (h : isNaN a = false) :
    (lt a posInf = true ↔ a ≠ posInf) ∧ le a posInf = true ∧
    lt posInf a = false ∧ (le posInf a = true ↔ a = posInf) ∧
    (lt (neg posInf) a = true ↔ a ≠ neg posInf) ∧ le (neg posInf) a = true ∧
    lt a (neg posInf) = false ∧ (le a (neg posInf) = true ↔ a = neg posInf) ∧
    (eq a posInf = true ↔ a = posInf) ∧ (eq posInf a = true ↔ a = posInf) ∧
    (eq a (neg posInf) = true ↔ a = neg posInf) ∧ (eq (neg posInf) a = true ↔ a = neg posInf) := by
  have hp : isNaN posInf = false := by decide
  have hn : isNaN (neg posInf) = false := by decide
  obtain ⟨lo, hi⟩ := order_mem_of_not_nan h
  simp only [Bool.eq_false_iff, ne_eq, lt_iff_order h hp, lt_iff_order hp h, lt_iff_order h hn, lt_iff_order hn h,
    le_iff_order h hp, le_iff_order hp h, le_iff_order h hn, le_iff_order hn h,
    eq_iff_order h hp, eq_iff_order hp h, eq_iff_order h hn, eq_iff_order hn h,
    ← order_eq_posInf_iff a, ← order_eq_negInf_iff a, true_and]
  omega

/-- The finite words compare as their values. -/
theorem compare_finite {a b : Word} (ha : isFinite a = true) (hb : isFinite b = true) :
    (lt a b = true ↔ wordValue a < wordValue b) ∧ (le a b = true ↔ wordValue a ≤ wordValue b) ∧
    (eq a b = true ↔ wordValue a = wordValue b) := by
  have na := isNaN_of_isFinite ha
  have nb := isNaN_of_isFinite hb
  rw [lt_iff_order na nb, le_iff_order na nb, eq_iff_order na nb, wordValue_lt_iff, wordValue_le_iff, wordValue_eq_iff]
  exact ⟨.rfl, .rfl, .rfl⟩

/-- Settles O56: the low 63 bits of a word order its magnitude, so `order` is the order of the values. -/
theorem comparisonsAreThoseOfTheValues : Obligations.ComparisonsAreThoseOfTheValues :=
  fun a _ => ⟨compare_nan, compare_finite, compare_infinities, isInf_eq_or a⟩

end Sys2Proof.F64
end

section
/-! Rounding a number that an integer stands for: the integer is the number, or an odd integer of more than 54 bits
next to it, as a quotient's and a root's last bit has it. Either way the rounded integer is the number rounded. -/

namespace Sys2Proof.F64

open Sys2Proof.Machine

/-- m is y, or it is odd, less than 1 from y, and has more than 54 bits: what rounding needs to know of y. -/
def StandsFor (m : Nat) (y : ℝ) : Prop := y = m ∨ (m % 2 = 1 ∧ 2 ^ 54 ≤ m ∧ |y - m| < 1)

theorem standsFor_self (m : Nat) : StandsFor m m := .inl rfl

/-- Twice the whole part of z, with its last bit set where z is not whole, stands for 2·z. -/
theorem standsFor_of_floor {q : Nat} {z : ℝ} {whole : Prop} [Decidable whole] (hq : ¬whole → 2 ^ 53 ≤ q)
    (exact : whole → z = q) (inexact : ¬whole → q < z ∧ z < q + 1) :
    StandsFor (2 * q + if whole then 0 else 1) (2 * z) := by
  by_cases h : whole
  · rw [if_pos h, exact h]
    exact .inl (by push_cast; ring)
  · rw [if_neg h]
    obtain ⟨lo, hi⟩ := inexact h
    have := hq h
    refine .inr ⟨by omega, by omega, abs_lt.mpr ?_⟩
    push_cast
    constructor <;> linarith

/-- The leading power of two of m is at most the number m stands for. -/
theorem pow_log2_le {m : Nat} {y : ℝ} (hm : m ≠ 0) (h : StandsFor m y) : (2 : ℝ) ^ Nat.log2 m ≤ y := by
  have lo := Nat.log2_self_le hm
  rcases h with rfl | ⟨odd, big, near⟩
  · exact_mod_cast lo
  · have pos : Nat.log2 m ≠ 0 := fun h0 => by
      have hi := Nat.lt_log2_self (n := m)
      rw [h0] at hi
      omega
    obtain ⟨k, hk⟩ := Nat.exists_eq_succ_of_ne_zero pos
    have even : 2 ^ Nat.log2 m = 2 * 2 ^ k := by rw [hk, pow_succ']
    have below : (2 : ℝ) ^ Nat.log2 m + 1 ≤ m := by exact_mod_cast (by omega : 2 ^ Nat.log2 m + 1 ≤ m)
    linarith [(abs_lt.mp near).1]

/-- The rounded shift of m is nearest to every number that m stands for, and even where it is half a unit away. -/
theorem roundShift_near {m k : Nat} {y : ℝ} (hk : 1 ≤ k) (h : StandsFor m y) (hk2 : 2 ^ 54 ≤ m → 2 ≤ k) :
    |y - roundShift m k * 2 ^ k| ≤ 2 ^ k / 2 ∧
    (|y - roundShift m k * 2 ^ k| = 2 ^ k / 2 → roundShift m k % 2 = 0) := by
  obtain ⟨near, tie⟩ := roundShift_spec m k hk
  have cast : ((|(m : Int) - roundShift m k * 2 ^ k| : Int) : ℝ) = |(m : ℝ) - roundShift m k * 2 ^ k| := by
    push_cast; rfl
  rcases h with rfl | ⟨odd, big, close⟩
  · rw [← cast]
    refine ⟨?_, fun h => ?_⟩
    · rw [le_div_iff₀' (by norm_num)]
      exact_mod_cast near
    · rw [eq_div_iff (by norm_num), mul_comm] at h
      have := tie (by exact_mod_cast h)
      omega
  · -- m is odd and 2^k a multiple of 4, so m is at least 1 nearer than half a unit
    obtain ⟨j, rfl⟩ := Nat.exists_eq_add_of_le' (hk2 big)
    have four : (2 : Int) ^ (j + 2) = 4 * 2 ^ j := by ring
    have strict : 2 * |(m : Int) - roundShift m (j + 2) * 2 ^ (j + 2)| + 2 ≤ 2 ^ (j + 2) := by
      have e : (roundShift m (j + 2) : Int) * 2 ^ (j + 2) = 4 * (roundShift m (j + 2) * 2 ^ j) := by rw [four]; ring
      rw [e, four] at near ⊢
      rcases abs_cases ((m : Int) - 4 * (roundShift m (j + 2) * 2 ^ j)) with ⟨a, -⟩ | ⟨a, -⟩ <;>
        rw [a] at near ⊢ <;> omega
    have strict' : 2 * |(m : ℝ) - roundShift m (j + 2) * 2 ^ (j + 2)| + 2 ≤ 2 ^ (j + 2) := by
      rw [← cast]
      exact_mod_cast strict
    have tri := abs_sub_le y m (roundShift m (j + 2) * 2 ^ (j + 2))
    have lt : |y - roundShift m (j + 2) * 2 ^ (j + 2)| < 2 ^ (j + 2) / 2 := by linarith
    exact ⟨lt.le, fun h => absurd h lt.ne⟩

/-- The significand of m is nearest to y·2^e in units in the last place, where m stands for y, and even where it is
half a unit away. -/
theorem significand_near {m : Nat} {y : ℝ} (e : Int) (h : StandsFor m y) :
    |y * 2 ^ e - significand m e * 2 ^ ulpExp m e| ≤ 2 ^ ulpExp m e / 2 ∧
    (|y * 2 ^ e - significand m e * 2 ^ ulpExp m e| = 2 ^ ulpExp m e / 2 → significand m e % 2 = 0) := by
  have hu : ulpExp m e = max (e + (Nat.log2 m : Int) - 52) (-1074) := rfl
  have log : 2 ^ 54 ≤ m → 54 ≤ Nat.log2 m := fun h => (Nat.le_log2 (by omega)).mpr h
  have pu : (0 : ℝ) < 2 ^ ulpExp m e := by positivity
  have pe : (0 : ℝ) < 2 ^ e := by positivity
  unfold significand
  split
  · next hle =>
    have whole : y = m := h.resolve_right fun ⟨_, big, _⟩ => by have := log big; omega
    have units : (2 : ℝ) ^ e = 2 ^ (e - ulpExp m e).toNat * 2 ^ ulpExp m e := by
      rw [← zpow_natCast, ← zpow_add₀ (by norm_num)]
      congr 1; omega
    have zero : y * 2 ^ e - ((m <<< (e - ulpExp m e).toNat : Nat) : ℝ) * 2 ^ ulpExp m e = 0 := by
      rw [whole, units, Nat.shiftLeft_eq]
      push_cast; ring
    rw [zero, abs_zero]
    exact ⟨by positivity, fun h => absurd h (by positivity)⟩
  · next hlt =>
    obtain ⟨k, hk⟩ : ∃ k : Nat, ulpExp m e = e + k := ⟨(ulpExp m e - e).toNat, by omega⟩
    have units : (2 : ℝ) ^ ulpExp m e = 2 ^ k * 2 ^ e := by
      rw [hk, ← zpow_natCast, ← zpow_add₀ (by norm_num), add_comm]
    rw [show (ulpExp m e - e).toNat = k by omega, units]
    obtain ⟨near, tie⟩ := roundShift_near (k := k) (by omega) h fun big => by have := log big; omega
    have scale : |y * 2 ^ e - roundShift m k * (2 ^ k * 2 ^ e)| = |y - roundShift m k * 2 ^ k| * 2 ^ e := by
      rw [← abs_of_pos pe, ← abs_mul, abs_of_pos pe]
      congr 1; ring
    rw [scale, mul_div_right_comm]
    exact ⟨mul_le_mul_of_nonneg_right near pe.le, fun h => tie (mul_right_cancel₀ pe.ne' h)⟩

/-- Rounding ±m·2^e rounds ±y·2^e, for every y that m stands for. -/
theorem roundsTo_round (neg : Bool) {m : Nat} {y : ℝ} (e : Int) (h : StandsFor m y) :
    RoundsTo ((if neg then -1 else 1) * y * 2 ^ e) (round neg m e) := by
  have sign : (if neg then -1 else 1) * y * 2 ^ e = if neg then -(y * 2 ^ e) else y * 2 ^ e := by
    cases neg <;> simp
  rcases eq_or_ne m 0 with rfl | hm
  · obtain rfl : y = 0 := by
      rcases h with h | ⟨odd, -⟩
      · simpa using h
      · simp at odd
    simpa [round] using roundsTo_zero neg
  · obtain ⟨b1, b2, b3⟩ := significand_bounds m e hm
    obtain ⟨near, tie⟩ := significand_near e h
    have lead := pow_log2_le hm h
    have pe : (0 : ℝ) < 2 ^ e := by positivity
    rw [sign, round, if_neg hm]
    refine roundsTo_pack neg _ _ _ near tie b1 b3 ?_ (mul_nonneg (le_trans (by positivity) lead) pe.le)
    rcases eq_or_ne (ulpExp m e) (-1074) with hu | hu
    · exact .inl hu
    · refine .inr ⟨b2.resolve_left hu, ?_⟩
      have top : (2 : ℝ) ^ 52 * 2 ^ ulpExp m e = 2 ^ Nat.log2 m * 2 ^ e := by
        rw [← zpow_natCast, ← zpow_natCast, ← zpow_add₀ (by norm_num), ← zpow_add₀ (by norm_num)]
        congr 1
        have : ulpExp m e = max (e + (Nat.log2 m : Int) - 52) (-1074) := rfl
        push_cast
        omega
      rw [top]
      exact mul_le_mul_of_nonneg_right lead pe.le

/-- Settles O54: an integer stands for itself. -/
theorem roundingIsToNearestTiesToEven : Obligations.RoundingIsToNearestTiesToEven := by
  intro neg m e
  refine ⟨roundsTo_round neg e (standsFor_self m), ?_⟩
  rintro rfl
  cases neg <;> rfl

end Sys2Proof.F64
end

section
/-! The five operations on finite words: each rounds a number that stands for the exact result; and the one word
that a representable result rounds to. -/

namespace Sys2Proof.F64

open Sys2Proof.Machine

/-! ## Finite words -/

/-- A finite word is no infinity. -/
theorem isInf_of_isFinite {w : Word} (h : isFinite w = true) : isInf w = false := by
  simp only [isFinite, isInf, bne_iff_ne, ne_eq, Bool.and_eq_false_iff, beq_eq_false_iff_ne] at *
  exact .inl h

theorem isZero_iff_mag (w : Word) : isZero w = true ↔ mag w = 0 := by rw [isZero_iff, mag_eq_zero_iff]

theorem mag_ne_zero {w : Word} (h : isZero w = false) : mag w ≠ 0 := by
  rw [ne_eq, ← isZero_iff_mag, h]
  decide

theorem wordValue_eq_value (w : Word) : (wordValue w : ℝ) = value w * 2 ^ (-1074 : Int) := by
  rw [zpow_neg, ← div_eq_mul_inv, wordValue, Rat.cast_div, Rat.cast_intCast, Rat.cast_pow, Rat.cast_ofNat]
  rfl

/-- A value is its sign times its magnitude, in units of 2^-1074. -/
theorem wordValue_eq_mag (w : Word) :
    (wordValue w : ℝ) = (if signBit w then -1 else 1) * mag w * 2 ^ (-1074 : Int) := by
  rw [wordValue_eq_value, value]
  split <;> simp

theorem wordValue_neg (w : Word) : wordValue (neg w) = -wordValue w := by
  rw [wordValue, value_neg, Int.cast_neg, neg_div, wordValue]

/-- The sign of a product is the exclusive or of the signs. -/
theorem sign_mul_sign (p q : Bool) :
    (if p then -1 else 1 : ℝ) * (if q then -1 else 1) = if p != q then -1 else 1 := by
  cases p <;> cases q <;> norm_num

/-- A magnitude is at most 2^53 - 1 units in the last place. -/
theorem mag_le (w : Word) : mag w ≤ (2 ^ 53 - 1) * 2 ^ (expField w - 1) := by
  have hf : fracField w < 2 ^ 52 := Nat.mod_lt _ (by norm_num)
  unfold mag
  split
  · exact (show fracField w ≤ 2 ^ 53 - 1 by omega).trans (Nat.le_mul_of_pos_right _ (by positivity))
  · rw [Nat.shiftLeft_eq]
    exact Nat.mul_le_mul_right _ (by omega)

/-- Every finite value is inside the range that rounds to finite values. -/
theorem abs_wordValue_lt {w : Word} (h : isFinite w = true) : |(wordValue w : ℝ)| < 2 ^ 1024 - 2 ^ 970 := by
  have he : expField w ≤ 2046 := by
    have : expField w < 2048 := Nat.mod_lt _ (by norm_num)
    have : expField w ≠ 2047 := by simpa [isFinite] using h
    omega
  have hm : (mag w : ℝ) ≤ 9007199254740991 * 2 ^ (expField w - 1) := by exact_mod_cast mag_le w
  have unit : (2 : ℝ) ^ (expField w - 1) * 2 ^ (-1074 : Int) ≤ 2 * 2 ^ 970 := by
    rw [← zpow_natCast, ← zpow_add₀ (by norm_num), ← pow_succ', ← zpow_natCast]
    exact zpow_le_zpow_right₀ (by norm_num) (by omega)
  have size : |(wordValue w : ℝ)| = mag w * 2 ^ (-1074 : Int) := by
    rw [wordValue_eq_mag, abs_mul, abs_mul, abs_of_pos (by positivity : (0 : ℝ) < 2 ^ (-1074 : Int)), Nat.abs_cast]
    split <;> simp
  have below : ∀ P : ℝ, 0 < P → 9007199254740991 * (2 * P) < 2 ^ 54 * P - P := fun P hP => by linarith
  calc |(wordValue w : ℝ)| = mag w * 2 ^ (-1074 : Int) := size
    _ ≤ 9007199254740991 * 2 ^ (expField w - 1) * 2 ^ (-1074 : Int) := mul_le_mul_of_nonneg_right hm (by positivity)
    _ ≤ 9007199254740991 * (2 * 2 ^ 970) := by
      rw [mul_assoc]
      exact mul_le_mul_of_nonneg_left unit (by norm_num)
    _ < 2 ^ 54 * 2 ^ 970 - 2 ^ 970 := below _ (by positivity)
    _ = 2 ^ 1024 - 2 ^ 970 := by rw [← pow_add]

/-- A finite value that is no zero rounds to its own word alone. -/
theorem eq_of_roundsTo {c w : Word} (hc : isFinite c = true) (hz : isZero c = false)
    (h : RoundsTo (wordValue c) w) : w = c := by
  have range := abs_wordValue_lt hc
  have near := h.nearest range c hc
  rw [sub_self, abs_zero, abs_nonpos_iff, sub_eq_zero] at near
  exact (eq_of_order_eq ((wordValue_eq_iff c w).mp (by exact_mod_cast near)).symm hz)

/-! ## Sums and differences -/

theorem add_of_finite {a b : Word} (ha : isFinite a = true) (hb : isFinite b = true) :
    add a b = if value a + value b = 0 then (if signBit a && signBit b then negZero else zero)
      else round (decide (value a + value b < 0)) (value a + value b).natAbs (-1074) := by
  simp [add, isNaN_of_isFinite ha, isNaN_of_isFinite hb, isInf_of_isFinite ha, isInf_of_isFinite hb]

theorem wordValue_add (a b : Word) :
    (wordValue a + wordValue b : ℝ) = ((value a + value b : Int) : ℝ) * 2 ^ (-1074 : Int) := by
  rw [wordValue_eq_value, wordValue_eq_value]
  push_cast
  ring

theorem wordValue_add_eq_zero_iff (a b : Word) : wordValue a + wordValue b = 0 ↔ value a + value b = 0 := by
  rw [wordValue, wordValue, ← add_div, div_eq_zero_iff, or_iff_left (pow_ne_zero _ two_ne_zero)]
  exact_mod_cast Iff.rfl

/-- An integer is its sign times its absolute value. -/
theorem cast_eq_sign_mul_natAbs (s : Int) : (s : ℝ) = (if decide (s < 0) then -1 else 1) * s.natAbs := by
  rw [Nat.cast_natAbs]
  by_cases h : s < 0
  · simp [h, abs_of_neg h]
  · simp [h, abs_of_nonneg (Int.not_lt.mp h)]

theorem roundsTo_add {a b : Word} (ha : isFinite a = true) (hb : isFinite b = true) :
    RoundsTo (wordValue a + wordValue b) (add a b) := by
  rw [add_of_finite ha hb, wordValue_add]
  split
  · next h =>
    rw [h, Int.cast_zero, zero_mul]
    split
    · exact roundsTo_zero true
    · exact roundsTo_zero false
  · rw [cast_eq_sign_mul_natAbs]
    exact roundsTo_round _ _ (standsFor_self _)

/-- An exactly zero sum is +0.0 unless both terms have the sign bit. -/
theorem add_of_zero_sum {a b : Word} (ha : isFinite a = true) (hb : isFinite b = true)
    (h : wordValue a + wordValue b = 0) : add a b = if signBit a && signBit b then negZero else zero := by
  rw [add_of_finite ha hb, if_pos ((wordValue_add_eq_zero_iff a b).mp h)]

theorem roundsTo_sub {a b : Word} (ha : isFinite a = true) (hb : isFinite b = true) :
    RoundsTo (wordValue a - wordValue b) (sub a b) := by
  have h := roundsTo_add ha ((isFinite_neg b).trans hb)
  rw [wordValue_neg, Rat.cast_neg, ← sub_eq_add_neg] at h
  exact h

theorem sub_of_zero_difference {a b : Word} (ha : isFinite a = true) (hb : isFinite b = true)
    (h : wordValue a - wordValue b = 0) : sub a b = if signBit a && !signBit b then negZero else zero := by
  rw [sub, add_of_zero_sum ha ((isFinite_neg b).trans hb) (by rw [wordValue_neg, ← sub_eq_add_neg, h]), neg_sign]

/-! ## Products -/

theorem mul_of_finite {a b : Word} (ha : isFinite a = true) (hb : isFinite b = true) :
    mul a b = round (signBit a != signBit b) (mag a * mag b) (-2148) := by
  simp [mul, isNaN_of_isFinite ha, isNaN_of_isFinite hb, isInf_of_isFinite ha, isInf_of_isFinite hb]

theorem roundsTo_mul {a b : Word} (ha : isFinite a = true) (hb : isFinite b = true) :
    RoundsTo (wordValue a * wordValue b) (mul a b) := by
  have result : (wordValue a * wordValue b : ℝ) =
      (if signBit a != signBit b then -1 else 1) * (mag a * mag b : Nat) * 2 ^ (-2148 : Int) := by
    have unit : (2 : ℝ) ^ (-2148 : Int) = 2 ^ (-1074 : Int) * 2 ^ (-1074 : Int) := by
      rw [← zpow_add₀ (by norm_num)]; rfl
    rw [wordValue_eq_mag, wordValue_eq_mag, ← sign_mul_sign, unit]
    push_cast
    ring
  rw [mul_of_finite ha hb, result]
  exact roundsTo_round _ _ (standsFor_self _)

/-! ## Quotients -/

theorem div_of_finite {a b : Word} (ha : isFinite a = true) (hb : isFinite b = true) (hz : isZero b = false) :
    div a b = round (signBit a != signBit b) (quotient (mag a) (mag b)).1 (quotient (mag a) (mag b)).2 := by
  simp [div, isNaN_of_isFinite ha, isNaN_of_isFinite hb, isInf_of_isFinite ha, isInf_of_isFinite hb, hz]

/-- The quotient's number stands for the exact quotient. -/
theorem quotient_standsFor (n : Nat) {d : Nat} (hd : d ≠ 0) :
    ∃ y : ℝ, StandsFor (quotient n d).1 y ∧ (n / d : ℝ) = y * 2 ^ (quotient n d).2 := by
  simp only [quotient]
  generalize hk : Nat.log2 d + 57 = k
  rw [Nat.shiftLeft_eq]
  have hd' : (0 : ℝ) < d := by exact_mod_cast Nat.pos_of_ne_zero hd
  have divide : ((n * 2 ^ k : Nat) : ℝ) = d * (n * 2 ^ k / d : Nat) + (n * 2 ^ k % d : Nat) := by
    exact_mod_cast (Nat.div_add_mod (n * 2 ^ k) d).symm
  refine ⟨2 * ((n * 2 ^ k : Nat) / d : ℝ), standsFor_of_floor ?_ ?_ ?_, ?_⟩
  · intro h
    have hn : 1 ≤ n := Nat.one_le_iff_ne_zero.mpr fun h0 => h (by simp [h0])
    have hlog := Nat.lt_log2_self (n := d)
    rw [Nat.le_div_iff_mul_le (Nat.pos_of_ne_zero hd)]
    calc 2 ^ 53 * d ≤ 2 ^ 53 * 2 ^ (Nat.log2 d + 1) := Nat.mul_le_mul_left _ hlog.le
      _ = 2 ^ (Nat.log2 d + 54) := by rw [← pow_add]; congr 1; omega
      _ ≤ 2 ^ k := Nat.pow_le_pow_right (by omega) (by omega)
      _ ≤ n * 2 ^ k := Nat.le_mul_of_pos_left _ hn
  · intro h
    rw [div_eq_iff hd'.ne', divide, h]
    push_cast
    ring
  · intro h
    have pos : (0 : ℝ) < (n * 2 ^ k % d : Nat) := by exact_mod_cast Nat.pos_of_ne_zero h
    have lt : ((n * 2 ^ k % d : Nat) : ℝ) < d := by exact_mod_cast Nat.mod_lt _ (Nat.pos_of_ne_zero hd)
    rw [lt_div_iff₀ hd', div_lt_iff₀ hd', divide]
    constructor <;> linarith
  · have unit : (2 : ℝ) ^ (-((k : Int) + 1)) = (2 * 2 ^ k)⁻¹ := by
      rw [zpow_neg, zpow_add_one₀ (by norm_num), zpow_natCast, mul_comm]
    rw [unit]
    push_cast
    field_simp

theorem roundsTo_div {a b : Word} (ha : isFinite a = true) (hb : isFinite b = true) (hz : isZero b = false) :
    RoundsTo (wordValue a / wordValue b) (div a b) := by
  obtain ⟨y, stands, hy⟩ := quotient_standsFor (mag a) (mag_ne_zero hz)
  have result : (wordValue a / wordValue b : ℝ) =
      (if signBit a != signBit b then -1 else 1) * y * 2 ^ (quotient (mag a) (mag b)).2 := by
    have inv : (if signBit b then -1 else 1 : ℝ) = (if signBit b then -1 else 1)⁻¹ := by split <;> norm_num
    rw [wordValue_eq_mag, wordValue_eq_mag, mul_div_mul_right _ _ (by positivity), mul_div_mul_comm, hy,
      ← sign_mul_sign, div_eq_mul_inv, ← inv, mul_assoc, mul_assoc, mul_assoc]
  rw [div_of_finite ha hb hz, result]
  exact roundsTo_round _ _ stands

/-! ## Square roots -/

theorem sqrt_of_zero {a : Word} (h : isZero a = true) : sqrt a = a := by
  simp [sqrt, h, isNaN_of_isZero h]

theorem sqrt_of_pos {a : Word} (ha : isFinite a = true) (hz : isZero a = false) (hs : signBit a = false) :
    sqrt a = round false (rootBits (mag a) (-537)).1 (rootBits (mag a) (-537)).2 := by
  simp [sqrt, isNaN_of_isFinite ha, isInf_of_isFinite ha, hz, hs]

/-- The root's number stands for the exact root. -/
theorem rootBits_standsFor {n : Nat} (hn : n ≠ 0) (e : Int) :
    ∃ y : ℝ, StandsFor (rootBits n e).1 y ∧ √(n * 2 ^ (2 * e)) = y * 2 ^ (rootBits n e).2 := by
  simp only [rootBits]
  rw [Nat.shiftLeft_eq]
  obtain ⟨lo, hi⟩ := isqrt_spec (n * 2 ^ 116)
  generalize isqrt (n * 2 ^ 116) = r at *
  have lo' : (r : ℝ) * r ≤ (n * 2 ^ 116 : Nat) := by exact_mod_cast lo
  have hi' : ((n * 2 ^ 116 : Nat) : ℝ) < (r + 1) * (r + 1) := by exact_mod_cast hi
  refine ⟨2 * √((n * 2 ^ 116 : Nat) : ℝ), standsFor_of_floor (fun _ => ?_) (fun h => ?_) (fun h => ?_), ?_⟩
  · have := Nat.one_le_iff_ne_zero.mpr hn
    by_contra hlt
    have := Nat.mul_le_mul (show r + 1 ≤ 2 ^ 53 by omega) (show r + 1 ≤ 2 ^ 53 by omega)
    omega
  · rw [← h, Nat.cast_mul, Real.sqrt_mul_self (Nat.cast_nonneg r)]
  · have ne : (r : ℝ) * r ≠ (n * 2 ^ 116 : Nat) := by exact_mod_cast h
    rw [Real.lt_sqrt (Nat.cast_nonneg r), Real.sqrt_lt' (by positivity), sq, sq]
    exact ⟨lt_of_le_of_ne lo' ne, hi'⟩
  · have e1 : (n : ℝ) * 2 ^ (2 * e) = (n * 2 ^ 116 : Nat) * (2 ^ (e - 58)) ^ 2 := by
      have : (2 : ℝ) ^ (2 * e) = 2 ^ (116 : Int) * (2 ^ (e - 58)) ^ 2 := by
        rw [← zpow_natCast, ← zpow_mul, ← zpow_add₀ (by norm_num)]
        congr 1
        push_cast
        ring
      rw [this]
      push_cast
      ring
    have e2 : (2 : ℝ) ^ (e - 58) = 2 * 2 ^ (e - 59) := by
      rw [← zpow_one_add₀ (by norm_num)]
      congr 1
      ring
    rw [e1, Real.sqrt_mul (Nat.cast_nonneg _), Real.sqrt_sq (by positivity), e2]
    ring

theorem roundsTo_sqrt {a : Word} (ha : isFinite a = true) (hs : signBit a = false) :
    RoundsTo √(wordValue a) (sqrt a) := by
  have hv := wordValue_eq_mag a
  rw [hs, if_neg Bool.false_ne_true, one_mul] at hv
  by_cases hz : isZero a = true
  · have plus : a = pack false 0 := eq_of_sign_low (hs.trans (by decide)) ((isZero_iff a).mp hz |>.trans (by decide))
    rw [sqrt_of_zero hz, hv, (isZero_iff_mag a).mp hz, plus]
    simpa using roundsTo_zero false
  · rw [Bool.not_eq_true] at hz
    obtain ⟨y, stands, root⟩ := rootBits_standsFor (mag_ne_zero hz) (-537)
    rw [sqrt_of_pos ha hz hs, hv, show (-1074 : Int) = 2 * -537 by norm_num, root]
    simpa using roundsTo_round false (rootBits (mag a) (-537)).2 stands

/-! ## The operations together -/

/-- Settles O55: every operation rounds a number that stands for the exact result, and a representable result has
one word to round to. -/
theorem arithmeticRoundsTheExactResult : Obligations.ArithmeticRoundsTheExactResult := by
  intro a b ha hb
  refine ⟨⟨roundsTo_add ha hb, add_of_zero_sum ha hb⟩, ⟨roundsTo_sub ha hb, sub_of_zero_difference ha hb⟩,
    ⟨roundsTo_mul ha hb, ?_⟩, fun hz => ⟨roundsTo_div ha hb hz, ?_⟩, sqrt_of_zero, roundsTo_sqrt ha,
    fun c hc hz => ⟨fun h => eq_of_roundsTo hc hz ?_, fun h => eq_of_roundsTo hc hz ?_⟩⟩
  · rw [mul_of_finite ha hb, round_sign]
  · rw [div_of_finite ha hb hz, round_sign]
  · rw [← h, Rat.cast_add]
    exact roundsTo_add ha hb
  · rw [← h, Rat.cast_mul]
    exact roundsTo_mul ha hb

end Sys2Proof.F64
end

section
/-! The special values of every NUM (00_scope.md R18). The reference functions and a library's own are held to them in
one place each, so no property of the underlying function is used. -/

namespace Sys2Proof.Num

open Config (NumSel)

/-- A result held to a bound lies within it. -/
theorem le_within {bound : Word} (w : Word) (lo : F64.le (F64.neg bound) F64.zero = true)
    (hi : F64.le F64.zero bound = true) :
    F64.le (F64.neg bound) (within bound w) = true ∧ F64.le (within bound w) bound = true := by
  unfold within
  split
  · next h => exact Bool.and_eq_true_iff.mp h
  · exact ⟨lo, hi⟩

theorem sin_mem (n : NumSel) {x : Word} (h : F64.isFinite x = true) :
    F64.le (F64.neg F64.one) (sin n x) = true ∧ F64.le (sin n x) F64.one = true := by
  rw [sin, if_pos h]
  exact le_within _ (by decide) (by decide)

theorem cos_mem (n : NumSel) {x : Word} (h : F64.isFinite x = true) :
    F64.le (F64.neg F64.one) (cos n x) = true ∧ F64.le (cos n x) F64.one = true := by
  rw [cos, if_pos h]
  exact le_within _ (by decide) (by decide)

theorem sin_cos_of_not_finite (n : NumSel) {x : Word} (h : F64.isFinite x = false) :
    F64.isNaN (sin n x) = true ∧ F64.isNaN (cos n x) = true := by
  rw [sin, cos, if_neg (by simp [h]), if_neg (by simp [h])]
  decide

theorem pow_ten_zero (n : NumSel) : pow n ten F64.zero = F64.one := if_pos ⟨rfl, rfl⟩

/-! ## atan2 -/

theorem atan2_nan (n : NumSel) {y x : Word} (h : F64.isNaN x = true ∨ F64.isNaN y = true) :
    F64.isNaN (atan2 n y x) = true := by
  rw [atan2, if_pos (by simpa [or_comm] using h)]
  decide

/-- A zero over a positive number or +0.0 is that zero. -/
theorem atan2_zero_of_pos (n : NumSel) {y x : Word} (hy : F64.isZero y = true)
    (hx : F64.lt F64.zero x = true ∨ x = F64.zero) : atan2 n y x = y := by
  have nan : F64.isNaN x = false := by
    rcases hx with hx | rfl
    · exact (F64.not_nan_of_lt hx).2
    · decide
  simp [atan2, nan, F64.isNaN_of_isZero hy, hy, hx]

/-- A zero over a negative number or -0.0 is PI of the zero's sign. -/
theorem atan2_zero_of_neg (n : NumSel) {y x : Word} (hy : F64.isZero y = true)
    (hx : F64.lt x F64.zero = true ∨ x = F64.negZero) :
    atan2 n y x = if F64.signBit y then F64.neg F64.PI else F64.PI := by
  have other : F64.isNaN x = false ∧ F64.lt F64.zero x = false ∧ x ≠ F64.zero := by
    rcases hx with hx | rfl
    · refine ⟨(F64.not_nan_of_lt hx).1, F64.lt_false_of_lt hx, ?_⟩
      rintro rfl
      exact absurd hx (by decide)
    · decide
  obtain ⟨nan, notPos, notZero⟩ := other
  simp [atan2, nan, F64.isNaN_of_isZero hy, hy, notPos, notZero]

theorem atan2_mem (n : NumSel) {y x : Word} (hx : F64.isNaN x = false) (hy : F64.isNaN y = false) :
    F64.le (F64.neg F64.PI) (atan2 n y x) = true ∧ F64.le (atan2 n y x) F64.PI = true := by
  rw [atan2, if_neg (by simp [hx, hy])]
  split
  · next h =>
    rcases F64.isZero_eq_or (Bool.and_eq_true_iff.mp h).1 with rfl | rfl <;> decide
  · split
    · split <;> decide
    · exact le_within _ (by decide) (by decide)

/-! ## hypot -/

theorem hypot_of_inf (n : NumSel) {x y : Word} (h : F64.isInf x = true ∨ F64.isInf y = true) :
    hypot n x y = F64.posInf := by
  rw [hypot, if_pos (by simpa using h)]

theorem zero_le_hypot (n : NumSel) {x y : Word} (hx : F64.isNaN x = false) (hy : F64.isNaN y = false) :
    F64.le F64.zero (hypot n x y) = true := by
  rw [hypot]
  split
  · decide
  · rw [if_neg (by simp [hx, hy])]
    split
    · assumption
    · decide

/-- Settles O58, a clause for each function's special values. -/
theorem everyNumMeetsItsSpecialValues : Obligations.EveryNumMeetsItsSpecialValues := by
  intro n x y
  refine ⟨?_, fun h => ⟨sin_mem n h, cos_mem n h⟩, sin_cos_of_not_finite n, atan2_nan n, atan2_mem n,
    atan2_zero_of_pos n, atan2_zero_of_neg n, hypot_of_inf n, zero_le_hypot n⟩
  rw [pow_ten_zero]
  decide

end Sys2Proof.Num

namespace Sys2Proof.Machine

/-- `buildValid` checks the parameters of R7 one by one. -/
theorem buildValid_iff (B : Config.Build) :
    buildValid B = true ↔
      (1 ≤ B.nBands ∧ B.nBands ≤ 256) ∧ (1 ≤ B.maxChannels ∧ B.maxChannels ≤ 65535) ∧
      (1 ≤ B.mQuery ∧ B.mQuery ≤ 8192) ∧ (F64.lt F64.zero B.sr0 = true ∧ F64.lt B.sr0 F64.posInf = true) ∧
      (1 ≤ B.c0 ∧ B.c0 ≤ B.maxChannels) ∧
      (F64.lt F64.zero B.fLo = true ∧ F64.le B.fLo B.fHi = true ∧ F64.lt B.fHi F64.posInf = true) ∧
      (F64.lt F64.zero B.q0 = true ∧ F64.isFinite B.q0 = true) := by
  simp only [buildValid, validRate, Bool.and_eq_true, decide_eq_true_eq]
  tauto

/-- A build has a reset state exactly when it is valid. -/
theorem instantiate_ok_iff (B : Config.Build) : (∃ s, instantiate B = .ok s) ↔ buildValid B = true := by
  unfold instantiate
  split <;> simp [*]

/-- Settles O14. -/
theorem onlyValidBuildsHaveAResetState : Obligations.OnlyValidBuildsHaveAResetState :=
  fun B => (instantiate_ok_iff B).trans (buildValid_iff B)

end Sys2Proof.Machine
end

section
/-! What an instruction can do and what a turn can do, each said once as an inversion: the next state in closed form, in
terms of the shared operations. Claims about every step split along these cases. -/

namespace Sys2Proof.Machine

/-! ## The effects of an instruction -/

/-- P's state after it has filtered a frame, but for the status (41_filter.md R199). -/
def State.filtered (s : State) (xs : List Word) : State :=
  State.toSout { s with hist := (lanes s.draws s.coef 0 xs s.hist).2, draws := s.draws + 1 }
    (wordN 0x40 0 s.channelCount :: (lanes s.draws s.coef 0 xs s.hist).1)

/-- The ways an instruction takes s to a next state. -/
inductive Effect (s : State) : Instr → State → Prop where
  | edits {i : Instr} (port : i.port = some .cmd) (b : Nat) (band : b < s.build.nBands) (p : Params) :
    Effect s i ((s.apply b p).withCstatus .ok i.opcode)
  | findsNoBand {i : Instr} (port : i.port = some .cmd) : Effect s i (s.withCstatus .notFound i.opcode)
  | results {i : Instr} (port : i.port = some .qcmd) (rs : Vector Word 10) :
    Effect s i { s with qres := rs, qstatus := ⟨.ok, i.opcode⟩ }
  | responds {i : Instr} (port : i.port = some .qcmd) (n : Nat) (fits : n ≤ s.build.mQuery) (f : Word → Response) :
    Effect s i ((s.respond n f).withQstatus .ok i.opcode)
  | failsQuery {i : Instr} (port : i.port = some .qcmd) (code : Code) (bad : code ≠ .ok) :
    Effect s i (s.withQstatus code i.opcode)
  | filters (xs : List Word) (count : xs.length = s.channels) (room : s.soutTakesFrame = true) :
    Effect s (.frame xs) ((s.filtered xs).withSstatus .ok 0x40)
  | waitsForSout (xs : List Word) (count : xs.length = s.channels) (full : s.soutTakesFrame = false) :
    Effect s (.frame xs) s
  | rates (sr : Word) (valid : validRate sr = true) : Effect s (.rate sr) ((s.setRate sr).withSstatus .ok 0x41)
  | counts (n : Count) (pos : 1 ≤ n.toNat) (fits : n.toNat ≤ s.build.maxChannels) :
    Effect s (.channels n) ((State.resetHist { s with channelCount := n }).withSstatus .ok 0x42)
  | clears : Effect s .discontinuity (s.resetHist.withSstatus .ok 0x43)
  | failsToken {i : Instr} (port : i.port = some .sin) (code : Code) (bad : code ≠ .ok) :
    Effect s i (s.withSstatus code i.opcode)
  | delivers (b : Nat) (next : s.nextDelivery = some b) (room : s.evtTakesRecord = true) :
    Effect s .deliver (s.delivered b)
  | waitsForEvt (idle : s.nextDelivery = none ∨ s.evtTakesRecord = false) : Effect s .deliver s

/-- The five setters share one body (42_control.md R230, R232). -/
theorem setter_effect {i : Instr} {s t : State} {b : BandId} {e : Params → Params} (port : i.port = some .cmd)
    (h : setter i.opcode b e s = .next t) : Effect s i t := by
  unfold setter at h
  split at h <;> cases h
  · next hb => exact .edits port b.toNat (of_decide_eq_true hb) _
  · exact .findsNoBand port

theorem exec_effect {i : Instr} {s t : State} (h : exec i s = .next t) : Effect s i t := by
  cases i with
  | setFreq b | setQ b | setGain b | setType b _ | setParams b _ =>
    simp only [exec, execSetFreq, execSetQ, execSetGain, execSetType, execSetParams] at h
    exact setter_effect rfl h
  | design ft =>
    simp only [exec, execDesign] at h
    split at h <;> cases h
    · exact .results rfl _
    · exact .failsQuery rfl _ nofun
  | readBand b =>
    simp only [exec, execReadBand] at h
    split at h <;> cases h
    · exact .results rfl _
    · exact .failsQuery rfl _ nofun
  | response n =>
    simp only [exec, execResponse] at h
    split at h
    · next fits =>
      split at h <;> cases h
      · exact .responds rfl _ (of_decide_eq_true fits) _
      · exact .failsQuery rfl _ nofun
    · cases h; exact .failsQuery rfl _ nofun
  | responseBand b n =>
    simp only [exec, execResponseBand] at h
    split at h
    · split at h <;> cases h
      · next fits => exact .responds rfl _ (of_decide_eq_true fits) _
      · exact .failsQuery rfl _ nofun
    · cases h; exact .failsQuery rfl _ nofun
  | responseChain n =>
    simp only [exec, execResponseChain] at h
    split at h <;> cases h
    · next fits => exact .responds rfl _ (of_decide_eq_true fits) _
    · exact .failsQuery rfl _ nofun
  | frame xs =>
    simp only [exec, execFrame] at h
    split at h
    · cases h; exact .failsToken rfl _ nofun
    · next count =>
      split at h <;> cases h
      · next room => exact .filters xs (not_not.mp count) room
      · next full => exact .waitsForSout xs (not_not.mp count) (Bool.eq_false_of_not_eq_true full)
  | rate sr =>
    simp only [exec, execRate] at h
    split at h <;> cases h
    · next valid => exact .rates sr valid
    · exact .failsToken rfl _ nofun
  | channels n =>
    simp only [exec, execChannels] at h
    split at h <;> cases h
    · exact .failsToken rfl _ nofun
    · next ok => exact .counts n (by omega) (by omega)
  | discontinuity => cases h; exact .clears
  | deliver =>
    simp only [exec, execDeliver] at h
    split at h
    · next b next =>
      split at h <;> cases h
      · next room => exact .delivers b next room
      · next full => exact .waitsForEvt (.inr (Bool.eq_false_of_not_eq_true full))
    · next none => cases h; exact .waitsForEvt (.inl none)

/-! ## The outcomes of a turn -/

/-- The ways a turn takes s to a next state (20_memory.md R80 to R87). -/
inductive TurnTakes (s : State) : Turn → State → Prop where
  /-- no host access is on the bus -/
  | busIdle (bus : s.bus = []) : TurnTakes s .bus s
  | controls {t : State} {a : Addr} {w : Word} {i : Instr} (more : List Access) (bus : s.bus = .write a 8 w :: more)
    (reg : regAt s.build.mQuery a = .cmd) (decoded : decodeCmd w = .ok i)
    (runs : exec i { s with bus := more } = .next t) : TurnTakes s .bus t
  | controlsNothing {a : Addr} {w : Word} {e : DecodeError} (more : List Access) (bus : s.bus = .write a 8 w :: more)
    (reg : regAt s.build.mQuery a = .cmd) (illegal : decodeCmd w = .error e) :
    TurnTakes s .bus (State.withCstatus { s with bus := more } .badCommand (opField w))
  | queries {t : State} {a : Addr} {w : Word} {i : Instr} (more : List Access) (bus : s.bus = .write a 8 w :: more)
    (reg : regAt s.build.mQuery a = .qcmd) (decoded : decodeQcmd w = .ok i)
    (runs : exec i { s with bus := more } = .next t) : TurnTakes s .bus t
  | queriesNothing {a : Addr} {w : Word} {e : DecodeError} (more : List Access) (bus : s.bus = .write a 8 w :: more)
    (reg : regAt s.build.mQuery a = .qcmd) (illegal : decodeQcmd w = .error e) :
    TurnTakes s .bus (State.withQstatus { s with bus := more } .badCommand (opField w))
  | reads {a : Addr} (more : List Access) (bus : s.bus = .read a 8 :: more)
    (aligned : a.toNat % 8 = 0) :
    TurnTakes s .bus { s with bus := more, replies := s.replies ++ [s.mapRead a] }
  | writes {a : Addr} {w : Word} (more : List Access) (bus : s.bus = .write a 8 w :: more)
    (aligned : a.toNat % 8 = 0) (reg : regAt s.build.mQuery a ≠ .cmd ∧ regAt s.build.mQuery a ≠ .qcmd) :
    TurnTakes s .bus (State.writeReg { s with bus := more } (regAt s.build.mQuery a) w)
  /-- agent P is not enabled (41_filter.md R198) -/
  | streamWaits (waits : s.tokenReady = false) : TurnTakes s .processing s
  | streams {t : State} {h : Word} {payload rest : List Word} {i : Instr}
    (token : splitToken s.sin = some (h, payload, rest)) (decoded : decodeToken h payload = .ok i)
    (ready : s.streamReady i = true) (runs : exec i { s with sin := rest } = .next t) : TurnTakes s .processing t
  | streamsNothing {h : Word} {payload rest : List Word} {e : DecodeError}
    (token : splitToken s.sin = some (h, payload, rest)) (illegal : decodeToken h payload = .error e) :
    TurnTakes s .processing (State.withSstatus { s with sin := rest } .badCommand (opField h))
  | delivers {t : State} (runs : exec .deliver s = .next t) : TurnTakes s .delivery t
  | resets : TurnTakes s .reset s.afterReset
  | sinArrives (w : Word) : TurnTakes s (.sinArrives w) { s with sin := s.sin ++ [w] }
  | hostIssues (a : Access) : TurnTakes s (.hostIssues a) { s with bus := s.bus ++ [a] }
  | soutReady (room : Option Nat) : TurnTakes s (.soutReady room) { s with soutRoom := room }
  | evtReady (room : Option Nat) : TurnTakes s (.evtReady room) { s with evtRoom := room }

theorem stepBus_takes {s t : State} (h : stepBus s = .next t) : TurnTakes s .bus t := by
  unfold stepBus at h
  split at h
  · next bus => cases h; exact .busIdle bus
  · next a more bus =>
    obtain ⟨addr, rfl, aligned, rfl⟩ | ⟨addr, w, rfl, aligned, ⟨reg, h⟩ | ⟨reg, h⟩ | ⟨cmd, qcmd, rfl⟩⟩ :=
      stepAccess_cases _ _ _ h
    · exact .reads more bus aligned
    · unfold stepControl at h
      split at h
      · next decoded => exact .controls more bus reg decoded h
      · next illegal => cases h; exact .controlsNothing more bus reg illegal
    · unfold stepQuery at h
      split at h
      · next decoded => exact .queries more bus reg decoded h
      · next illegal => cases h; exact .queriesNothing more bus reg illegal
    · exact .writes more bus aligned ⟨cmd, qcmd⟩

theorem stepStream_takes {s t : State} (h : stepStream s = .next t) : TurnTakes s .processing t := by
  unfold stepStream at h
  split at h
  · next none => cases h; exact .streamWaits (by simp [State.tokenReady, none])
  · next token =>
    split at h
    · next illegal => cases h; exact .streamsNothing token illegal
    · next decoded =>
      split at h
      · next ready => exact .streams token decoded ready h
      · next full => cases h; exact .streamWaits (by simp [State.tokenReady, token, decoded, full])

theorem takeTurn_takes {τ : Turn} {s t : State} (h : takeTurn τ s = .next t) : TurnTakes s τ t := by
  cases τ with
  | processing => exact stepStream_takes h
  | bus => exact stepBus_takes h
  | delivery => exact .delivers h
  | reset => cases h; exact .resets
  | sinArrives w => cases h; exact .sinArrives w
  | hostIssues a => cases h; exact .hostIssues a
  | soutReady room => cases h; exact .soutReady room
  | evtReady room => cases h; exact .evtReady room

/-- A step takes the first entry of the schedule, or leaves the state when there is none (60_exceptions.md R334). -/
theorem step_takes {s t : State} (h : step s = .next t) :
    t = s ∨ ∃ τ rest, s.turns = τ :: rest ∧ TurnTakes { s with turns := rest } τ t := by
  unfold step at h
  split at h
  · cases h; exact .inl rfl
  · next τ rest turns => exact .inr ⟨τ, rest, turns, takeTurn_takes h⟩

end Sys2Proof.Machine
end

section
/-! The state after reset, element by element (10_state.md R54, 70_reset_and_hazards.md R351 to R353). -/

namespace Sys2Proof.Machine

open Config (Build NumSel)

/-- A band of a type that uses the gain, at a gain of 0 dB, is designed as IDENT (40_designer.md R148). -/
theorem design_of_flat (n : NumSel) {ft : FilterType} (f q sr : Word) {g : Word} (uses : usesGain ft = true)
    (flat : F64.eq (clampGain g) F64.zero = true) : design n ft f q g sr = Coef.ident := by
  simp [design, designClamped, uses, flat]

/-! ## The band layout (70_reset_and_hazards.md R352) -/

theorem layoutBand_first (B : Build) : layoutBand B 0 = ⟨.lowshelf, B.fLo, B.q0, F64.zero⟩ := if_pos rfl

theorem layoutBand_last {B : Build} (h : 1 < B.nBands) :
    layoutBand B (B.nBands - 1) = ⟨.highshelf, B.fHi, B.q0, F64.zero⟩ := by
  rw [layoutBand, if_neg (by omega), if_pos rfl]

theorem layoutBand_interior {B : Build} {b : Nat} (lo : 0 < b) (hi : b < B.nBands - 1) :
    layoutBand B b = ⟨.peaking, layoutFreq B b, B.q0, F64.zero⟩ := by
  rw [layoutBand, if_neg (by omega), if_neg (by omega)]

/-- What every band of the layout has, wherever it stands. -/
theorem layoutBand_common (B : Build) (b : Nat) :
    (layoutBand B b).q = B.q0 ∧ (layoutBand B b).gain = F64.zero ∧ usesGain (layoutBand B b).ftype = true := by
  unfold layoutBand
  split
  · exact ⟨rfl, rfl, rfl⟩
  · split <;> exact ⟨rfl, rfl, rfl⟩

theorem design_layoutBand (B : Build) (n : NumSel) (b : Nat) (sr : Word) :
    design n (layoutBand B b).ftype (layoutBand B b).freq (layoutBand B b).q (layoutBand B b).gain sr = Coef.ident := by
  obtain ⟨-, gain, uses⟩ := layoutBand_common B b
  rw [gain]
  exact design_of_flat n _ _ _ uses (by decide)

/-! ## The files after reset -/

/-- A file filled with its default reads as the default at every index. -/
theorem getD_replicate_self {α : Type} (n i : Nat) (d : α) : (List.replicate n d).getD i d = d := by
  rw [List.getD_eq_getElem?_getD, List.getElem?_replicate]
  split <;> rfl

theorem State.resetOf_bandAt {B : Build} {b : Nat} (h : b < B.nBands) :
    (State.resetOf B).bandAt b = layoutBand B b := by
  simp [State.bandAt, State.resetOf, layout, h]

@[simp] theorem State.resetOf_coefAt (B : Build) (b : Nat) : (State.resetOf B).coefAt b = Coef.ident :=
  getD_replicate_self _ _ _

@[simp] theorem State.resetOf_slotAt (B : Build) (b : Nat) : (State.resetOf B).slotAt b = Slot.empty :=
  getD_replicate_self _ _ _

@[simp] theorem State.resetOf_seqAt (B : Build) (b : Nat) : (State.resetOf B).seqAt b = 0 :=
  getD_replicate_self _ _ _

@[simp] theorem State.resetOf_histAt (B : Build) (b ch : Nat) : (State.resetOf B).histAt b ch = Hist.zero :=
  histAt_of_zeroHist rfl b ch

@[simp] theorem State.resetOf_buffers (B : Build) (i : Nat) :
    (State.resetOf B).freqAt i = 0 ∧ (State.resetOf B).magAt i = 0 ∧ (State.resetOf B).phaseAt i = 0 :=
  ⟨getD_replicate_self _ _ _, getD_replicate_self _ _ _, getD_replicate_self _ _ _⟩

/-! ## A build's counts in 16 bits -/

theorem State.resetOf_channels {B : Build} (h : B.c0 < 2 ^ 16) : (State.resetOf B).channels = B.c0 :=
  Nat.mod_eq_of_lt h

/-- ID's fields, for a build whose counts fit them (10_state.md R36). -/
theorem idWord_fields {B : Build} (bands : B.nBands < 2 ^ 16) (channels : B.maxChannels < 2 ^ 16)
    (query : B.mQuery < 2 ^ 16) :
    ((idWord B).extractLsb' 0 16).toNat = B.nBands ∧ ((idWord B).extractLsb' 16 16).toNat = B.maxChannels ∧
    ((idWord B).extractLsb' 32 16).toNat = B.mQuery ∧ (idWord B).extractLsb' 48 16 = 1 := by
  rw [← BitVec.toNat_inj]
  simp only [toNat_field, idWord_toNat, BitVec.ofNat_eq_ofNat, BitVec.toNat_ofNat, Nat.reducePow] at *
  omega

/-- Settles O11, piece by piece from the reset state's own lemmas. -/
theorem resetGivesEveryPieceItsValue : Obligations.ResetGivesEveryPieceItsValue := by
  intro B valid
  obtain ⟨⟨oneBand, bands⟩, ⟨-, channels⟩, ⟨-, query⟩, -, ⟨-, c0⟩, -⟩ := (buildValid_iff B).mp valid
  refine ⟨⟨rfl, idWord_fields (by omega) (by omega) (by omega)⟩, rfl, State.resetOf_channels (by omega),
    rfl, rfl, rfl, ?operands, ?results, ?bands, ?first, ?last, ?interior, State.resetOf_histAt B,
    State.resetOf_buffers B, rfl⟩
  case operands =>
    intro i _
    exact ⟨Vector.getElem_replicate _, Vector.getElem_replicate _⟩
  case results =>
    intro i _
    exact Vector.getElem_replicate _
  case bands =>
    intro b hb
    obtain ⟨q, gain, -⟩ := layoutBand_common B b
    rw [State.resetOf_bandAt hb]
    exact ⟨q, gain, State.resetOf_coefAt B b, State.resetOf_slotAt B b, State.resetOf_seqAt B b⟩
  case first =>
    rw [State.resetOf_bandAt (by omega), layoutBand_first]
    exact ⟨rfl, rfl⟩
  case last =>
    intro h
    rw [State.resetOf_bandAt (by omega), layoutBand_last h]
    exact ⟨rfl, rfl⟩
  case interior =>
    intro b lo hi
    rw [State.resetOf_bandAt (by omega), layoutBand_interior lo hi]
    exact ⟨rfl, rfl⟩

end Sys2Proof.Machine
end

section
/-! The invariant: reset gives it and every step keeps it (10_state.md R40, R41, R45, R46, 41_filter.md R193). Most steps
leave all that it reads (`SameChain`); the few that do not have a lemma each. -/

namespace Sys2Proof.Machine

open Config (Build)

/-! ## Steps that leave what the invariant reads -/

/-- From s to t the chain is the same, and the other files keep their sizes. -/
structure SameChain (s t : State) : Prop where
  build        : t.build = s.build
  sampleRate   : t.sampleRate = s.sampleRate
  channelCount : t.channelCount = s.channelCount
  band         : t.band = s.band
  coef         : t.coef = s.coef
  hist         : t.hist = s.hist
  slot         : t.slot.length = s.slot.length
  seq          : t.seq.length = s.seq.length
  freqBuf      : t.freqBuf.length = s.freqBuf.length
  magBuf       : t.magBuf.length = s.magBuf.length
  phaseBuf     : t.phaseBuf.length = s.phaseBuf.length

theorem SameChain.refl (s : State) : SameChain s s := by
  constructor <;> rfl

theorem SameChain.trans {s t u : State} (h : SameChain s t) (h' : SameChain t u) : SameChain s u where
  build := h'.build.trans h.build
  sampleRate := h'.sampleRate.trans h.sampleRate
  channelCount := h'.channelCount.trans h.channelCount
  band := h'.band.trans h.band
  coef := h'.coef.trans h.coef
  hist := h'.hist.trans h.hist
  slot := h'.slot.trans h.slot
  seq := h'.seq.trans h.seq
  freqBuf := h'.freqBuf.trans h.freqBuf
  magBuf := h'.magBuf.trans h.magBuf
  phaseBuf := h'.phaseBuf.trans h.phaseBuf

theorem State.Sized.of_sameChain {s t : State} (h : s.Sized) (e : SameChain s t) : t.Sized where
  band := by rw [e.band, e.build]; exact h.band
  coef := by rw [e.coef, e.build]; exact h.coef
  slot := by rw [e.slot, e.build]; exact h.slot
  seq := by rw [e.seq, e.build]; exact h.seq
  lane := by rw [e.hist, e.build]; exact h.lane
  hist := by rw [e.hist, e.build]; exact h.hist
  freq := by rw [e.freqBuf, e.build]; exact h.freq
  mag := by rw [e.magBuf, e.build]; exact h.mag
  phase := by rw [e.phaseBuf, e.build]; exact h.phase

theorem State.Inv.of_sameChain {s t : State} (h : s.Inv) (e : SameChain s t) : t.Inv where
  build := e.build ▸ h.build
  sized := h.sized.of_sameChain e
  rate := e.sampleRate ▸ h.rate
  channels := by simpa only [State.channels, e.channelCount, e.build] using h.channels
  designed := by
    simpa only [State.CoefDesigned, State.coefAt, State.bandAt, State.designFor, e.coef, e.band, e.build,
      e.sampleRate] using h.designed
  flushed := by simpa only [State.histAt, e.hist] using h.flushed
  idle := by simpa only [State.histAt, State.channels, e.hist, e.channelCount] using h.idle

/-! ## Which operations leave the chain -/

theorem sameChain_withCstatus (s : State) (c : Code) (op : BitVec 8) : SameChain s (s.withCstatus c op) := by
  constructor <;> rfl

theorem sameChain_withQstatus (s : State) (c : Code) (op : BitVec 8) : SameChain s (s.withQstatus c op) := by
  constructor <;> rfl

theorem sameChain_withSstatus (s : State) (c : Code) (op : BitVec 8) : SameChain s (s.withSstatus c op) := by
  constructor <;> rfl

theorem sameChain_emit (s : State) (b : Nat) : SameChain s (s.emit b) := by
  constructor <;> simp

theorem sameChain_emits (bs : List Nat) (s : State) : SameChain s (bs.foldl State.emit s) := by
  induction bs generalizing s with
  | nil => exact .refl s
  | cons b bs ih => exact (sameChain_emit s b).trans (ih _)

theorem sameChain_respond {s : State} (h : s.Sized) {n : Nat} (fits : n ≤ s.build.mQuery) (f : Word → Response) :
    SameChain s (s.respond n f) := by
  have mag := h.mag
  have phase := h.phase
  constructor <;> simp <;> omega

theorem sameChain_delivered (s : State) (b : Nat) : SameChain s (s.delivered b) := by
  constructor <;> simp

theorem sameChain_writeReg (s : State) (r : Reg) (w : Word) : SameChain s (s.writeReg r w) := by
  cases r <;> constructor <;> simp [State.writeReg]

/-! ## History -/

theorem Hist.zero_flushed : Hist.zero.Flushed :=
  ⟨fun _ => rfl, fun _ => rfl, fun _ => rfl, fun _ => rfl⟩

/-- With fresh history the invariant is about the rest of the state only (41_filter.md R204). -/
theorem State.resetHist_inv {s : State} (build : buildValid s.build = true) (sized : s.Sized)
    (rate : validRate s.sampleRate = true) (channels : 1 ≤ s.channels ∧ s.channels ≤ s.build.maxChannels)
    (designed : ∀ b, b < s.build.nBands → s.CoefDesigned b) : s.resetHist.Inv where
  build := build
  sized := { sized with
    lane := by simp [zeroHist]
    hist := by simp +contextual [zeroHist, List.mem_replicate] }
  rate := rate
  channels := channels
  designed := designed
  flushed b ch := by rw [histAt_of_zeroHist rfl]; exact Hist.zero_flushed
  idle b ch _ := histAt_of_zeroHist rfl b ch

/-- A record of a history file is HIST[b][ch] for some b and ch. -/
theorem State.exists_histAt {s : State} {l : List Hist} {r : Hist} (hl : l ∈ s.hist) (hr : r ∈ l) :
    ∃ b ch, s.histAt b ch = r := by
  obtain ⟨ch, hch, rfl⟩ := List.getElem_of_mem hl
  obtain ⟨b, hb, rfl⟩ := List.getElem_of_mem hr
  exact ⟨b, ch, by simp [State.histAt, hch, hb]⟩

/-- A property of lanes that the cascade keeps holds of every lane after a frame. -/
theorem lanes_keeps (Q : List Hist → Prop) (draw : Nat) (cs : List Coef)
    (hQ : ∀ ch l x, Q l → Q (cascade draw ch 0 cs l x).2) (ch : Nat) (xs : List Word) (ls : List (List Hist))
    (h : ∀ l ∈ ls, Q l) : ∀ l ∈ (lanes draw cs ch xs ls).2, Q l := by
  induction xs generalizing ch ls with
  | nil => simpa [lanes] using h
  | cons x xs ih =>
    cases ls with
    | nil => simp [lanes]
    | cons l ls =>
      simp only [List.mem_cons, forall_eq_or_imp, lanes] at h ⊢
      exact ⟨hQ ch l x h.1, ih (ch + 1) ls h.2⟩

theorem cascade_length (draw ch : Nat) {cs : List Coef} {hs : List Hist} (x : Word) (hl : hs.length = cs.length) :
    (cascade draw ch 0 cs hs x).2.length = hs.length := by
  obtain ⟨-, -, -, -, length⟩ := cascade_spec draw ch cs hs 0 x hl
  exact length

/-- A lane of sound history: a flushed record for each of n bands. -/
structure SoundLane (n : Nat) (l : List Hist) : Prop where
  length  : l.length = n
  flushed : ∀ r ∈ l, r.Flushed

theorem SoundLane.cascade {n : Nat} {cs : List Coef} (hcs : cs.length = n) (draw ch : Nat) {l : List Hist} (x : Word)
    (h : SoundLane n l) : SoundLane n (cascade draw ch 0 cs l x).2 where
  length := (cascade_length draw ch x (h.length.trans hcs.symm)).trans h.length
  flushed := cascade_keeps Hist.Flushed Hist.shift_flushed draw ch cs l 0 x h.flushed

/-! ## The operations that change the chain -/

/-- Filtering a frame of C samples writes flushed history of the live channels only (41_filter.md R193, R197). -/
theorem State.Inv.filtered {s : State} (h : s.Inv) {xs : List Word} (count : xs.length = s.channels) :
    (s.filtered xs).Inv := by
  have lanesSound : ∀ l ∈ (s.filtered xs).hist, SoundLane s.build.nBands l := by
    refine lanes_keeps _ _ _ (fun ch l x => .cascade h.sized.coef _ ch x) 0 xs s.hist fun l hl =>
      ⟨h.sized.hist l hl, fun r hr => ?_⟩
    obtain ⟨b, ch, rfl⟩ := State.exists_histAt hl hr
    exact h.flushed b ch
  have enough : xs.length ≤ s.hist.length := by
    rw [count, h.sized.lane]
    exact h.channels.2
  obtain ⟨-, lane, -, above⟩ := lanes_spec s.draws s.coef 0 xs s.hist enough
  exact {
    build := h.build
    sized := { h.sized with
      lane := lane.trans h.sized.lane
      hist := fun l hl => (lanesSound l hl).length }
    rate := h.rate
    channels := h.channels
    designed := h.designed
    flushed := State.histAt_all Hist.Flushed Hist.zero_flushed fun l hl => (lanesSound l hl).flushed
    idle := fun b ch hc => by
      have kept : (s.filtered xs).histAt b ch = s.histAt b ch :=
        congrArg (·.getD b Hist.zero) (above ch (count ▸ hc))
      rw [kept]
      exact h.idle b ch hc }

/-- apply(b, p) stores p with the coefficients designed from it (42_control.md R232). -/
theorem State.Inv.apply {s : State} (h : s.Inv) {b : Nat} (hb : b < s.build.nBands) (p : Params) :
    (s.apply b p).Inv := by
  have edited := s.apply_edited b p s.cstatus.code s.cstatus.op h.sized hb
  exact {
    build := h.build
    sized := { h.sized with
      band := by simp [h.sized.band]
      coef := by simp [h.sized.coef]
      slot := by simp [State.apply, h.sized.slot]
      seq := by simp [h.sized.seq] }
    rate := h.rate
    channels := h.channels
    designed := fun c hc => by
      by_cases e : c = b
      · subst e
        exact edited.coef.trans (congrArg (s.designFor · s.sampleRate) edited.band.symm)
      · obtain ⟨band, coef, -, -⟩ := edited.others c e
        exact coef.trans ((h.designed c hc).trans (congrArg (s.designFor · s.sampleRate) band.symm))
    flushed := h.flushed
    idle := h.idle }

/-- A valid rate redesigns every band (41_filter.md R213). -/
theorem State.Inv.setRate {s : State} (h : s.Inv) {sr : Word} (valid : validRate sr = true) : (s.setRate sr).Inv := by
  refine (State.resetHist_inv (s := { s with sampleRate := sr, coef := s.band.map (fun p => s.designFor p sr) })
    h.build ?sized valid h.channels ?designed).of_sameChain (sameChain_emits (List.range s.build.nBands) _)
  case sized => exact { h.sized with coef := by simp [h.sized.band] }
  case designed =>
    intro b hb
    have hband : b < s.band.length := h.sized.band ▸ hb
    simp [State.CoefDesigned, State.coefAt, State.bandAt, State.designFor, hband]

theorem State.Inv.setChannels {s : State} (h : s.Inv) {n : Count} (pos : 1 ≤ n.toNat)
    (fits : n.toNat ≤ s.build.maxChannels) : (State.resetHist { s with channelCount := n }).Inv :=
  State.resetHist_inv h.build { h.sized with } h.rate ⟨pos, fits⟩ h.designed

/-- The reset state of a build that exists meets the invariant: every band of the layout is designed as IDENT
(70_reset_and_hazards.md R353). -/
theorem State.resetOf_inv {B : Build} (valid : buildValid B = true) : (State.resetOf B).Inv := by
  obtain ⟨-, ⟨-, channels⟩, -, ⟨pos, finite⟩, ⟨c0, c0max⟩, -⟩ := (buildValid_iff B).mp valid
  have count : (State.resetOf B).channels = B.c0 := State.resetOf_channels (by omega)
  refine State.resetHist_inv (s := State.resetOf B) valid ?_ (Bool.and_eq_true_iff.mpr ⟨pos, finite⟩)
    (count ▸ ⟨c0, c0max⟩) fun b hb => ?_
  · constructor <;> simp +contextual [State.resetOf, layout, zeroHist, List.mem_replicate]
  · rw [State.CoefDesigned, State.resetOf_coefAt, State.resetOf_bandAt (B := B) hb]
    exact (design_layoutBand B _ b _).symm

/-! ## Every step -/

theorem exec_keeps_inv {i : Instr} {s t : State} (inv : s.Inv) (h : exec i s = .next t) : t.Inv := by
  cases exec_effect h with
  | edits _ b band p => exact (inv.apply band p).of_sameChain (sameChain_withCstatus _ _ _)
  | findsNoBand => exact inv.of_sameChain (sameChain_withCstatus _ _ _)
  | results => exact inv.of_sameChain (by constructor <;> rfl)
  | responds _ n fits f =>
    exact (inv.of_sameChain (sameChain_respond inv.sized fits f)).of_sameChain (sameChain_withQstatus _ _ _)
  | failsQuery => exact inv.of_sameChain (sameChain_withQstatus _ _ _)
  | filters xs count => exact (inv.filtered count).of_sameChain (sameChain_withSstatus _ _ _)
  | waitsForSout | waitsForEvt => exact inv
  | rates sr valid => exact (inv.setRate valid).of_sameChain (sameChain_withSstatus _ _ _)
  | counts n pos fits => exact (inv.setChannels pos fits).of_sameChain (sameChain_withSstatus _ _ _)
  | clears =>
    exact (State.resetHist_inv inv.build inv.sized inv.rate inv.channels inv.designed).of_sameChain
      (sameChain_withSstatus _ _ _)
  | failsToken => exact inv.of_sameChain (sameChain_withSstatus _ _ _)
  | delivers b => exact inv.of_sameChain (sameChain_delivered s b)

theorem turn_keeps_inv {τ : Turn} {s t : State} (inv : s.Inv) (h : TurnTakes s τ t) : t.Inv := by
  have moved {u : State} (e : SameChain s u) : u.Inv := inv.of_sameChain e
  cases h with
  | busIdle | streamWaits => exact inv
  | controls _ _ _ _ runs | queries _ _ _ _ runs | streams _ _ _ runs =>
    exact exec_keeps_inv (moved (by constructor <;> rfl)) runs
  | delivers runs => exact exec_keeps_inv inv runs
  | writes => exact (moved (by constructor <;> rfl)).of_sameChain (sameChain_writeReg _ _ _)
  | resets => exact (State.resetOf_inv inv.build).of_sameChain (by constructor <;> rfl)
  | controlsNothing | queriesNothing | reads | streamsNothing | sinArrives | hostIssues | soutReady | evtReady =>
    exact moved (by constructor <;> rfl)

/-- Settles O16, by the cases of a step: what a turn does, and for an instruction what it does to the chain. -/
theorem everyStepKeepsTheInvariant : Obligations.EveryStepKeepsTheInvariant := by
  intro s t inv h
  obtain rfl | ⟨τ, rest, -, takes⟩ := step_takes h
  · exact inv
  · exact turn_keeps_inv (inv.of_sameChain (by constructor <;> rfl)) takes

/-- Settles O15. -/
theorem resetStatesMeetTheInvariant : Obligations.ResetStatesMeetTheInvariant :=
  ⟨fun _ valid => State.resetOf_inv valid, State.resetOf_inv (by decide)⟩

end Sys2Proof.Machine
end

section
/-! The status registers: what the host reads of them and when STICKY is cleared (10_state.md R37 to R39). -/

namespace Sys2Proof.Machine

/-! ## Layout -/

/-- A status word is laid out as a format-B word is: OP in the place of BAND. -/
theorem Status.word_eq_wordB (st : Status) : st.word = wordB st.code.number st.op := rfl

theorem StreamStatus.word_toNat (st : StreamStatus) :
    st.word.toNat = (st.sticky.toNat * 256 + st.op.toNat) * 256 + st.code.number.toNat := by
  have := st.sticky.toNat_lt
  have := st.op.isLt
  have := st.code.number.isLt
  simp only [StreamStatus.word, BitVec.toNat_setWidth, toNat_append_eq, BitVec.toNat_ofBool]
  omega

theorem StreamStatus.word_fields (st : StreamStatus) :
    st.word.extractLsb' 0 8 = st.code.number ∧ st.word.extractLsb' 8 8 = st.op ∧
    st.word.extractLsb' 17 47 = 0 := by
  have := st.sticky.toNat_lt
  have := st.op.isLt
  have := st.code.number.isLt
  refine ⟨?_, ?_, ?_⟩ <;> apply BitVec.eq_of_toNat_eq <;>
    simp only [toNat_field, StreamStatus.word_toNat, BitVec.ofNat_eq_ofNat, BitVec.toNat_ofNat, Nat.reducePow] <;> omega

theorem StreamStatus.word_sticky (st : StreamStatus) : st.word.getLsbD 16 = st.sticky := by
  simp only [StreamStatus.word, BitVec.getLsbD_setWidth, BitVec.getLsbD_append]
  simp

/-- Settles O46. -/
theorem statusWordsHaveTheirLayout : Obligations.StatusWordsHaveTheirLayout := by
  refine ⟨fun st => ?_, fun st => ?_, rfl, rfl, rfl, rfl, rfl⟩
  · rw [Status.word_eq_wordB]
    exact wordB_fields _ _
  · obtain ⟨code, op, above⟩ := st.word_fields
    exact ⟨code, op, st.word_sticky, above⟩

/-! ## STICKY -/

/-- A token's status keeps STICKY set (10_state.md R39). -/
theorem StreamStatus.after_sticky {st : StreamStatus} (h : st.sticky = true) (code : Code) (op : BitVec 8) :
    (st.after code op).sticky = true := by
  simp [StreamStatus.after, h]

/-- No instruction clears STICKY. -/
theorem exec_keeps_sticky {i : Instr} {s t : State} (h : exec i s = .next t) (set : s.sstatus.sticky = true) :
    t.sstatus.sticky = true := by
  cases exec_effect h with
  | filters | failsToken | clears | counts => exact StreamStatus.after_sticky set _ _
  | rates => simpa using StreamStatus.after_sticky set _ _
  | _ => exact set

/-- A host write clears STICKY only by a 1 in bit 16 of a word to SSTATUS. -/
theorem State.writeReg_clears_sticky {s : State} {r : Reg} {w : Word}
    (cleared : (s.writeReg r w).sstatus.sticky = false) (set : s.sstatus.sticky = true) :
    r = .sstatus ∧ w.getLsbD 16 = true := by
  cases r with
  | sstatus => exact ⟨rfl, by simpa [State.writeReg, set] using cleared⟩
  | _ => exact absurd set (by simpa [State.writeReg] using cleared)

/-- A turn that clears STICKY was the reset input, or a host's write of a 1 to bit 16 of SSTATUS. -/
theorem turn_clears_sticky {τ : Turn} {s t : State} (h : TurnTakes s τ t) (set : s.sstatus.sticky = true)
    (cleared : t.sstatus.sticky = false) :
    τ = .reset ∨ τ = .bus ∧ ∃ more w, s.bus = .write 0x00018 8 w :: more ∧ w.getLsbD 16 = true := by
  have kept (set' : t.sstatus.sticky = true) {p : Prop} : p := by rw [set'] at cleared; cases cleared
  cases h with
  | resets => exact .inl rfl
  | writes more bus =>
    obtain ⟨reg, bit⟩ := State.writeReg_clears_sticky cleared set
    rw [regAt_sstatus _ _ reg] at bus
    exact .inr ⟨rfl, more, _, bus, bit⟩
  | controls _ _ _ _ runs | queries _ _ _ _ runs | streams _ _ _ runs | delivers runs =>
    exact kept (exec_keeps_sticky runs set)
  | streamsNothing => exact kept (StreamStatus.after_sticky set _ _)
  | _ => exact kept set

/-- Settles O25. -/
theorem stickyIsClearedOnlyByHostOrReset : Obligations.StickyIsClearedOnlyByHostOrReset := by
  intro s t h set cleared
  obtain rfl | ⟨τ, rest, turns, takes⟩ := step_takes h
  · rw [set] at cleared
    cases cleared
  · obtain rfl | ⟨rfl, more, w, bus, bit⟩ := turn_clears_sticky takes set cleared
    · exact .inl ⟨rest, turns⟩
    · exact .inr ⟨rest, more, w, turns, bus, bit⟩

end Sys2Proof.Machine
end

section
/-! The register map as a correspondence (20_memory.md R70 to R76): which word of the map each register has, what a byte
of it reads as, and what a host's access at its address does. -/

namespace Sys2Proof.Machine

/-! ## Registers and their words (R72) -/

/-- The word of the map, by address / 8, at which a register stands; for none, one past the map's last word. -/
def Reg.word : Reg → Nat
  | .id => 0
  | .sampleRate => 1
  | .channelCount => 2
  | .sstatus => 3
  | .cmd => 0x20
  | .cstatus => 0x21
  | .carg i => 0x28 + i
  | .qcmd => 0x40
  | .qstatus => 0x41
  | .qarg i => 0x48 + i
  | .qres i => 0x50 + i
  | .freq i => 0x2000 + i
  | .mag i => 0x4000 + i
  | .phase i => 0x6000 + i
  | .unmapped => 0x8000

/-- A register that a build with m query entries has. -/
def Reg.InMap (m : Nat) : Reg → Prop
  | .carg i | .qarg i => i < 8
  | .qres i => i < 10
  | .freq i | .mag i | .phase i => i < m
  | .unmapped => False
  | .id | .sampleRate | .channelCount | .sstatus | .cmd | .cstatus | .qcmd | .qstatus => True

/-- Where the entries of the files stand, by byte address (R72). -/
theorem Reg.address_entry (i : Nat) :
    8 * (Reg.carg i).word = 0x00140 + 8 * i ∧ 8 * (Reg.qarg i).word = 0x00240 + 8 * i ∧
    8 * (Reg.qres i).word = 0x00280 + 8 * i ∧ 8 * (Reg.freq i).word = 0x10000 + 8 * i ∧
    8 * (Reg.mag i).word = 0x20000 + 8 * i ∧ 8 * (Reg.phase i).word = 0x30000 + 8 * i := by
  simp only [Reg.word]
  omega

theorem Reg.word_lt {m : Nat} (small : m ≤ 8192) {r : Reg} (mapped : r.InMap m) : r.word < 32768 := by
  cases r <;> simp only [Reg.word, Reg.InMap] at * <;> omega

theorem mappedWord_iff (m k : Nat) : mappedWord m k = true ↔
    k < 4 ∨ (0x20 ≤ k ∧ k < 0x22) ∨ (0x28 ≤ k ∧ k < 0x30) ∨ (0x40 ≤ k ∧ k < 0x42) ∨ (0x48 ≤ k ∧ k < 0x5A) ∨
    (0x2000 ≤ k ∧ k < 0x2000 + m) ∨ (0x4000 ≤ k ∧ k < 0x4000 + m) ∨ (0x6000 ≤ k ∧ k < 0x6000 + m) := by
  simp only [mappedWord, Bool.or_eq_true, decide_eq_true_eq, or_assoc]

theorem Reg.mappedWord_word {m : Nat} {r : Reg} (mapped : r.InMap m) : mappedWord m r.word = true := by
  rw [mappedWord_iff]
  cases r <;> simp only [Reg.word, Reg.InMap] at * <;> omega

/-- Every register of the map is the one its own word names, as long as the buffers do not overlap (00_scope.md R7). -/
theorem regAt_of_word {m : Nat} (small : m ≤ 8192) {r : Reg} (mapped : r.InMap m) {a : Addr}
    (place : a.toNat = 8 * r.word) : regAt m a = r := by
  have word := Reg.word_lt small mapped
  obtain rfl : a = BitVec.ofNat 18 (8 * r.word) := BitVec.eq_of_toNat_eq (by simp; omega)
  rw [regAt_word m r.word word]
  cases r with
  | unmapped => exact mapped.elim
  | carg i | qarg i | qres i | freq i | mag i | phase i =>
    simp only [Reg.word, Reg.InMap] at mapped ⊢
    simp (disch := omega) only [if_pos, if_neg, Nat.add_sub_cancel_left]
  | _ => rfl

/-- What `regAt` says of the register at word k: it is one of the map and stands there, or there is none. -/
def Reg.StandsAt (m k : Nat) (r : Reg) : Prop := r ≠ .unmapped → r.InMap m ∧ k = r.word

theorem regAt_word_standsAt (m : Nat) {k : Nat} (hk : k < 32768) :
    (regAt m (BitVec.ofNat 18 (8 * k))).StandsAt m k := by
  rw [regAt_word m k hk]
  repeat' refine iteInduction (motive := Reg.StandsAt m k) (fun _ => ?_) (fun _ => ?_)
  all_goals simp [Reg.StandsAt, Reg.InMap, Reg.word] <;> omega

/-- A register that an aligned address names is one of the map and stands there. -/
theorem regAt_place {m : Nat} {a : Addr} {r : Reg} (aligned : a.toNat % 8 = 0) (named : regAt m a = r)
    (isReg : r ≠ .unmapped) : r.InMap m ∧ a.toNat = 8 * r.word := by
  have inMap := a.isLt
  have place : a.toNat = 8 * (a.toNat / 8) := by omega
  have stands := regAt_word_standsAt m (k := a.toNat / 8) (by omega)
  rw [← place, BitVec.ofNat_toNat, BitVec.setWidth_eq, named] at stands
  obtain ⟨mapped, word⟩ := stands isReg
  exact ⟨mapped, word ▸ place⟩

/-! ## Reading the map (R71 to R73) -/

theorem getD_toList {α : Type} {n i : Nat} (v : Vector α n) (d : α) (h : i < n) : v.toList.getD i d = v[i] := by
  simp [h]

theorem State.mapRead_ofNat {s : State} (small : s.build.mQuery ≤ 8192) {r : Reg} (mapped : r.InMap s.build.mQuery)
    {n : Nat} (place : n = 8 * r.word) : s.mapRead (BitVec.ofNat 18 n) = s.readReg r := by
  have word := Reg.word_lt small mapped
  exact congrArg s.readReg (regAt_of_word small mapped (by simp; omega))

theorem State.mapRead_of_not_mapped {s : State} {a : Addr} (aligned : a.toNat % 8 = 0)
    (free : mappedWord s.build.mQuery (a.toNat / 8) = false) : s.mapRead a = 0 := by
  by_cases none : regAt s.build.mQuery a = .unmapped
  · exact congrArg s.readReg none
  · obtain ⟨mapped, place⟩ := regAt_place aligned rfl none
    rw [place, Nat.mul_div_cancel_left _ (by decide), Reg.mappedWord_word mapped] at free
    cases free

/-- ID's four fields of 16 bits, whatever the build (10_state.md R36). -/
theorem idWord_extract (B : Config.Build) :
    (idWord B).extractLsb' 0 16 = BitVec.ofNat 16 B.nBands ∧
    (idWord B).extractLsb' 16 16 = BitVec.ofNat 16 B.maxChannels ∧
    (idWord B).extractLsb' 32 16 = BitVec.ofNat 16 B.mQuery ∧ (idWord B).extractLsb' 48 16 = 1 := by
  simp only [← BitVec.toNat_inj, toNat_field, idWord_toNat, BitVec.ofNat_eq_ofNat, BitVec.toNat_ofNat, Nat.reducePow]
  omega

/-- Settles O43, register by register through the word each stands at. -/
theorem mapReadsTheNamedRegisters : Obligations.MapReadsTheNamedRegisters := by
  intro s small
  refine ⟨idWord_extract s.build, rfl, rfl, rfl, rfl, rfl, rfl, rfl, rfl, fun i hi => ?carg, fun i hi => ?qarg,
    fun i hi => ?qres, fun i hi => ?buffers, fun a => State.mapRead_of_not_mapped⟩
  all_goals obtain ⟨carg, qarg, qres, freq, mag, phase⟩ := Reg.address_entry i
  case carg =>
    rw [State.mapRead_ofNat small (r := .carg i) hi carg.symm]
    exact getD_toList _ _ hi
  case qarg =>
    rw [State.mapRead_ofNat small (r := .qarg i) hi qarg.symm]
    exact getD_toList _ _ hi
  case qres =>
    rw [State.mapRead_ofNat small (r := .qres i) hi qres.symm]
    exact getD_toList _ _ hi
  case buffers =>
    exact ⟨State.mapRead_ofNat small (r := .freq i) hi freq.symm,
      State.mapRead_ofNat small (r := .mag i) hi mag.symm, State.mapRead_ofNat small (r := .phase i) hi phase.symm⟩

/-! ## A host's access (R71, R74, R76) -/

theorem isTransaction_iff (a : Addr) (n : Nat) : isTransaction a n = true ↔ n = 8 ∧ a.toNat % 8 = 0 := by
  simp [isTransaction]

theorem step_read {s : State} {a : Addr} {rest more} (turns : s.turns = .bus :: rest) (bus : s.bus = .read a 8 :: more)
    (aligned : a.toNat % 8 = 0) :
    step s = .next { s with turns := rest, bus := more, replies := s.replies ++ [s.mapRead a] } := by
  simp only [step, turns, takeTurn, stepBus, bus, stepAccess]
  exact if_pos ((isTransaction_iff a 8).mpr ⟨rfl, aligned⟩)

theorem step_write {s : State} {a : Addr} {w : Word} {r : Reg} {rest more} (turns : s.turns = .bus :: rest)
    (bus : s.bus = .write a 8 w :: more) (aligned : a.toNat % 8 = 0) (reg : regAt s.build.mQuery a = r)
    (cmd : r ≠ .cmd) (qcmd : r ≠ .qcmd) :
    step s = .next (State.writeReg { s with turns := rest, bus := more } r w) := by
  simp only [step, turns, takeTurn, stepBus, bus, stepAccess]
  rw [if_pos ((isTransaction_iff a 8).mpr ⟨rfl, aligned⟩), reg]
  cases r with
  | cmd => exact absurd rfl cmd
  | qcmd => exact absurd rfl qcmd
  | _ => rfl

/-- Settles O44. -/
theorem hostReadReturnsTheWordOnly : Obligations.HostReadReturnsTheWordOnly :=
  fun _ _ _ _ turns bus aligned => step_read turns bus aligned

theorem setIfInBounds_eq_set {α : Type} {n i : Nat} (v : Vector α n) (x : α) (h : i < n) :
    v.setIfInBounds i x = v.set i x := by
  ext j hj
  rw [Vector.getElem_setIfInBounds, Vector.getElem_set]

/-- Only CARG, QARG, FREQ_BUF and SSTATUS take a host's word (R73). -/
theorem State.writeReg_of_readOnly {s : State} {r : Reg} {w : Word} (carg : ∀ i, r ≠ .carg i) (qarg : ∀ i, r ≠ .qarg i)
    (freq : ∀ i, r ≠ .freq i) (sstatus : r ≠ .sstatus) : s.writeReg r w = s := by
  cases r with
  | carg i => exact absurd rfl (carg i)
  | qarg i => exact absurd rfl (qarg i)
  | freq i => exact absurd rfl (freq i)
  | sstatus => exact absurd rfl sstatus
  | _ => rfl

/-- Settles O45: each clause's address names a register, or excludes those that take a word. -/
theorem hostWriteChangesOnlyItsRegister : Obligations.HostWriteChangesOnlyItsRegister := by
  intro s a w rest more turns bus small u
  have write {r : Reg} (mapped : r.InMap s.build.mQuery) (place : a.toNat = 8 * r.word) (cmd : r ≠ .cmd)
      (qcmd : r ≠ .qcmd) : step s = .next (u.writeReg r w) :=
    step_write turns bus (by omega) (regAt_of_word small mapped place) cmd qcmd
  refine ⟨fun i hi place => ?carg, fun i hi place => ?qarg, fun i hi place => ?freq, fun place => ?sstatus, ?others⟩
  case carg =>
    obtain ⟨carg, -⟩ := Reg.address_entry i
    rw [write (r := .carg i) hi (place.trans carg.symm) nofun nofun, State.writeReg, setIfInBounds_eq_set _ _ hi]
  case qarg =>
    obtain ⟨-, qarg, -⟩ := Reg.address_entry i
    rw [write (r := .qarg i) hi (place.trans qarg.symm) nofun nofun, State.writeReg, setIfInBounds_eq_set _ _ hi]
  case freq =>
    obtain ⟨-, -, -, freq, -⟩ := Reg.address_entry i
    exact write (r := .freq i) hi (place.trans freq.symm) nofun nofun
  case sstatus => exact write (r := .sstatus) trivial place nofun nofun
  case others =>
    intro aligned sstatus cmd qcmd args freq
    have named {r : Reg} (h : regAt s.build.mQuery a = r) (isReg : r ≠ .unmapped) :
        r.InMap s.build.mQuery ∧ a.toNat = 8 * r.word := regAt_place aligned h isReg
    rw [step_write turns bus aligned rfl (fun h => cmd (named h nofun).2) (fun h => qcmd (named h nofun).2),
      State.writeReg_of_readOnly ?_ ?_ ?_ (fun h => sstatus (named h nofun).2)]
    all_goals
      intro i h
      obtain ⟨hi, place⟩ := named h nofun
      obtain ⟨cargAt, qargAt, -, freqAt, -⟩ := Reg.address_entry i
    · exact (args i hi).1 (place.trans cargAt)
    · exact (args i hi).2 (place.trans qargAt)
    · exact freq i hi (place.trans freqAt)

end Sys2Proof.Machine
end

section
/-! Which steps the model refuses, and which agent may move (20_memory.md R74, R81, R87): a turn is refused only where
the oldest access is no transaction, and otherwise does what its agent's `agentEnabled` says. -/

namespace Sys2Proof.Machine

/-! ## Accesses that are no transaction (R74) -/

theorem accessAgent_read_eq_none (m : Nat) (a : Addr) (n : Nat) :
    accessAgent m (.read a n) = none ↔ ¬(n = 8 ∧ a.toNat % 8 = 0) := by
  simp [accessAgent, isTransaction]

theorem accessAgent_write_eq_none (m : Nat) (a : Addr) (n : Nat) (w : Word) :
    accessAgent m (.write a n w) = none ↔ ¬(n = 8 ∧ a.toNat % 8 = 0) := by
  rw [← isTransaction_iff]
  simp only [accessAgent]
  split
  · next carried =>
    refine iff_of_false ?_ (not_not.mpr carried)
    split <;> nofun
  · next refused => exact iff_of_true rfl refused

theorem stepControl_answers (w : Word) (s : State) : ∃ t, stepControl w s = .next t := by
  unfold stepControl
  split
  · exact exec_answers _ s
  · exact ⟨_, rfl⟩

theorem stepQuery_answers (w : Word) (s : State) : ∃ t, stepQuery w s = .next t := by
  unfold stepQuery
  split
  · exact exec_answers _ s
  · exact ⟨_, rfl⟩

/-- An access that is some agent's answers a next state. -/
theorem stepAccess_answers {a : Access} {s : State} (h : accessAgent s.build.mQuery a ≠ none) :
    ∃ t, stepAccess a s = .next t := by
  cases a with
  | read addr n =>
    rw [ne_eq, accessAgent_read_eq_none, not_not, ← isTransaction_iff] at h
    exact ⟨_, if_pos h⟩
  | write addr n w =>
    rw [ne_eq, accessAgent_write_eq_none, not_not, ← isTransaction_iff] at h
    simp only [stepAccess, h, if_true]
    split
    · exact stepControl_answers w s
    · exact stepQuery_answers w s
    · exact ⟨_, rfl⟩

/-- An access that is no agent's is refused. -/
theorem stepAccess_refused {a : Access} {s : State} (h : accessAgent s.build.mQuery a = none) :
    stepAccess a s = .refused .notATransaction := by
  cases a with
  | read addr n =>
    rw [accessAgent_read_eq_none, ← isTransaction_iff] at h
    exact if_neg h
  | write addr n w =>
    rw [accessAgent_write_eq_none, ← isTransaction_iff] at h
    exact if_neg h

/-! ## Refused steps -/

theorem stepStream_answers (s : State) : ∃ t, stepStream s = .next t := by
  unfold stepStream
  split
  · exact ⟨_, rfl⟩
  · split
    · exact ⟨_, rfl⟩
    · split
      · exact exec_answers _ _
      · exact ⟨_, rfl⟩

/-- The bus's turn, and the oldest access on the bus is no transaction. -/
def State.Misaccesses (s : State) : Prop :=
  ∃ rest more a, s.turns = .bus :: rest ∧ s.bus = a :: more ∧ accessAgent s.build.mQuery a = none

theorem State.Misaccesses.step {s : State} (h : s.Misaccesses) : step s = .refused .notATransaction := by
  obtain ⟨rest, more, a, turns, bus, none⟩ := h
  simp only [Machine.step, turns, takeTurn, stepBus, bus]
  exact stepAccess_refused none

/-- Every other step answers a next state (60_exceptions.md R320). -/
theorem step_answers {s : State} (h : ¬s.Misaccesses) : ∃ t, step s = .next t := by
  unfold step
  split
  · exact ⟨_, rfl⟩
  · next τ rest turns =>
    cases τ with
    | processing => exact stepStream_answers _
    | delivery => exact exec_answers .deliver _
    | bus =>
      simp only [takeTurn, stepBus]
      split
      · exact ⟨_, rfl⟩
      · next a more bus => exact stepAccess_answers fun none => h ⟨rest, more, a, turns, bus, none⟩
    | _ => exact ⟨_, rfl⟩

/-- Settles O10. -/
theorem onlyNarrowOrMisalignedAccessesAreRefused : Obligations.OnlyNarrowOrMisalignedAccessesAreRefused := by
  intro s
  have misaccess : (∃ r, step s = .refused r) ↔ s.Misaccesses := by
    refine ⟨fun ⟨r, refused⟩ => ?_, fun h => ⟨_, h.step⟩⟩
    by_contra h
    obtain ⟨t, next⟩ := step_answers h
    rw [next] at refused
    cases refused
  rw [misaccess]
  refine exists_congr fun rest => exists_congr fun more => exists_congr fun a => and_congr_right fun _ =>
    and_congr_right fun _ => ?_
  cases a with
  | read addr n => exact accessAgent_read_eq_none _ addr n
  | write addr n w => exact accessAgent_write_eq_none _ addr n w

/-! ## Enabled agents (R81, R87) -/

theorem turn_keeps_turns {τ : Turn} {s t : State} (h : TurnTakes s τ t) : t.turns = s.turns := by
  cases h with
  | controls _ _ _ _ runs | queries _ _ _ _ runs | streams _ _ _ runs | delivers runs =>
    obtain ⟨turns, -, -⟩ := exec_keeps_ports _ _ _ runs
    exact turns
  | writes => rw [State.writeReg_keeps]
  | _ => rfl

/-- P's turn takes the next token of SIN where P is enabled. -/
theorem processing_takes_token {s t : State} (h : TurnTakes s .processing t) (enabled : s.tokenReady = true) :
    ∃ w payload ws, splitToken s.sin = some (w, payload, ws) ∧ t.sin = ws := by
  cases h with
  | streamWaits waits => rw [waits] at enabled; cases enabled
  | streams token _ _ runs =>
    obtain ⟨-, -, sin⟩ := exec_keeps_ports _ _ _ runs
    exact ⟨_, _, _, token, sin⟩
  | streamsNothing token => exact ⟨_, _, _, token, rfl⟩

theorem processing_passes {s t : State} (h : TurnTakes s .processing t) (idle : s.tokenReady = false) : t = s := by
  cases h with
  | streamWaits => rfl
  | streams token decoded ready => simp [State.tokenReady, token, decoded, ready] at idle
  | streamsNothing token illegal => simp [State.tokenReady, token, illegal] at idle

/-- The bus's turn takes the oldest access, or there is none. -/
theorem bus_takes_access {s t : State} (h : TurnTakes s .bus t) : s.bus = [] ∧ t = s ∨ ∃ a, s.bus = a :: t.bus := by
  cases h with
  | busIdle bus => exact .inl ⟨bus, rfl⟩
  | controls more bus _ _ runs | queries more bus _ _ runs =>
    obtain ⟨-, more', -⟩ := exec_keeps_ports _ _ _ runs
    exact .inr ⟨_, by rw [more']; exact bus⟩
  | writes more bus => exact .inr ⟨_, by rw [State.writeReg_keeps]; exact bus⟩
  | controlsNothing more bus | queriesNothing more bus | reads more bus => exact .inr ⟨_, bus⟩

/-- An access's agent takes its step in the bus's turn. -/
theorem accessAgent_turn {m : Nat} {a : Access} {g : Agent} (h : accessAgent m a = some g) : g.turn = .bus := by
  cases a with
  | read addr n =>
    simp only [accessAgent] at h
    split at h <;> cases h
    rfl
  | write addr n w =>
    simp only [accessAgent] at h
    split at h
    · split at h <;> cases h <;> rfl
    · cases h

/-- The agents of the bus's turn have an enabled step when the oldest access is theirs. -/
theorem agentEnabled_bus {s : State} {g : Agent} (turn : g.turn = .bus) :
    s.agentEnabled g = true ↔ ∃ a more, s.bus = a :: more ∧ accessAgent s.build.mQuery a = some g := by
  cases g with
  | processing | delivery => cases turn
  | control | analyzer | host => cases bus : s.bus <;> simp [State.agentEnabled, bus]

theorem State.nextDelivery_pending {s : State} {b : Nat} (h : s.nextDelivery = some b) :
    b < s.slot.length ∧ (s.slotAt b).pending = true := by
  obtain ⟨⟨d, st⟩, oldest, rfl⟩ := Option.map_eq_some_iff.mp h
  obtain ⟨i, place, inFile, pending, -, -⟩ := (oldestFrom_spec s.slot 0).1 d st oldest
  obtain rfl : d = i := by omega
  exact ⟨inFile, pending⟩

/-- E's turn delivers the next record where E is enabled, and passes otherwise. -/
theorem delivery_cases {s t : State} (h : TurnTakes s .delivery t) :
    (∃ b, s.nextDelivery = some b ∧ s.agentEnabled .delivery = true ∧ t = s.delivered b) ∨
    (s.agentEnabled .delivery = false ∧ t = s) := by
  cases h with | delivers runs =>
  cases exec_effect runs with
  | delivers b next room => exact .inl ⟨b, next, by simp [State.agentEnabled, next, room], rfl⟩
  | waitsForEvt idle =>
    refine .inr ⟨?_, rfl⟩
    obtain none | full := idle
    · simp [State.agentEnabled, none]
    · simp [State.agentEnabled, full]
  | edits port | findsNoBand port | results port | responds port | failsQuery port | failsToken port => cases port

theorem delivery_takes_record {s t : State} (h : TurnTakes s .delivery t) (enabled : s.agentEnabled .delivery = true) :
    ∃ b, (s.slotAt b).pending = true ∧ (t.slotAt b).pending = false := by
  obtain ⟨b, next, -, rfl⟩ | ⟨idle, -⟩ := delivery_cases h
  · obtain ⟨inFile, pending⟩ := State.nextDelivery_pending next
    exact ⟨b, pending, by simp [State.slotAt, inFile]⟩
  · rw [idle] at enabled
    cases enabled

theorem delivery_passes {s t : State} (h : TurnTakes s .delivery t) (idle : s.agentEnabled .delivery = false) :
    t = s := by
  obtain ⟨b, -, enabled, -⟩ | ⟨-, same⟩ := delivery_cases h
  · rw [enabled] at idle
    cases idle
  · exact same

theorem step_takes_turn {s t : State} {τ : Turn} {rest : List Turn} (turns : s.turns = τ :: rest)
    (h : step s = .next t) : TurnTakes { s with turns := rest } τ t := by
  unfold step at h
  rw [turns] at h
  exact takeTurn_takes h

theorem not_misaccesses_of_enabled {s : State} {g : Agent} {rest : List Turn} (turns : s.turns = g.turn :: rest)
    (enabled : s.agentEnabled g = true) : ¬s.Misaccesses := by
  rintro ⟨rest', more, a, turns', bus, none⟩
  obtain ⟨turn, -⟩ := List.cons.inj (turns.symm.trans turns')
  obtain ⟨a', more', bus', own⟩ := (agentEnabled_bus turn).mp enabled
  obtain ⟨rfl, -⟩ := List.cons.inj (bus.symm.trans bus')
  rw [none] at own
  cases own

/-- The bus's turn takes the access of the agent that is enabled. -/
theorem bus_takes_own {s t : State} {g : Agent} (turn : g.turn = .bus) (h : TurnTakes s .bus t)
    (enabled : s.agentEnabled g = true) : ∃ a, s.bus = a :: t.bus := by
  obtain ⟨a, more, bus, -⟩ := (agentEnabled_bus turn).mp enabled
  exact (bus_takes_access h).resolve_left fun ⟨empty, _⟩ => by rw [empty] at bus; cases bus

/-- The bus's turn passes where the oldest access is no enabled agent's, unless it is refused. -/
theorem bus_passes {s t : State} (h : TurnTakes s .bus t)
    (carried : ∀ a more, s.bus = a :: more → accessAgent s.build.mQuery a ≠ none)
    (idle : ∀ g : Agent, g.turn = .bus → s.agentEnabled g = false) : t = s := by
  obtain ⟨-, same⟩ | ⟨a, bus⟩ := bus_takes_access h
  · exact same
  · obtain ⟨g, own⟩ := Option.ne_none_iff_exists'.mp (carried a t.bus bus)
    have turn := accessAgent_turn own
    have enabled := (agentEnabled_bus turn).mpr ⟨a, t.bus, bus, own⟩
    rw [idle g turn] at enabled
    cases enabled

/-- Settles O59: P's, the bus's and E's turns take what their agents are enabled for, or pass. -/
theorem anyEnabledAgentMayMoveNext : Obligations.AnyEnabledAgentMayMoveNext := by
  refine ⟨fun s t turn rest h => ?_, fun s g rest turns => ?_⟩
  · have later := takeTurn_turns turn { s with turns := [] } rest
    rw [show takeTurn turn { s with turns := [] } = .next t from h] at later
    exact later
  let u : State := { s with turns := rest }
  refine ⟨fun enabled => ?_, fun idle => ?_⟩
  · obtain ⟨t, next⟩ := step_answers (not_misaccesses_of_enabled turns enabled)
    have takes : TurnTakes u g.turn t := step_takes_turn turns next
    replace enabled : u.agentEnabled g = true := enabled
    refine ⟨t, next, turn_keeps_turns takes, ?_⟩
    cases g with
    | processing => exact processing_takes_token (s := u) takes enabled
    | control | analyzer | host => exact bus_takes_own (s := u) rfl takes enabled
    | delivery => exact delivery_takes_record (s := u) takes enabled
  · by_cases mis : s.Misaccesses
    · exact .inr mis.step
    · obtain ⟨t, next⟩ := step_answers mis
      have takes := step_takes_turn turns next
      rw [next]
      refine .inl (congrArg _ ?_)
      cases g with
      | processing => exact processing_passes takes (idle .processing rfl)
      | control | analyzer | host =>
        exact bus_passes takes (fun a more bus none => mis ⟨rest, more, a, turns, bus, none⟩) idle
      | delivery => exact delivery_passes takes (idle .delivery rfl)

end Sys2Proof.Machine
end

section
/-! Who writes what (20_memory.md R86): each instruction leaves the registers of the words it may not write, and only
tokens and the reset input change history. -/

namespace Sys2Proof.Machine

/-! ## What the shared operations leave of the map (R72) -/

theorem State.withCstatus_readReg (s : State) (c : Code) (op : BitVec 8) {r : Reg} (other : r ≠ .cstatus) :
    (s.withCstatus c op).readReg r = s.readReg r := by
  cases r with
  | cstatus => exact absurd rfl other
  | _ => rfl

theorem State.withQstatus_readReg (s : State) (c : Code) (op : BitVec 8) {r : Reg} (other : r ≠ .qstatus) :
    (s.withQstatus c op).readReg r = s.readReg r := by
  cases r with
  | qstatus => exact absurd rfl other
  | _ => rfl

theorem State.withSstatus_readReg (s : State) (c : Code) (op : BitVec 8) {r : Reg} (other : r ≠ .sstatus) :
    (s.withSstatus c op).readReg r = s.readReg r := by
  cases r with
  | sstatus => exact absurd rfl other
  | _ => rfl

theorem State.setRate_readReg (s : State) (sr : Word) {r : Reg} (other : r ≠ .sampleRate) :
    (s.setRate sr).readReg r = s.readReg r := by
  cases r with
  | sampleRate => exact absurd rfl other
  | _ => simp [State.readReg, State.freqAt, State.magAt, State.phaseAt]

theorem State.respond_readReg (s : State) (n : Nat) (f : Word → Response) {r : Reg} (mag : ∀ i < n, r ≠ .mag i)
    (phase : ∀ i < n, r ≠ .phase i) : (s.respond n f).readReg r = s.readReg r := by
  cases r with
  | mag i =>
    obtain ⟨entry, -⟩ := s.respond_at n f i
    exact entry.trans (if_neg fun lt => mag i lt rfl)
  | phase i =>
    obtain ⟨-, entry⟩ := s.respond_at n f i
    exact entry.trans (if_neg fun lt => phase i lt rfl)
  | _ => rfl

theorem State.readReg_qres (s : State) {j : Nat} (h : j < 10) : s.readReg (.qres j) = s.qres[j] := getD_toList _ _ h

theorem State.readReg_qres_past (s : State) {j : Nat} (h : 10 ≤ j) : s.readReg (.qres j) = 0 :=
  getD_past _ _ _ (by simpa using h)

/-! ## Every instruction (R86) -/

theorem mayWriteWord_cstatus {i : Instr} (port : i.port = some .cmd) : mayWriteWord i (Reg.word .cstatus) = true := by
  cases i <;> cases port <;> rfl

theorem mayWriteWord_qstatus {i : Instr} (port : i.port = some .qcmd) : mayWriteWord i (Reg.word .qstatus) = true := by
  cases i <;> cases port <;> rfl

theorem mayWriteWord_sstatus {i : Instr} (port : i.port = some .sin) : mayWriteWord i (Reg.word .sstatus) = true := by
  cases i <;> cases port <;> rfl

/-- A register whose word an instruction may not write is none that it may. -/
theorem Reg.ne_of_kept {i : Instr} {r r' : Reg} (kept : mayWriteWord i r.word = false)
    (written : mayWriteWord i r'.word = true) : r ≠ r' := by
  rintro rfl
  rw [kept] at written
  cases written

/-- DESIGN writes QSTATUS and the first five words of QRES (40_designer.md R166). -/
theorem design_readReg {ft : FilterType} {s t : State} {r : Reg} (h : exec (.design ft) s = .next t)
    (kept : mayWriteWord (.design ft) r.word = false) : t.readReg r = s.readReg r := by
  have status : r ≠ .qstatus := Reg.ne_of_kept kept rfl
  simp only [exec, execDesign] at h
  split at h <;> cases h
  · cases r with
    | qstatus => exact absurd rfl status
    | qres j =>
      have above : 5 ≤ j := by
        simp only [mayWriteWord, Bool.or_eq_false_iff, Bool.and_eq_false_iff, decide_eq_false_iff_not] at kept
        simp only [Reg.word] at kept
        omega
      obtain inFile | past := Nat.lt_or_ge j 10
      · rw [State.readReg_qres _ inFile, State.readReg_qres _ inFile]
        interval_cases j <;> rfl
      · rw [State.readReg_qres_past _ past, State.readReg_qres_past _ past]
    | _ => rfl
  · exact s.withQstatus_readReg _ _ status

/-- READ_BAND writes QSTATUS and QRES (43_analyzer.md R269). -/
theorem readBand_readReg {b : BandId} {s t : State} {r : Reg} (h : exec (.readBand b) s = .next t)
    (kept : mayWriteWord (.readBand b) r.word = false) : t.readReg r = s.readReg r := by
  have status : r ≠ .qstatus := Reg.ne_of_kept kept rfl
  simp only [exec, execReadBand] at h
  split at h <;> cases h
  · cases r with
    | qstatus => exact absurd rfl status
    | qres j =>
      have past : 10 ≤ j := by
        simp only [mayWriteWord, Bool.or_eq_false_iff, Bool.and_eq_false_iff, decide_eq_false_iff_not] at kept
        simp only [Reg.word] at kept
        omega
      rw [State.readReg_qres_past _ past, State.readReg_qres_past _ past]
    | _ => rfl
  · exact s.withQstatus_readReg _ _ status

/-- A response query writes QSTATUS and the first COUNT entries of two buffers (43_analyzer.md R268, R270, R271). -/
theorem respond_withQstatus_readReg {s : State} {n : Count} {r : Reg} (f : Word → Response) (c : Code) (op : BitVec 8)
    (kept : mayWriteWord (.response n) r.word = false) :
    ((s.respond n.toNat f).withQstatus c op).readReg r = s.readReg r := by
  rw [State.withQstatus_readReg _ _ _ (Reg.ne_of_kept kept rfl)]
  refine s.respond_readReg _ f (fun i lt => Reg.ne_of_kept kept ?_) fun i lt => Reg.ne_of_kept kept ?_
  · simp [mayWriteWord, Reg.word, lt]
  · simp [mayWriteWord, Reg.word, lt]

theorem query_readReg {i : Instr} {s t : State} {r : Reg} (port : i.port = some .qcmd) (h : exec i s = .next t)
    (kept : mayWriteWord i r.word = false) : t.readReg r = s.readReg r := by
  have status : r ≠ .qstatus := Reg.ne_of_kept kept (mayWriteWord_qstatus port)
  cases i with
  | design ft => exact design_readReg h kept
  | readBand b => exact readBand_readReg h kept
  | response n =>
    simp only [exec, execResponse] at h
    split at h
    · split at h <;> cases h
      · exact respond_withQstatus_readReg _ _ _ kept
      · exact s.withQstatus_readReg _ _ status
    · cases h
      exact s.withQstatus_readReg _ _ status
  | responseBand b n =>
    simp only [exec, execResponseBand] at h
    split at h
    · split at h <;> cases h
      · exact respond_withQstatus_readReg _ _ _ kept
      · exact s.withQstatus_readReg _ _ status
    · cases h
      exact s.withQstatus_readReg _ _ status
  | responseChain n =>
    simp only [exec, execResponseChain] at h
    split at h <;> cases h
    · exact respond_withQstatus_readReg _ _ _ kept
    · exact s.withQstatus_readReg _ _ status
  | _ => cases port

/-- An instruction leaves every register whose word it may not write. -/
theorem exec_readReg {i : Instr} {s t : State} {r : Reg} (h : exec i s = .next t)
    (kept : mayWriteWord i r.word = false) : t.readReg r = s.readReg r := by
  cases exec_effect h with
  | edits port b _ p =>
    rw [State.withCstatus_readReg _ _ _ (Reg.ne_of_kept kept (mayWriteWord_cstatus port))]
    cases r <;> rfl
  | findsNoBand port => exact s.withCstatus_readReg _ _ (Reg.ne_of_kept kept (mayWriteWord_cstatus port))
  | failsToken port => exact s.withSstatus_readReg _ _ (Reg.ne_of_kept kept (mayWriteWord_sstatus port))
  | results port | responds port | failsQuery port => exact query_readReg port h kept
  | filters xs =>
    rw [State.withSstatus_readReg _ _ _ (Reg.ne_of_kept kept rfl)]
    cases r <;> rfl
  | rates sr =>
    rw [State.withSstatus_readReg _ _ _ (Reg.ne_of_kept kept rfl)]
    exact s.setRate_readReg sr (Reg.ne_of_kept kept rfl)
  | counts n =>
    rw [State.withSstatus_readReg _ _ _ (Reg.ne_of_kept kept rfl)]
    have count : r ≠ .channelCount := Reg.ne_of_kept kept rfl
    cases r with
    | channelCount => exact absurd rfl count
    | _ => rfl
  | clears =>
    rw [State.withSstatus_readReg _ _ _ (Reg.ne_of_kept kept rfl)]
    cases r <;> rfl
  | delivers => cases r <;> rfl
  | waitsForSout | waitsForEvt => rfl

theorem exec_keeps_build {i : Instr} {s t : State} (h : exec i s = .next t) : t.build = s.build := by
  cases exec_effect h with
  | filters => rfl
  | _ => simp

/-! ## Bytes of the map (R75) -/

theorem toNat_wordAddr (a : Addr) : (a &&& 0x3FFF8).toNat = 8 * (a.toNat / 8) := by
  have inMap := a.isLt
  rw [show (0x3FFF8 : Addr) = BitVec.allOnes 18 <<< 3 from rfl, ← BitVec.shiftLeft_ushiftRight]
  simp only [BitVec.toNat_shiftLeft, BitVec.toNat_ushiftRight, Nat.shiftRight_eq_div_pow, Nat.shiftLeft_eq]
  omega

/-- Settles O18, through the register at the byte's word. -/
theorem instructionsLeaveOtherMapBytes : Obligations.InstructionsLeaveOtherMapBytes := by
  intro i s t a h kept
  suffices same : t.mapRead (a &&& 0x3FFF8) = s.mapRead (a &&& 0x3FFF8) by rw [State.mapByte, same, State.mapByte]
  rw [State.mapRead, State.mapRead, exec_keeps_build h]
  by_cases none : regAt s.build.mQuery (a &&& 0x3FFF8) = .unmapped
  · rw [none]
    rfl
  · obtain ⟨-, place⟩ := regAt_place (by rw [toNat_wordAddr]; omega) rfl none
    refine exec_readReg h ?_
    rw [← kept]
    congr 1
    rw [toNat_wordAddr] at place
    omega

/-! ## History (41_filter.md R206) -/

theorem decodeCmd_port {w : Word} {i : Instr} (h : decodeCmd w = .ok i) : i.port = some .cmd := by
  unfold decodeCmd at h
  split at h
  all_goals simp only [formatB, formatT, reduceCtorEq] at h
  all_goals
    split at h <;> cases h
    rfl

theorem decodeQcmd_port {w : Word} {i : Instr} (h : decodeQcmd w = .ok i) : i.port = some .qcmd := by
  unfold decodeQcmd at h
  split at h
  all_goals simp only [bandZero, formatB, formatT, formatN, reduceCtorEq] at h
  all_goals
    repeat' split at h
    all_goals cases h
    all_goals rfl

/-- Of the instructions, only tokens change history. -/
theorem exec_keeps_hist {i : Instr} {s t : State} (h : exec i s = .next t) (other : i.port ≠ some .sin) :
    t.hist = s.hist := by
  cases exec_effect h with
  | filters | rates | counts | clears => exact absurd rfl other
  | _ => simp

theorem turn_keeps_hist {τ : Turn} {s t : State} (h : TurnTakes s τ t) (processing : τ ≠ .processing)
    (reset : τ ≠ .reset) : t.hist = s.hist := by
  cases h with
  | streamWaits | streams | streamsNothing => exact absurd rfl processing
  | resets => exact absurd rfl reset
  | controls _ _ _ decoded runs => exact (exec_keeps_hist runs (by simp [decodeCmd_port decoded])).trans rfl
  | queries _ _ _ decoded runs => exact (exec_keeps_hist runs (by simp [decodeQcmd_port decoded])).trans rfl
  | delivers runs => exact exec_keeps_hist runs nofun
  | writes => rw [State.writeReg_keeps]
  | _ => rfl

/-- Settles O22. -/
theorem onlyProcessingAndResetChangeHistory : Obligations.OnlyProcessingAndResetChangeHistory := by
  intro s t h changed
  obtain rfl | ⟨τ, rest, turns, takes⟩ := step_takes h
  · exact absurd rfl changed
  · by_contra other
    rw [not_exists] at other
    obtain ⟨processing, reset⟩ := not_or.mp (other rest)
    exact changed ((turn_keeps_hist takes (fun e => processing (e ▸ turns)) fun e => reset (e ▸ turns)).trans rfl)

end Sys2Proof.Machine
end

section
/-! Decoding inverts encoding (30_encoding.md R101 to R112, R119, R120): on each port the words that decode to an
instruction are exactly the words the encoder writes for it. Both directions of the round trip, and the opcode table,
follow from that equivalence. -/

namespace Sys2Proof

/-! ## The words of each format (R101, R110) -/

theorem wordB_eq_iff {op : BitVec 8} {b : BandId} {w : Word} :
    wordB op b = w ↔ opField w = op ∧ bandField w = b ∧ w.extractLsb' 16 48 = 0 := by
  refine ⟨?_, ?_⟩
  · rintro rfl
    exact wordB_fields op b
  · rintro ⟨rfl, rfl, reserved⟩
    exact wordB_of_fields w reserved

theorem wordT_eq_iff {op : BitVec 8} {b : BandId} {t : FilterType} {w : Word} :
    wordT op b t = w ↔
      opField w = op ∧ bandField w = b ∧ .ofCode (typeField w) = t ∧ w.extractLsb' 19 45 = 0 := by
  refine ⟨?_, ?_⟩
  · rintro rfl
    obtain ⟨op', band, type, reserved⟩ := wordT_fields op b t
    exact ⟨op', band, by rw [type, FilterType.ofCode_code], reserved⟩
  · rintro ⟨rfl, rfl, rfl, reserved⟩
    exact wordT_of_fields w reserved

theorem wordN_eq_iff {op : BitVec 8} {b : BandId} {n : Count} {w : Word} :
    wordN op b n = w ↔ opField w = op ∧ bandField w = b ∧ countField w = n ∧ w.extractLsb' 32 32 = 0 := by
  refine ⟨?_, ?_⟩
  · rintro rfl
    exact wordN_fields op b n
  · rintro ⟨rfl, rfl, rfl, reserved⟩
    exact wordN_of_fields w reserved

theorem opField_eq_of_toNat {w : Word} {n : Nat} (h : (opField w).toNat = n) : opField w = BitVec.ofNat 8 n := by
  rw [← h, BitVec.ofNat_toNat, BitVec.setWidth_eq]

/-! ## The formats' checks (R102, R110, R113) -/

theorem ite_error_eq_ok {c : Prop} [Decidable c] {r : Except DecodeError Instr} {e : DecodeError} {i : Instr} :
    (if c then r else .error e) = .ok i ↔ c ∧ r = .ok i := by
  split
  · next holds => exact (and_iff_right holds).symm
  · next fails => exact iff_of_false nofun fun ⟨holds, _⟩ => fails holds

@[simp] theorem formatB_eq_ok {w : Word} {i j : Instr} : formatB w i = .ok j ↔ w.extractLsb' 16 48 = 0 ∧ i = j :=
  ite_error_eq_ok.trans (and_congr_right' (by rw [Except.ok.injEq]))

@[simp] theorem formatT_eq_ok {w : Word} {i j : Instr} : formatT w i = .ok j ↔ w.extractLsb' 19 45 = 0 ∧ i = j :=
  ite_error_eq_ok.trans (and_congr_right' (by rw [Except.ok.injEq]))

@[simp] theorem formatN_eq_ok {w : Word} {i j : Instr} : formatN w i = .ok j ↔ w.extractLsb' 32 32 = 0 ∧ i = j :=
  ite_error_eq_ok.trans (and_congr_right' (by rw [Except.ok.injEq]))

@[simp] theorem bandZero_eq_ok {w : Word} {r : Except DecodeError Instr} {j : Instr} :
    bandZero w r = .ok j ↔ bandField w = 0 ∧ r = .ok j := ite_error_eq_ok

@[simp] theorem formatS_eq_ok {h : Word} {r : Except DecodeError Instr} {j : Instr} :
    formatS h r = .ok j ↔ bandField h = 0 ∧ h.extractLsb' 32 32 = 0 ∧ r = .ok j :=
  ite_error_eq_ok.trans and_assoc

@[simp] theorem countZero_eq_ok {h : Word} {r : Except DecodeError Instr} {j : Instr} :
    countZero h r = .ok j ↔ countField h = 0 ∧ r = .ok j := ite_error_eq_ok

/-! ## The command ports (R105, R106) -/

theorem encode_of_decodeCmd {w : Word} {i : Instr} (h : decodeCmd w = .ok i) : encode i = [w] := by
  unfold decodeCmd at h
  split at h
  case h_1 op | h_2 op | h_3 op =>
    obtain ⟨reserved, rfl⟩ := formatB_eq_ok.mp h
    exact List.singleton_inj.mpr (wordB_eq_iff.mpr ⟨opField_eq_of_toNat op, rfl, reserved⟩)
  case h_4 op | h_5 op =>
    obtain ⟨reserved, rfl⟩ := formatT_eq_ok.mp h
    exact List.singleton_inj.mpr (wordT_eq_iff.mpr ⟨opField_eq_of_toNat op, rfl, rfl, reserved⟩)
  case h_6 => cases h

theorem encode_of_decodeQcmd {w : Word} {i : Instr} (h : decodeQcmd w = .ok i) : encode i = [w] := by
  unfold decodeQcmd at h
  split at h
  case h_1 op =>
    obtain ⟨band, format⟩ := bandZero_eq_ok.mp h
    obtain ⟨reserved, rfl⟩ := formatT_eq_ok.mp format
    exact List.singleton_inj.mpr (wordT_eq_iff.mpr ⟨opField_eq_of_toNat op, band, rfl, reserved⟩)
  case h_2 op =>
    obtain ⟨reserved, rfl⟩ := formatB_eq_ok.mp h
    exact List.singleton_inj.mpr (wordB_eq_iff.mpr ⟨opField_eq_of_toNat op, rfl, reserved⟩)
  case h_3 op | h_5 op =>
    obtain ⟨band, format⟩ := bandZero_eq_ok.mp h
    obtain ⟨reserved, rfl⟩ := formatN_eq_ok.mp format
    exact List.singleton_inj.mpr (wordN_eq_iff.mpr ⟨opField_eq_of_toNat op, band, rfl, reserved⟩)
  case h_4 op =>
    obtain ⟨reserved, rfl⟩ := formatN_eq_ok.mp h
    exact List.singleton_inj.mpr (wordN_eq_iff.mpr ⟨opField_eq_of_toNat op, rfl, rfl, reserved⟩)
  case h_6 => cases h

theorem decodeCmd_of_encode {w : Word} {i : Instr} (port : i.port = some .cmd) (h : encode i = [w]) :
    decodeCmd w = .ok i := by
  cases i with
  | setFreq b | setQ b | setGain b =>
    obtain ⟨op, rfl, reserved⟩ := wordB_eq_iff.mp (List.singleton_inj.mp h)
    simp [decodeCmd, op, reserved]
  | setType b t | setParams b t =>
    obtain ⟨op, rfl, rfl, reserved⟩ := wordT_eq_iff.mp (List.singleton_inj.mp h)
    simp [decodeCmd, op, reserved]
  | _ => cases port

theorem decodeQcmd_of_encode {w : Word} {i : Instr} (port : i.port = some .qcmd) (h : encode i = [w]) :
    decodeQcmd w = .ok i := by
  cases i with
  | design t =>
    obtain ⟨op, band, rfl, reserved⟩ := wordT_eq_iff.mp (List.singleton_inj.mp h)
    simp [decodeQcmd, op, band, reserved]
  | readBand b =>
    obtain ⟨op, rfl, reserved⟩ := wordB_eq_iff.mp (List.singleton_inj.mp h)
    simp [decodeQcmd, op, reserved]
  | response n | responseChain n | responseBand b n =>
    obtain ⟨op, band, rfl, reserved⟩ := wordN_eq_iff.mp (List.singleton_inj.mp h)
    simp [decodeQcmd, op, band, reserved]
  | _ => cases port

/-- The control port's decoder is the encoder's inverse. -/
theorem decodeCmd_eq_ok_iff {w : Word} {i : Instr} :
    decodeCmd w = .ok i ↔ encode i = [w] ∧ i.port = some .cmd :=
  ⟨fun h => ⟨encode_of_decodeCmd h, Machine.decodeCmd_port h⟩, fun ⟨h, port⟩ => decodeCmd_of_encode port h⟩

/-- The query port's decoder is the encoder's inverse. -/
theorem decodeQcmd_eq_ok_iff {w : Word} {i : Instr} :
    decodeQcmd w = .ok i ↔ encode i = [w] ∧ i.port = some .qcmd :=
  ⟨fun h => ⟨encode_of_decodeQcmd h, Machine.decodeQcmd_port h⟩, fun ⟨h, port⟩ => decodeQcmd_of_encode port h⟩

/-! ## The input stream (R110 to R112) -/

theorem payloadLen_frame {h : Word} (op : opField h = 0x40) : payloadLen h = (countField h).toNat := by
  simp [payloadLen, op]

theorem payloadLen_rate {h : Word} (op : opField h = 0x41) : payloadLen h = 1 := by
  simp [payloadLen, op]

theorem payloadLen_other {h : Word} (frame : opField h ≠ 0x40) (rate : opField h ≠ 0x41) : payloadLen h = 0 := by
  unfold payloadLen
  split
  · next op => exact absurd (opField_eq_of_toNat op) frame
  · next op => exact absurd (opField_eq_of_toNat op) rate
  · rfl

/-- Settles O5. -/
theorem tokenLengthIsFixedByTheHeader : Obligations.TokenLengthIsFixedByTheHeader := by
  refine fun h => ⟨fun op => ?frame, fun op => ?rate, fun frame rate => ?other⟩
  case frame => rw [payloadLen_frame op]
  case rate => rw [payloadLen_rate op]
  case other => rw [payloadLen_other frame rate]

theorem token_of_decodeToken {h : Word} {payload : List Word} {i : Instr} (decoded : decodeToken h payload = .ok i) :
    (encode i = h :: payload ∧ i.port = some .sin) ∧ payload.length = payloadLen h := by
  unfold decodeToken at decoded
  split at decoded
  · cases decoded
  next length =>
  replace length := not_not.mp length
  refine ⟨?_, length⟩
  split at decoded
  case h_1 op =>
    have op := opField_eq_of_toNat op
    obtain ⟨band, reserved, ⟨⟩⟩ := formatS_eq_ok.mp decoded
    rw [payloadLen_frame op] at length
    have count : countField h = BitVec.ofNat 16 payload.length := by
      rw [length, BitVec.ofNat_toNat, BitVec.setWidth_eq]
    exact ⟨congrArg (· :: payload) (wordN_eq_iff.mpr ⟨op, band, count, reserved⟩), rfl⟩
  case h_2 op =>
    have op := opField_eq_of_toNat op
    obtain ⟨band, reserved, format⟩ := formatS_eq_ok.mp decoded
    obtain ⟨count, payloadRead⟩ := countZero_eq_ok.mp format
    rw [payloadLen_rate op] at length
    obtain ⟨s, rfl⟩ := List.length_eq_one_iff.mp length
    cases payloadRead
    exact ⟨congrArg (· :: [s]) (wordN_eq_iff.mpr ⟨op, band, count, reserved⟩), rfl⟩
  case h_3 op =>
    have op := opField_eq_of_toNat op
    obtain ⟨band, reserved, ⟨⟩⟩ := formatS_eq_ok.mp decoded
    rw [payloadLen_other (by simp [op]) (by simp [op])] at length
    obtain rfl := List.length_eq_zero_iff.mp length
    exact ⟨List.singleton_inj.mpr (wordN_eq_iff.mpr ⟨op, band, rfl, reserved⟩), rfl⟩
  case h_4 op =>
    have op := opField_eq_of_toNat op
    obtain ⟨band, reserved, format⟩ := formatS_eq_ok.mp decoded
    obtain ⟨count, ⟨⟩⟩ := countZero_eq_ok.mp format
    rw [payloadLen_other (by simp [op]) (by simp [op])] at length
    obtain rfl := List.length_eq_zero_iff.mp length
    exact ⟨List.singleton_inj.mpr (wordN_eq_iff.mpr ⟨op, band, count, reserved⟩), rfl⟩
  case h_5 => cases decoded

/-- The header of a well-formed token gives its payload's length: a FRAME's COUNT holds it (R110, R111). -/
theorem payload_length_of_encode {h : Word} {payload : List Word} {i : Instr} (wf : i.wf = true)
    (port : i.port = some .sin) (words : encode i = h :: payload) : payload.length = payloadLen h := by
  cases i with
  | frame xs =>
    obtain ⟨header, rfl⟩ := List.cons.inj words
    obtain ⟨op, -, count, -⟩ := wordN_eq_iff.mp header
    have fits : xs.length < 65536 := of_decide_eq_true wf
    rw [payloadLen_frame op, count, BitVec.toNat_ofNat, Nat.mod_eq_of_lt fits]
  | rate s =>
    obtain ⟨header, rfl⟩ := List.cons.inj words
    obtain ⟨op, -⟩ := wordN_eq_iff.mp header
    exact (payloadLen_rate op).symm
  | channels n | discontinuity =>
    obtain ⟨header, rfl⟩ := List.cons.inj words
    obtain ⟨op, -⟩ := wordN_eq_iff.mp header
    exact (payloadLen_other (by simp [op]) (by simp [op])).symm
  | _ => cases port

theorem decodeToken_of_encode {h : Word} {payload : List Word} {i : Instr} (port : i.port = some .sin)
    (words : encode i = h :: payload) (length : payload.length = payloadLen h) : decodeToken h payload = .ok i := by
  unfold decodeToken
  rw [if_neg (not_not.mpr length)]
  cases i with
  | frame xs | rate s | channels n | discontinuity =>
    obtain ⟨header, rfl⟩ := List.cons.inj words
    obtain ⟨op, band, count, reserved⟩ := wordN_eq_iff.mp header
    simp [op, band, count, reserved]
  | _ => cases port

/-- The stream's decoder is the encoder's inverse on tokens of the header's length. -/
theorem decodeToken_eq_ok_iff {h : Word} {payload : List Word} {i : Instr} :
    decodeToken h payload = .ok i ↔
      (encode i = h :: payload ∧ i.port = some .sin) ∧ payload.length = payloadLen h :=
  ⟨token_of_decodeToken, fun ⟨⟨words, port⟩, length⟩ => decodeToken_of_encode port words length⟩

/-! ## The round trips -/

theorem encode_eq_singleton {i : Instr} {p : Port} (port : i.port = some p) (command : p ≠ .sin) :
    ∃ w, encode i = [w] := by
  cases i with
  | frame | rate | channels | discontinuity => cases port; exact absurd rfl command
  | deliver => cases port
  | _ => exact ⟨_, rfl⟩

theorem encode_eq_cons {i : Instr} {p : Port} (port : i.port = some p) : ∃ h payload, encode i = h :: payload := by
  cases i with
  | deliver => cases port
  | _ => exact ⟨_, _, rfl⟩

/-- Settles O1, port by port, from the equivalence of decoding and encoding. -/
theorem decodingAnEncodedInstructionGivesItBack : Obligations.DecodingAnEncodedInstructionGivesItBack := by
  intro i p rest wf port
  cases p with
  | cmd =>
    obtain ⟨w, words⟩ := encode_eq_singleton port nofun
    simp [words, decode, decodeCmd_of_encode port words, Except.map]
  | qcmd =>
    obtain ⟨w, words⟩ := encode_eq_singleton port nofun
    simp [words, decode, decodeQcmd_of_encode port words, Except.map]
  | sin =>
    obtain ⟨h, payload, words⟩ := encode_eq_cons port
    have length := payload_length_of_encode wf port words
    simp [words, decode, splitToken_append h payload rest length, decodeToken_of_encode port words length, Except.map]

/-- Settles O2. -/
theorem encodingADecodedInstructionGivesItsWords : Obligations.EncodingADecodedInstructionGivesItsWords := by
  refine ⟨fun w i => decodeCmd_eq_ok_iff.mp, fun w i => decodeQcmd_eq_ok_iff.mp, fun h payload i decoded => ?_⟩
  obtain ⟨token, -⟩ := decodeToken_eq_ok_iff.mp decoded
  exact token

end Sys2Proof
end

section
/-! The opcode table as the formats' words (30_encoding.md R105, R106, R111): a row's mask leaves out one run of bits,
its format's operand fields, so a row accepts the words of its format with its opcode. -/

namespace Sys2Proof

/-! ## Masks -/

theorem eq_iff_runs (lo n k : Nat) (width : lo + n + k = 64) {w v : Word} :
    w = v ↔ w.extractLsb' 0 lo = v.extractLsb' 0 lo ∧ w.extractLsb' lo n = v.extractLsb' lo n ∧
      w.extractLsb' (lo + n) k = v.extractLsb' (lo + n) k := by
  refine ⟨by rintro rfl; exact ⟨rfl, rfl, rfl⟩, fun ⟨low, run, high⟩ => BitVec.eq_of_getLsbD_eq fun i hi => ?_⟩
  obtain below | inside | above : i < lo ∨ (lo ≤ i ∧ i - lo < n) ∨ (lo + n ≤ i ∧ i - (lo + n) < k) := by omega
  · simpa [below] using congrArg (·.getLsbD i) low
  · obtain ⟨ge, lt⟩ := inside
    simpa [lt, Nat.add_sub_cancel' ge] using congrArg (·.getLsbD (i - lo)) run
  · obtain ⟨ge, lt⟩ := above
    simpa [lt, Nat.add_sub_cancel' ge] using congrArg (·.getLsbD (i - (lo + n))) high

/-- A mask without the run of n bits from lo on compares the bits below and above the run. -/
theorem and_mask_eq_iff (lo n k : Nat) (width : lo + n + k = 64) {mask : Word}
    (low : mask.extractLsb' 0 lo = BitVec.allOnes lo) (run : mask.extractLsb' lo n = 0)
    (high : mask.extractLsb' (lo + n) k = BitVec.allOnes k) {w p : Word} (none : p.extractLsb' lo n = 0) :
    w &&& mask = p ↔ w.extractLsb' 0 lo = p.extractLsb' 0 lo ∧
      w.extractLsb' (lo + n) k = p.extractLsb' (lo + n) k := by
  rw [eq_iff_runs lo n k width]
  simp [BitVec.extractLsb'_and, low, run, high, none]

/-! ## Rows by format -/

theorem extract_of_small {p : Word} (small : p.toNat < 256) {lo : Nat} (above : 8 ≤ lo) (n : Nat) :
    p.extractLsb' lo n = 0 := by
  have run : p.toNat < 2 ^ lo := small.trans_le (Nat.pow_le_pow_right (n := 2) (by decide) above)
  apply BitVec.eq_of_toNat_eq
  rw [toNat_field, Nat.div_eq_of_lt run]
  simp

theorem extract_low16_eq_iff {w v : Word} :
    w.extractLsb' 0 16 = v.extractLsb' 0 16 ↔ opField w = opField v ∧ bandField w = bandField v := by
  simp only [opField, bandField, ← BitVec.toNat_inj, toNat_field]
  omega

section
variable {q : Port} {p w : Word} (small : p.toNat < 256)
include small

/-- A row whose pattern is an opcode accepts the words with its low bits and zeros above the operands. -/
theorem accepts_iff (lo n k : Nat) {mask : Word} (width : lo + n + k = 64) (above : 8 ≤ lo)
    (low : mask.extractLsb' 0 lo = BitVec.allOnes lo) (run : mask.extractLsb' lo n = 0)
    (high : mask.extractLsb' (lo + n) k = BitVec.allOnes k) :
    (OpcodeRow.mk q p mask).accepts w = true ↔
      w.extractLsb' 0 lo = p.extractLsb' 0 lo ∧ w.extractLsb' (lo + n) k = 0 := by
  rw [OpcodeRow.accepts, beq_iff_eq, and_mask_eq_iff lo n k width low run high (extract_of_small small above n),
    extract_of_small small (above.trans (Nat.le_add_right lo n)) k]

theorem accepts_iff_wordB :
    (OpcodeRow.mk q p 0xFFFFFFFFFFFF00FF).accepts w = true ↔ ∃ b, wordB (opField p) b = w := by
  rw [accepts_iff small 8 8 48 (by decide) (by decide) (by decide) (by decide) (by decide)]
  simp [wordB_eq_iff, opField]

theorem accepts_iff_wordT :
    (OpcodeRow.mk q p 0xFFFFFFFFFFF800FF).accepts w = true ↔ ∃ b t, wordT (opField p) b t = w := by
  rw [accepts_iff small 8 11 45 (by decide) (by decide) (by decide) (by decide) (by decide)]
  simp [wordT_eq_iff, opField]

theorem accepts_iff_wordN :
    (OpcodeRow.mk q p 0xFFFFFFFF000000FF).accepts w = true ↔ ∃ b n, wordN (opField p) b n = w := by
  rw [accepts_iff small 8 24 32 (by decide) (by decide) (by decide) (by decide) (by decide)]
  simp [wordN_eq_iff, opField]

theorem accepts_iff_wordT_zero :
    (OpcodeRow.mk q p 0xFFFFFFFFFFF8FFFF).accepts w = true ↔ ∃ t, wordT (opField p) 0 t = w := by
  have noBand : bandField p = 0 := extract_of_small small le_rfl 8
  rw [accepts_iff small 16 3 45 (by decide) (by decide) (by decide) (by decide) (by decide),
    extract_low16_eq_iff, noBand]
  simp [wordT_eq_iff, and_assoc]

theorem accepts_iff_wordN_zero :
    (OpcodeRow.mk q p 0xFFFFFFFF0000FFFF).accepts w = true ↔ ∃ n, wordN (opField p) 0 n = w := by
  have noBand : bandField p = 0 := extract_of_small small le_rfl 8
  rw [accepts_iff small 16 16 32 (by decide) (by decide) (by decide) (by decide) (by decide),
    extract_low16_eq_iff, noBand]
  simp [wordN_eq_iff, and_assoc]

theorem accepts_iff_wordN_zero_zero :
    (OpcodeRow.mk q p 0xFFFFFFFFFFFFFFFF).accepts w = true ↔ wordN (opField p) 0 0 = w := by
  have pattern : wordN (opField p) 0 0 = p := wordN_eq_iff.mpr
    ⟨rfl, extract_of_small small le_rfl 8, extract_of_small small (by decide) 16, extract_of_small small (by decide) 32⟩
  rw [pattern, OpcodeRow.accepts, beq_iff_eq, eq_comm, show (0xFFFFFFFFFFFFFFFF : Word) = BitVec.allOnes 64 from rfl,
    BitVec.and_allOnes]

end

/-! ## The ports: what each decodes, and what its rows accept -/

theorem decodeCmd_accepts_iff {w : Word} : (∃ i, decodeCmd w = .ok i) ↔
    (∃ b, wordB 0x01 b = w) ∨ (∃ b, wordB 0x02 b = w) ∨ (∃ b, wordB 0x03 b = w) ∨
    (∃ b t, wordT 0x04 b t = w) ∨ ∃ b t, wordT 0x05 b t = w := by
  simp only [decodeCmd_eq_ok_iff]
  refine ⟨fun ⟨i, words, port⟩ => ?_, ?_⟩
  · cases i with
    | setFreq b | setQ b | setGain b =>
      obtain rfl := List.singleton_inj.mp words
      simp only [exists_apply_eq_apply, true_or, or_true]
    | setType b t | setParams b t =>
      obtain rfl := List.singleton_inj.mp words
      simp only [exists_apply_eq_apply2, true_or, or_true]
    | _ => cases port
  · rintro (⟨b, rfl⟩ | ⟨b, rfl⟩ | ⟨b, rfl⟩ | ⟨b, t, rfl⟩ | ⟨b, t, rfl⟩)
    · exact ⟨.setFreq b, rfl, rfl⟩
    · exact ⟨.setQ b, rfl, rfl⟩
    · exact ⟨.setGain b, rfl, rfl⟩
    · exact ⟨.setType b t, rfl, rfl⟩
    · exact ⟨.setParams b t, rfl, rfl⟩

theorem decodeQcmd_accepts_iff {w : Word} : (∃ i, decodeQcmd w = .ok i) ↔
    (∃ t, wordT 0x20 0 t = w) ∨ (∃ b, wordB 0x21 b = w) ∨ (∃ n, wordN 0x22 0 n = w) ∨
    (∃ b n, wordN 0x23 b n = w) ∨ ∃ n, wordN 0x24 0 n = w := by
  simp only [decodeQcmd_eq_ok_iff]
  refine ⟨fun ⟨i, words, port⟩ => ?_, ?_⟩
  · cases i with
    | design t | readBand b | response n | responseBand b n | responseChain n =>
      obtain rfl := List.singleton_inj.mp words
      simp only [exists_apply_eq_apply, exists_apply_eq_apply2, true_or, or_true]
    | _ => cases port
  · rintro (⟨t, rfl⟩ | ⟨b, rfl⟩ | ⟨n, rfl⟩ | ⟨b, n, rfl⟩ | ⟨n, rfl⟩)
    · exact ⟨.design t, rfl, rfl⟩
    · exact ⟨.readBand b, rfl, rfl⟩
    · exact ⟨.response n, rfl, rfl⟩
    · exact ⟨.responseBand b n, rfl, rfl⟩
    · exact ⟨.responseChain n, rfl, rfl⟩

theorem decodeToken_accepts_iff {h : Word} {payload : List Word} (length : payload.length = payloadLen h) :
    (∃ i, decodeToken h payload = .ok i) ↔
      (∃ n, wordN 0x40 0 n = h) ∨ wordN 0x41 0 0 = h ∨ (∃ n, wordN 0x42 0 n = h) ∨ wordN 0x43 0 0 = h := by
  simp only [decodeToken_eq_ok_iff, length, and_true]
  refine ⟨fun ⟨i, words, port⟩ => ?_, ?_⟩
  · cases i with
    | frame xs | rate s | channels n | discontinuity =>
      obtain ⟨rfl, -⟩ := List.cons.inj words
      simp only [exists_apply_eq_apply, true_or, or_true]
    | _ => cases port
  · rintro (⟨n, rfl⟩ | rfl | ⟨n, rfl⟩ | rfl)
    · obtain ⟨op, -, count, -⟩ := wordN_fields 0x40 0 n
      rw [payloadLen_frame op, count] at length
      exact ⟨.frame payload, by rw [encode, length, BitVec.ofNat_toNat, BitVec.setWidth_eq], rfl⟩
    · obtain ⟨op, -⟩ := wordN_fields 0x41 0 0
      rw [payloadLen_rate op] at length
      obtain ⟨s, rfl⟩ := List.length_eq_one_iff.mp length
      exact ⟨.rate s, rfl, rfl⟩
    · obtain ⟨op, -⟩ := wordN_fields 0x42 0 n
      rw [payloadLen_other (by rw [op]; decide) (by rw [op]; decide)] at length
      obtain rfl := List.length_eq_zero_iff.mp length
      exact ⟨.channels n, rfl, rfl⟩
    · obtain rfl := List.length_eq_zero_iff.mp length
      exact ⟨.discontinuity, rfl, rfl⟩

theorem cmdRows_accept_iff {w : Word} : (∃ r ∈ opcodeRows, r.port = .cmd ∧ r.accepts w = true) ↔
    (∃ b, wordB 0x01 b = w) ∨ (∃ b, wordB 0x02 b = w) ∨ (∃ b, wordB 0x03 b = w) ∨
    (∃ b t, wordT 0x04 b t = w) ∨ ∃ b t, wordT 0x05 b t = w := by
  simp (disch := decide) only [opcodeRows, List.exists_mem_cons_iff, List.not_mem_nil, reduceCtorEq, true_and,
    false_and, exists_false, or_false, accepts_iff_wordB, accepts_iff_wordT]
  rfl

theorem qcmdRows_accept_iff {w : Word} : (∃ r ∈ opcodeRows, r.port = .qcmd ∧ r.accepts w = true) ↔
    (∃ t, wordT 0x20 0 t = w) ∨ (∃ b, wordB 0x21 b = w) ∨ (∃ n, wordN 0x22 0 n = w) ∨
    (∃ b n, wordN 0x23 b n = w) ∨ ∃ n, wordN 0x24 0 n = w := by
  simp (disch := decide) only [opcodeRows, List.exists_mem_cons_iff, List.not_mem_nil, reduceCtorEq, true_and,
    false_and, exists_false, or_false, false_or, accepts_iff_wordB, accepts_iff_wordN, accepts_iff_wordT_zero,
    accepts_iff_wordN_zero]
  rfl

theorem sinRows_accept_iff {h : Word} : (∃ r ∈ opcodeRows, r.port = .sin ∧ r.accepts h = true) ↔
    (∃ n, wordN 0x40 0 n = h) ∨ wordN 0x41 0 0 = h ∨ (∃ n, wordN 0x42 0 n = h) ∨ wordN 0x43 0 0 = h := by
  simp (disch := decide) only [opcodeRows, List.exists_mem_cons_iff, List.not_mem_nil, reduceCtorEq, true_and,
    false_and, exists_false, or_false, false_or, accepts_iff_wordN_zero, accepts_iff_wordN_zero_zero]
  rfl

/-- Settles O3: a port decodes the words of its formats, and those are what its rows accept. -/
theorem portsAcceptExactlyTheOpcodeTable : Obligations.PortsAcceptExactlyTheOpcodeTable :=
  ⟨fun _ => decodeCmd_accepts_iff.trans cmdRows_accept_iff.symm,
    fun _ => decodeQcmd_accepts_iff.trans qcmdRows_accept_iff.symm,
    fun _ _ length => (decodeToken_accepts_iff length).trans sinRows_accept_iff.symm⟩

end Sys2Proof
end

section
/-! What a command that is none does, and what reaches SOUT (30_encoding.md R102, R107, R115). -/

namespace Sys2Proof.Machine

/-! ## Commands (R102, R107) -/

theorem step_command {s : State} {w : Word} {rest more} (turns : s.turns = .bus :: rest)
    (bus : s.bus = .write 0x00100 8 w :: more) : step s = stepControl w { s with turns := rest, bus := more } := by
  simp only [step, turns, takeTurn, stepBus, bus]
  rfl

theorem step_query {s : State} {w : Word} {rest more} (turns : s.turns = .bus :: rest)
    (bus : s.bus = .write 0x00200 8 w :: more) : step s = stepQuery w { s with turns := rest, bus := more } := by
  simp only [step, turns, takeTurn, stepBus, bus]
  rfl

/-- Settles O7. -/
theorem illegalCommandChangesOnlyItsStatus : Obligations.IllegalCommandChangesOnlyItsStatus := by
  refine ⟨fun s w e rest more turns bus illegal => ?cmd, fun s w e rest more turns bus illegal => ?qcmd⟩
  case cmd =>
    rw [step_command turns bus, stepControl, illegal]
    rfl
  case qcmd =>
    rw [step_query turns bus, stepQuery, illegal]
    rfl

/-! ## Output frames (R115) -/

/-- From s to t, SOUT took one output frame of s's channel count. -/
def TakesFrame (s t : State) : Prop :=
  ∃ os, t.sout = s.sout ++ wordN 0x40 0 s.channelCount :: os ∧ os.length = s.channels

theorem State.filtered_takesFrame {s : State} (lanesFit : s.channels ≤ s.hist.length) {xs : List Word}
    (count : xs.length = s.channels) : TakesFrame s (s.filtered xs) := by
  obtain ⟨length, -⟩ := lanes_spec s.draws s.coef 0 xs s.hist (count.trans_le lanesFit)
  exact ⟨_, rfl, length.trans count⟩

/-- Of the instructions, only tokens write SOUT. -/
theorem exec_keeps_sout {i : Instr} {s t : State} (h : exec i s = .next t) (other : i.port ≠ some .sin) :
    t.sout = s.sout := by
  cases exec_effect h with
  | filters => exact absurd rfl other
  | _ => simp

/-- What a token writes to SOUT is a frame. -/
theorem exec_sout {i : Instr} {s t : State} (h : exec i s = .next t) (lanesFit : s.channels ≤ s.hist.length) :
    t.sout = s.sout ∨ TakesFrame s t := by
  cases exec_effect h with
  | filters xs count => exact .inr (State.filtered_takesFrame lanesFit count)
  | _ => exact .inl (by simp)

theorem turn_sout {τ : Turn} {s t : State} (h : TurnTakes s τ t) (lanesFit : s.channels ≤ s.hist.length) :
    t.sout = s.sout ∨ TakesFrame s t ∧ τ = .processing := by
  cases h with
  | controls _ _ _ decoded runs => exact .inl ((exec_keeps_sout runs (by simp [decodeCmd_port decoded])).trans rfl)
  | queries _ _ _ decoded runs => exact .inl ((exec_keeps_sout runs (by simp [decodeQcmd_port decoded])).trans rfl)
  | streams _ _ _ runs => exact (exec_sout runs lanesFit).imp_right fun frame => ⟨frame, rfl⟩
  | delivers runs => exact .inl (exec_keeps_sout runs nofun)
  | writes => exact .inl (by rw [State.writeReg_keeps])
  | _ => exact .inl rfl

/-- Settles O23. -/
theorem soutCarriesOnlyWholeFrames : Obligations.SoutCarriesOnlyWholeFrames := by
  intro s t lanesFit h
  obtain rfl | ⟨τ, rest, turns, takes⟩ := step_takes h
  · exact .inl rfl
  · exact (turn_sout takes lanesFit).imp_right fun ⟨⟨os, sout, length⟩, processing⟩ =>
      ⟨os, sout, length, rest, by rw [turns, processing]⟩

end Sys2Proof.Machine
end

section
/-! What the comparisons say of signs, and where a quotient lies: what 40_designer.md R142 needs to know of the ratio
of a frequency to half the rate. -/

namespace Sys2Proof.F64

open Sys2Proof.Machine

/-! ## Signs and the order -/

theorem isFinite_iff (w : Word) : isFinite w = true ↔ w.toNat % 9223372036854775808 < 0x7FF0000000000000 := by
  rw [isFinite, bne_iff_ne, ne_eq, expField_eq_div]
  omega

theorem isFinite_of_not_inf {w : Word} (nan : isNaN w = false) (inf : isInf w = false) : isFinite w = true := by
  rw [Bool.eq_false_iff, ne_eq, isNaN_iff] at nan
  rw [Bool.eq_false_iff, ne_eq, isInf_iff] at inf
  rw [isFinite_iff]
  omega

theorem order_of_plus {w : Word} (h : signBit w = false) : 0 ≤ order w := by
  rw [order, if_neg (by simp [h])]
  omega

theorem order_of_minus {w : Word} (h : signBit w = true) : order w ≤ 0 := by
  rw [order, if_pos h]
  omega

/-- Nothing with the sign bit is above something without it. -/
theorem lt_false_of_signs {a b : Word} (ha : signBit a = false) (hb : signBit b = true) : lt a b = false := by
  simp only [lt, Bool.and_eq_false_iff, decide_eq_false_iff_not]
  exact .inr ((order_of_minus hb).trans (order_of_plus ha)).not_gt

theorem zero_lt_false_of_isZero {w : Word} (h : isZero w = true) : lt zero w = false := by
  rcases isZero_eq_or h with rfl | rfl <;> decide

/-- Without the sign bit a word that is no NaN and no zero is positive. -/
theorem pos_of_plus {w : Word} (nan : isNaN w = false) (plus : signBit w = false) (nonzero : isZero w = false) :
    lt zero w = true := by
  rw [Bool.eq_false_iff, ne_eq, isZero_iff] at nonzero
  rw [lt_iff_order (by decide) nan, show order zero = 0 by decide, order, plus, if_neg (by decide)]
  omega

/-- A word that is not positive is a NaN, a zero, or has the sign bit. -/
theorem nan_zero_or_minus_of_not_pos {w : Word} (h : lt zero w = false) :
    isNaN w = true ∨ isZero w = true ∨ signBit w = true := by
  by_contra! c
  simp only [ne_eq, Bool.not_eq_true] at c
  obtain ⟨nan, nonzero, plus⟩ := c
  rw [pos_of_plus nan plus nonzero] at h
  cases h

/-- A positive word has no sign bit and is no zero. -/
theorem plus_of_pos {w : Word} (h : lt zero w = true) : signBit w = false ∧ isZero w = false := by
  constructor
  · by_contra minus
    rw [lt_false_of_signs (by decide) (Bool.eq_true_of_not_eq_false minus)] at h
    cases h
  · by_contra zeros
    rw [zero_lt_false_of_isZero (Bool.eq_true_of_not_eq_false zeros)] at h
    cases h

/-- The words strictly between 0 and +inf are finite. -/
theorem isFinite_of_mem {w : Word} (pos : lt zero w = true) (below : lt w posInf = true) : isFinite w = true := by
  have nan := (not_nan_of_lt pos).2
  have lo := (lt_iff_order (by decide) nan).mp pos
  have hi := (lt_iff_order nan (by decide)).mp below
  rw [show order zero = 0 by decide, order, (plus_of_pos pos).1, if_neg (by decide)] at lo
  rw [show order posInf = 0x7FF0000000000000 by decide, order, (plus_of_pos pos).1, if_neg (by decide)] at hi
  rw [isFinite_iff]
  omega

/-! ## The comparisons with each other -/

theorem pos_of_one_lt {w : Word} (h : lt one w = true) : lt zero w = true := by
  have nan := (not_nan_of_lt h).2
  have above := (lt_iff_order (by decide) nan).mp h
  exact (lt_iff_order (by decide) nan).mpr ((by decide : order zero < order one).trans above)

theorem le_of_lt_true {a b : Word} (h : lt a b = true) : le a b = true := by
  obtain ⟨na, nb⟩ := not_nan_of_lt h
  exact (le_iff_order na nb).mpr ((lt_iff_order na nb).mp h).le

theorem le_of_lt_false {a b : Word} (na : isNaN a = false) (nb : isNaN b = false) (h : lt b a = false) :
    le a b = true := by
  rw [Bool.eq_false_iff, ne_eq, lt_iff_order nb na] at h
  exact (le_iff_order na nb).mpr (not_lt.mp h)

theorem lt_false_of_le {a b : Word} (h : le a b = true) : lt b a = false := by
  simp only [le, Bool.and_eq_true, decide_eq_true_eq] at h
  simp only [lt, Bool.and_eq_false_iff, decide_eq_false_iff_not]
  exact .inr h.2.not_gt

theorem eq_false_of_lt {a b : Word} (h : lt a b = true) : eq a b = false ∧ eq b a = false := by
  obtain ⟨na, nb⟩ := not_nan_of_lt h
  rw [lt_iff_order na nb] at h
  rw [Bool.eq_false_iff, Bool.eq_false_iff, ne_eq, ne_eq, eq_iff_order na nb, eq_iff_order nb na]
  omega

theorem isZero_of_eq_zero {w : Word} (h : eq w zero = true) : isZero w = true := by
  simp only [eq, Bool.and_eq_true, decide_eq_true_eq] at h
  obtain ⟨-, place⟩ := h
  rw [show order zero = 0 by decide, order] at place
  rw [isZero_iff]
  split at place <;> omega

theorem eq_one_of_le_of_not_lt {w : Word} (reached : le one w = true) (notAbove : lt one w = false) : w = one := by
  simp only [le, Bool.and_eq_true, Bool.not_eq_true', decide_eq_true_eq] at reached
  obtain ⟨⟨none, nan⟩, lo⟩ := reached
  rw [Bool.eq_false_iff, ne_eq, lt_iff_order none nan, not_lt] at notAbove
  exact eq_of_order_eq (le_antisymm notAbove lo) (by decide)

theorem eq_zero_false_of_eq_one {w : Word} (h : eq w one = true) : eq w zero = false := by
  simp only [eq, Bool.and_eq_true, decide_eq_true_eq] at h
  simp only [eq, Bool.and_eq_false_iff, decide_eq_false_iff_not]
  obtain ⟨-, h⟩ := h
  exact .inr (h ▸ by decide)

/-! ## Quotients -/

/-- A quotient that is no NaN has the exclusive or of the signs. -/
theorem div_sign (a b : Word) : isNaN (div a b) = true ∨ signBit (div a b) = (signBit a != signBit b) := by
  have packed (low : Nat) (h : low < 9223372036854775808) :
      signBit (pack (signBit a != signBit b) low) = (signBit a != signBit b) := (pack_fields _ low h).1
  simp only [div]
  split
  · exact .inl (by decide)
  split
  · split
    · exact .inl (by decide)
    · exact .inr (packed _ (by decide))
  split
  · exact .inr (packed _ (by decide))
  split
  · split
    · exact .inl (by decide)
    · exact .inr (packed _ (by decide))
  · exact .inr (round_sign _ _ _)

/-- A zero over anything is a zero or a NaN. -/
theorem div_of_zero {a : Word} (b : Word) (h : isZero a = true) :
    isNaN (div a b) = true ∨ isZero (div a b) = true := by
  have packed (neg : Bool) : isZero (pack neg 0) = true := by cases neg <;> decide
  have finite : isInf a = false := by rcases isZero_eq_or h with rfl | rfl <;> decide
  have empty (d : Nat) : (quotient (mag a) d).1 = 0 := by simp [quotient, (isZero_iff_mag a).mp h]
  simp only [div, finite, h, empty]
  split
  · exact .inl (by decide)
  rw [if_neg Bool.false_ne_true]
  split
  · exact .inr (packed _)
  split
  · exact .inl (by rw [if_pos trivial]; decide)
  · exact .inr (by rw [round, if_pos rfl]; exact packed _)

/-- What is not positive stays so over a divisor without the sign bit. -/
theorem div_not_pos {a b : Word} (ha : lt zero a = false) (hb : signBit b = false) : lt zero (div a b) = false := by
  rcases nan_zero_or_minus_of_not_pos ha with nan | isZ | minus
  · rw [div, if_pos (by simp [nan])]
    decide
  · rcases div_of_zero b isZ with h | h
    · exact (compare_nan (.inr h)).1
    · exact zero_lt_false_of_isZero h
  · rcases div_sign a b with h | h
    · exact (compare_nan (.inr h)).1
    · exact lt_false_of_signs (by decide) (by rw [h, minus, hb]; rfl)

/-- Rounding does not fall below a finite value that the exact number reaches. -/
theorem le_of_roundsTo {c w : Word} {x : ℝ} (hc : isFinite c = true) (hx : (wordValue c : ℝ) ≤ x)
    (h : RoundsTo x w) : le c w = true := by
  rcases le_or_gt (2 ^ 1024 - 2 ^ 970) x with top | range
  · rw [h.overflow.1 top]
    exact (compare_infinities (isNaN_of_isFinite hc)).2.1
  · have range' : |x| < 2 ^ 1024 - 2 ^ 970 :=
      abs_lt.mpr ⟨(abs_lt.mp (abs_wordValue_lt hc)).1.trans_le hx, range⟩
    have near := h.nearest range' c hc
    rw [abs_of_nonneg (sub_nonneg.mpr hx)] at near
    rw [(compare_finite hc (h.finite range')).2.1]
    exact_mod_cast (by linarith [le_abs_self (x - wordValue w)] : (wordValue c : ℝ) ≤ wordValue w)

theorem wordValue_one : wordValue one = 1 := by
  rw [wordValue, show value one = 2 ^ 1074 by decide +kernel]
  norm_num

theorem wordValue_pos {w : Word} (hf : isFinite w = true) (h : lt zero w = true) : 0 < wordValue w := by
  have := (compare_finite (by decide) hf).1.mp h
  rwa [show wordValue zero = 0 by simp [wordValue, show value zero = 0 by decide]] at this

/-- A number above a finite divisor without the sign bit is at least once that divisor. -/
theorem one_le_div_of_lt {a b : Word} (hb : isFinite b = true) (plus : signBit b = false) (h : lt b a = true) :
    le one (div a b) = true := by
  obtain ⟨nb, na⟩ := not_nan_of_lt h
  have above : order b < order a := (lt_iff_order nb na).mp h
  have aPos : lt zero a = true := (lt_iff_order (by decide) na).mpr ((order_of_plus plus).trans_lt above)
  obtain ⟨aPlus, aNonzero⟩ := plus_of_pos aPos
  have infinite : pack (signBit a != signBit b) 0x7FF0000000000000 = posInf := by rw [aPlus, plus]; rfl
  cases inf : isInf a with
  | true =>
    have top : div a b = posInf := by simp [div, na, nb, inf, isInf_of_isFinite hb, infinite]
    rw [top]
    decide
  | false =>
    have fa := isFinite_of_not_inf na inf
    cases bZero : isZero b with
    | true =>
      have top : div a b = posInf := by simp [div, na, nb, inf, isInf_of_isFinite hb, bZero, aNonzero, infinite]
      rw [top]
      decide
    | false =>
      have bPos := wordValue_pos hb (pos_of_plus nb plus bZero)
      refine le_of_roundsTo (by decide) ?_ (roundsTo_div fa hb bZero)
      rw [wordValue_one, Rat.cast_one, one_le_div₀ (by exact_mod_cast bPos)]
      exact_mod_cast ((compare_finite hb fa).1.mp h).le

end Sys2Proof.F64
end

section
/-! The clamped arguments, and the branches of the designer's choice (40_designer.md R142 to R151). -/

namespace Sys2Proof.Machine

open Config (NumSel)

/-! ## The normalized frequency (R142) -/

theorem normFreq_of_above {f sr : Word} (h : F64.lt F64.one (F64.div f (F64.div sr Const.two)) = true) :
    normFreq f sr = F64.one := if_pos h

theorem normFreq_of_pos {f sr : Word} (le : F64.lt F64.one (F64.div f (F64.div sr Const.two)) = false)
    (pos : F64.lt F64.zero (F64.div f (F64.div sr Const.two)) = true) :
    normFreq f sr = F64.div f (F64.div sr Const.two) := by simp [normFreq, le, pos]

theorem normFreq_of_not_pos {f sr : Word} (h : F64.lt F64.zero (F64.div f (F64.div sr Const.two)) = false) :
    normFreq f sr = F64.zero := by
  have le : F64.lt F64.one (F64.div f (F64.div sr Const.two)) = false := by
    by_contra above
    rw [F64.pos_of_one_lt (Bool.eq_true_of_not_eq_false above)] at h
    cases h
  simp [normFreq, le, h]

theorem normFreq_mem (f sr : Word) :
    F64.le F64.zero (normFreq f sr) = true ∧ F64.le (normFreq f sr) F64.one = true := by
  cases above : F64.lt F64.one (F64.div f (F64.div sr Const.two)) with
  | true => rw [normFreq_of_above above]; decide
  | false =>
    cases pos : F64.lt F64.zero (F64.div f (F64.div sr Const.two)) with
    | true =>
      rw [normFreq_of_pos above pos]
      exact ⟨F64.le_of_lt_true pos, F64.le_of_lt_false (F64.not_nan_of_lt pos).2 (by decide) above⟩
    | false => rw [normFreq_of_not_pos pos]; decide

/-- Half a valid rate is finite and has no sign bit; it is a zero for the smallest subnormal rate. -/
theorem halfRate_of_valid {sr : Word} (valid : validRate sr = true) :
    F64.isFinite (F64.div sr Const.two) = true ∧ F64.signBit (F64.div sr Const.two) = false := by
  obtain ⟨pos, below⟩ := Bool.and_eq_true_iff.mp valid
  have finite := F64.isFinite_of_mem pos below
  constructor
  · refine (F64.roundsTo_div finite (by decide) (by decide)).finite ?_
    have two : (1 : ℝ) ≤ wordValue Const.two := by
      rw [← Rat.cast_one, ← F64.wordValue_one]
      exact_mod_cast (F64.compare_finite (by decide) (by decide)).2.1.mp (by decide : F64.le F64.one Const.two = true)
    rw [abs_div]
    exact (div_le_self (abs_nonneg _) (two.trans (le_abs_self _))).trans_lt (F64.abs_wordValue_lt finite)
  · rw [F64.div_of_finite finite (by decide) (by decide), F64.round_sign, (F64.plus_of_pos pos).1]
    decide

theorem normFreq_of_freq_not_pos {f sr : Word} (valid : validRate sr = true) (h : F64.lt F64.zero f = false) :
    normFreq f sr = F64.zero :=
  normFreq_of_not_pos (F64.div_not_pos h (halfRate_of_valid valid).2)

theorem normFreq_of_freq_above {f sr : Word} (valid : validRate sr = true)
    (h : F64.lt (F64.div sr Const.two) f = true) : normFreq f sr = F64.one := by
  obtain ⟨finite, plus⟩ := halfRate_of_valid valid
  have reached := F64.one_le_div_of_lt finite plus h
  cases above : F64.lt F64.one (F64.div f (F64.div sr Const.two)) with
  | true => exact normFreq_of_above above
  | false =>
    have ratio : F64.div f (F64.div sr Const.two) = F64.one := F64.eq_one_of_le_of_not_lt reached above
    rw [normFreq_of_pos above (by rw [ratio]; decide), ratio]

/-! ## The clamped Q and gain (R143, R144) -/

theorem clampQ_of_pos {q : Word} (h : F64.lt F64.zero q = true) : clampQ q = q := if_pos h

theorem clampQ_of_not_pos {q : Word} (h : F64.lt F64.zero q = false) : clampQ q = F64.zero :=
  if_neg (ne_true_of_eq_false h)

theorem zero_le_clampQ (q : Word) : F64.le F64.zero (clampQ q) = true := by
  cases h : F64.lt F64.zero q with
  | true => rw [clampQ_of_pos h]; exact F64.le_of_lt_true h
  | false => rw [clampQ_of_not_pos h]; decide

theorem clampGain_of_nan {g : Word} (h : F64.isNaN g = true) : clampGain g = F64.zero := if_pos h

theorem clampGain_of_above {g : Word} (h : F64.lt Const.gainLimit g = true) : clampGain g = Const.gainLimit := by
  simp [clampGain, (F64.not_nan_of_lt h).2, h]

theorem clampGain_of_below {g : Word} (h : F64.lt g Const.negGainLimit = true) :
    clampGain g = Const.negGainLimit := by
  obtain ⟨nan, -⟩ := F64.not_nan_of_lt h
  have below := (F64.lt_iff_order nan (by decide)).mp h
  have notAbove : F64.lt Const.gainLimit g = false := by
    rw [Bool.eq_false_iff, ne_eq, F64.lt_iff_order (by decide) nan]
    exact (below.trans (by decide : F64.order Const.negGainLimit < F64.order Const.gainLimit)).not_gt
  simp [clampGain, nan, notAbove, h]

theorem clampGain_of_mem {g : Word} (lo : F64.le Const.negGainLimit g = true) (hi : F64.le g Const.gainLimit = true) :
    clampGain g = g := by
  have nan : F64.isNaN g = false := by
    by_contra c
    rw [(F64.compare_nan (.inl (Bool.eq_true_of_not_eq_false c))).2.1] at hi
    cases hi
  simp [clampGain, nan, F64.lt_false_of_le lo, F64.lt_false_of_le hi]

theorem clampGain_range (g : Word) :
    F64.le Const.negGainLimit (clampGain g) = true ∧ F64.le (clampGain g) Const.gainLimit = true := by
  unfold clampGain
  split
  · decide
  · next nan =>
    rw [Bool.not_eq_true] at nan
    split
    · decide
    · next notAbove =>
      split
      · decide
      · next notBelow =>
        rw [Bool.not_eq_true] at notAbove notBelow
        exact ⟨F64.le_of_lt_false (by decide) nan notBelow, F64.le_of_lt_false nan (by decide) notAbove⟩

/-- Settles O52, argument by argument. -/
theorem clampedArgumentsAreInRange : Obligations.ClampedArgumentsAreInRange :=
  ⟨fun f sr => ⟨normFreq_of_above, normFreq_of_pos, normFreq_of_not_pos, normFreq_mem f sr⟩,
    fun q => ⟨clampQ_of_pos, clampQ_of_not_pos, zero_le_clampQ q⟩,
    fun g => ⟨clampGain_of_nan, clampGain_of_above, clampGain_of_below, clampGain_of_mem, clampGain_range g⟩⟩

/-! ## The choice of a case (R147, R148) -/

theorem usesGain_iff (ft : FilterType) : usesGain ft = true ↔ ft = .peaking ∨ ft = .lowshelf ∨ ft = .highshelf := by
  cases ft <;> decide

/-- A gain that is a NaN or a zero clamps to 0 dB. -/
theorem clampGain_flat {g : Word} (h : F64.isNaN g = true ∨ F64.eq g F64.zero = true) :
    F64.eq (clampGain g) F64.zero = true := by
  rcases h with nan | zero
  · rw [clampGain_of_nan nan]
    decide
  · rcases F64.isZero_eq_or (F64.isZero_of_eq_zero zero) with rfl | rfl <;> decide

/-- Settles O47: a NaN and both zeros clamp to 0 dB. -/
theorem gainZeroGivesIdentity : Obligations.GainZeroGivesIdentity :=
  fun n ft f q _ sr uses flat => design_of_flat n f q sr ((usesGain_iff ft).mpr uses) (clampGain_flat flat)

/-! Where R148's case does not apply, the first of R149 to R151 and R153 that does gives the tuple. -/

section
variable {n : NumSel} {ft : FilterType} {f q g sr : Word}
  (audible : ¬((ft = .peaking ∨ ft = .lowshelf ∨ ft = .highshelf) ∧ F64.eq (clampGain g) F64.zero = true))
include audible

theorem notFlat_of_audible : ¬(usesGain ft && F64.eq (clampGain g) F64.zero) = true := by
  rwa [Bool.and_eq_true, usesGain_iff]

theorem design_of_nf_zero (low : F64.eq (normFreq f sr) F64.zero = true) :
    design n ft f q g sr = .gain (tableZ0 ft (gainScale n (clampGain g))) := by
  rw [design, designClamped, if_neg (notFlat_of_audible audible), if_pos low]

theorem design_of_nf_one (high : F64.eq (normFreq f sr) F64.one = true) :
    design n ft f q g sr = .gain (tableZ1 ft (gainScale n (clampGain g))) := by
  rw [design, designClamped, if_neg (notFlat_of_audible audible),
    if_neg (ne_true_of_eq_false (F64.eq_zero_false_of_eq_one high)), if_pos high]

theorem design_of_between (lo : F64.lt F64.zero (normFreq f sr) = true) (hi : F64.lt (normFreq f sr) F64.one = true) :
    design n ft f q g sr = if F64.eq (clampQ q) F64.zero then .gain (tableQ0 ft (gainScale n (clampGain g)))
      else guarded ft (gainScale n (clampGain g))
        (normalize (interior n ft (normFreq f sr) (clampQ q) (gainScale n (clampGain g)))) := by
  rw [design, designClamped, if_neg (notFlat_of_audible audible),
    if_neg (ne_true_of_eq_false (F64.eq_false_of_lt lo).2), if_neg (ne_true_of_eq_false (F64.eq_false_of_lt hi).1)]

end

/-- Settles O48: a ratio whose numerator is not positive is not positive, and the table is read row by row. -/
theorem zeroNormalizedFrequencyTakesTableZ0 : Obligations.ZeroNormalizedFrequencyTakesTableZ0 := by
  intro n ft f q g sr
  refine ⟨normFreq_of_freq_not_pos, fun low audible => ?_⟩
  rw [design_of_nf_zero audible low]
  cases ft <;> rfl

/-- Settles O49: a ratio above 1 does not round below it, and the table is read row by row. -/
theorem unitNormalizedFrequencyTakesTableZ1 : Obligations.UnitNormalizedFrequencyTakesTableZ1 := by
  intro n ft f q g sr
  refine ⟨fun valid above => ?_, fun high audible => ?_⟩
  · rw [normFreq_of_freq_above valid above]
    decide
  · rw [design_of_nf_one audible high]
    cases ft <;> rfl

/-- Settles O50: the clamped Q, then the finite guard, decide between the table and the interior tuple. -/
theorem disabledAndGuardedBandsTakeTableQ0 : Obligations.DisabledAndGuardedBandsTakeTableQ0 := by
  intro n ft f q g sr lo hi audible a q0
  have table : Coef.gain (tableQ0 ft a) = q0 := by
    cases ft with
    | allpass => exact congrArg Coef.gain (by decide : Const.negOne = F64.neg F64.one)
    | _ => rfl
  rw [design_of_between audible lo hi]
  refine ⟨fun disabled => ?_, fun enabled => ?_⟩
  · rw [clampQ_of_not_pos disabled, if_pos (by decide), table]
  · rw [clampQ_of_pos enabled, if_neg (ne_true_of_eq_false (F64.eq_false_of_lt enabled).2)]
    exact ⟨fun bad => (if_neg (ne_true_of_eq_false bad)).trans table, fun good => if_pos good⟩

/-! ## Finite tuples (R153, R163) -/

theorem Coef.isFinite_iff (c : Coef) : c.isFinite = true ↔
    F64.isFinite c.b0 = true ∧ F64.isFinite c.b1 = true ∧ F64.isFinite c.b2 = true ∧
    F64.isFinite c.a1 = true ∧ F64.isFinite c.a2 = true := by
  simp only [Coef.isFinite, Bool.and_eq_true, and_assoc]

theorem Coef.isFinite_gain (k : Word) : (Coef.gain k).isFinite = F64.isFinite k := by
  have zero : F64.isFinite F64.zero = true := by decide
  simp [Coef.isFinite, Coef.gain, zero]

section
variable {a : Word} (square : F64.isFinite (F64.mul a a) = true)
include square

theorem isFinite_gainSquare : F64.isFinite (gainSquare a) = true := by
  rwa [gainSquare, F64.settle_of_not_nan (F64.isNaN_of_isFinite square)]

/-- Every entry of the three tables is A·A, 1.0, 0.0 or -1.0. -/
theorem isFinite_tables (ft : FilterType) :
    F64.isFinite (tableZ0 ft a) = true ∧ F64.isFinite (tableZ1 ft a) = true ∧ F64.isFinite (tableQ0 ft a) = true := by
  have squared := isFinite_gainSquare square
  have one : F64.isFinite F64.one = true := by decide
  have zero : F64.isFinite F64.zero = true := by decide
  have negOne : F64.isFinite Const.negOne = true := by decide
  cases ft with
  | allpass => exact ⟨one, one, negOne⟩
  | bandpass => exact ⟨zero, zero, one⟩
  | highpass => exact ⟨one, zero, one⟩
  | highshelf => exact ⟨squared, one, one⟩
  | lowpass => exact ⟨zero, one, one⟩
  | lowshelf => exact ⟨one, squared, one⟩
  | notch => exact ⟨one, one, zero⟩
  | peaking => exact ⟨one, one, squared⟩

theorem isFinite_guarded (ft : FilterType) (c : Coef) : (guarded ft a c).isFinite = true := by
  unfold guarded
  split
  · assumption
  · rw [Coef.isFinite_gain]
    exact (isFinite_tables square ft).2.2

end

theorem isFinite_designClamped {n : NumSel} {gc : Word}
    (square : F64.isFinite (F64.mul (gainScale n gc) (gainScale n gc)) = true) (ft : FilterType) (nf qc : Word) :
    (designClamped n ft nf qc gc).isFinite = true := by
  obtain ⟨z0, z1, q0⟩ := isFinite_tables square ft
  simp only [designClamped]
  split
  · decide
  split
  · rwa [Coef.isFinite_gain]
  split
  · rwa [Coef.isFinite_gain]
  split
  · rwa [Coef.isFinite_gain]
  · exact isFinite_guarded square ft _

/-- Settles O53: the tables are finite where A·A is, and the guard leaves no other tuple that is not. -/
theorem designedCoefficientsAreFinite : Obligations.DesignedCoefficientsAreFinite :=
  fun _ ft f q _ sr _ square => (Coef.isFinite_iff _).mp (isFinite_designClamped square ft (normFreq f sr) (clampQ q))

/-! ## The interior formulas (R154 to R161) -/

/-- Settles O51: each formula is the one written there, its negative constants the sign flips of 2.0 and 4.0. -/
theorem interiorTypesHaveTheirFormulas : Obligations.InteriorTypesHaveTheirFormulas := by
  intro n nf q a
  exact ⟨rfl, rfl, rfl, rfl, rfl, rfl, rfl, rfl⟩

/-! ## The DESIGN query (R166) -/

/-- The words of QRES that no DESIGN writes. -/
theorem drop_five_toList {α : Type} (v : Vector α 10) : v.toList.drop 5 = [v[5], v[6], v[7], v[8], v[9]] := by
  refine List.ext_getElem (by simp) fun i _ h => ?_
  rw [List.getElem_drop, Vector.getElem_toList]
  simp only [List.length_cons, List.length_nil] at h
  interval_cases i <;> rfl

/-- Settles O29, by the two branches of DESIGN. -/
theorem designQueryEvaluatesTheDesigner : Obligations.DesignQueryEvaluatesTheDesigner := by
  intro s ft
  refine ⟨fun valid => ⟨_, if_pos valid, rfl, ?_, rfl⟩, fun invalid => if_neg (ne_true_of_eq_false invalid)⟩
  exact (drop_five_toList s.qres).symm

end Sys2Proof.Machine
end

section
/-! The next token of SIN: what P's turn does with it (41_filter.md R198, R211, R212), and which headers start none
(30_encoding.md R113). -/

namespace Sys2Proof

/-- SIN decodes to an instruction when its first token is whole and decodes to it (30_encoding.md R112). -/
theorem decode_sin_eq_ok_iff {ws rest : List Word} {i : Instr} :
    decode .sin ws = .ok (i, rest) ↔
      ∃ h payload, splitToken ws = some (h, payload, rest) ∧ decodeToken h payload = .ok i := by
  simp only [decode]
  cases splitToken ws with
  | none => simp
  | some token =>
    obtain ⟨h, payload, rest'⟩ := token
    cases decoded : decodeToken h payload <;> simp [Except.map, decoded, and_comm]

theorem splitToken_cons {h : Word} {ws : List Word} (whole : payloadLen h ≤ ws.length) :
    splitToken (h :: ws) = some (h, ws.take (payloadLen h), ws.drop (payloadLen h)) := if_pos whole

theorem splitToken_cons_part {h : Word} {ws : List Word} (part : ws.length < payloadLen h) :
    splitToken (h :: ws) = none := if_neg (Nat.not_le_of_lt part)

/-- The header of a token that is an instruction has a known OP and no reserved bit (R110, R111). -/
theorem header_of_decodeToken {h : Word} {payload : List Word} {i : Instr} (decoded : decodeToken h payload = .ok i) :
    bandField h = 0 ∧ h.extractLsb' 32 32 = 0 ∧
      (opField h = 0x40 ∨ opField h = 0x42 ∨ (opField h = 0x41 ∨ opField h = 0x43) ∧ countField h = 0) := by
  obtain ⟨⟨words, port⟩, -⟩ := token_of_decodeToken decoded
  cases i with
  | frame xs | rate s | channels n | discontinuity =>
    obtain ⟨header, -⟩ := List.cons.inj words
    obtain ⟨op, band, count, reserved⟩ := wordN_eq_iff.mp header
    exact ⟨band, reserved, by simp [op, count]⟩
  | _ => cases port

end Sys2Proof

namespace Sys2Proof.Machine

/-! ## SSTATUS (R210) -/

@[simp] theorem StreamStatus.after_ok (st : StreamStatus) (op : BitVec 8) :
    st.after .ok op = ⟨.ok, op, st.sticky⟩ := by
  simp [StreamStatus.after]

theorem StreamStatus.after_failed (st : StreamStatus) {code : Code} (bad : code ≠ .ok) (op : BitVec 8) :
    st.after code op = ⟨code, op, true⟩ := by
  simp [StreamStatus.after, bad]

theorem State.withSstatus_failed (s : State) (code : Code) (op : BitVec 8) (bad : code ≠ .ok) :
    s.withSstatus code op = { s with sstatus := ⟨code, op, true⟩ } := by
  rw [State.withSstatus, StreamStatus.after_failed _ bad]

/-! ## P's turn (R198) -/

theorem step_processing {s : State} {rest} (turns : s.turns = .processing :: rest) :
    step s = stepStream { s with turns := rest } := by
  simp only [step, turns, takeTurn]

/-- A token that is an instruction runs when P can take it (R211). -/
theorem step_token_runs {s : State} {h : Word} {payload ws : List Word} {i : Instr} {rest}
    (turns : s.turns = .processing :: rest) (token : splitToken s.sin = some (h, payload, ws))
    (decoded : decodeToken h payload = .ok i) (ready : s.streamReady i = true) :
    step s = exec i { s with turns := rest, sin := ws } := by
  simp only [step_processing turns, stepStream, token, decoded]
  exact if_pos ((streamReady_turns s rest i).trans ready)

/-- A token that is no instruction is taken and reported (R212). -/
theorem step_token_illegal {s : State} {h : Word} {payload ws : List Word} {e : DecodeError} {rest}
    (turns : s.turns = .processing :: rest) (token : splitToken s.sin = some (h, payload, ws))
    (illegal : decodeToken h payload = .error e) :
    step s = .next { s with turns := rest, sin := ws, sstatus := ⟨.badCommand, opField h, true⟩ } := by
  simp only [step_processing turns, stepStream, token, illegal, State.withSstatus,
    StreamStatus.after_failed _ (show Code.badCommand ≠ .ok from nofun)]

/-- P's turn passes where P is not enabled. -/
theorem step_stream_waits {s : State} {rest} (turns : s.turns = .processing :: rest) (idle : s.tokenReady = false) :
    step s = .next { s with turns := rest } := by
  obtain ⟨t, next⟩ := stepStream_answers { s with turns := rest }
  rw [step_processing turns, next, processing_passes (stepStream_takes next) idle]

theorem tokenReady_of_no_token {s : State} (none : splitToken s.sin = none) : s.tokenReady = false := by
  simp only [State.tokenReady, none]

theorem tokenReady_of_token {s : State} {h : Word} {payload ws : List Word} {i : Instr}
    (token : splitToken s.sin = some (h, payload, ws)) (decoded : decodeToken h payload = .ok i) :
    s.tokenReady = s.streamReady i := by
  simp only [State.tokenReady, token, decoded]

/-- Settles O8: a header with an unknown OP or a reserved bit decodes to no instruction, whatever its payload. -/
theorem illegalTokenIsTakenAndIgnored : Obligations.IllegalTokenIsTakenAndIgnored := by
  intro s h ws rest turns sin whole malformed
  have token := splitToken_cons whole
  rw [← sin] at token
  cases decoded : decodeToken h (ws.take (payloadLen h)) with
  | error e => exact step_token_illegal turns token decoded
  | ok i =>
    obtain ⟨band, reserved, known⟩ := header_of_decodeToken decoded
    obtain ⟨frame, rate, channels, discontinuity⟩ | band' | reserved' | ⟨op, count⟩ := malformed
    · obtain op | op | ⟨op | op, -⟩ := known
      exacts [absurd op frame, absurd op channels, absurd op rate, absurd op discontinuity]
    · exact absurd band band'
    · exact absurd reserved reserved'
    · obtain frame | channels | ⟨-, count'⟩ := known
      · simp [frame] at op
      · simp [channels] at op
      · exact absurd count' count

/-- Settles O9: in each case P is not enabled. -/
theorem streamWaitsForWholeTokensAndRoom : Obligations.StreamWaitsForWholeTokensAndRoom := by
  refine ⟨fun s rest turns sin => ?empty, fun s h ws rest turns sin part => ?part,
    fun s xs ws rest room turns decoded count soutRoom full => ?full⟩
  case empty => exact step_stream_waits turns (tokenReady_of_no_token (by rw [sin, splitToken]))
  case part => exact step_stream_waits turns (tokenReady_of_no_token (by rw [sin, splitToken_cons_part part]))
  case full =>
    obtain ⟨h, payload, token, frame⟩ := decode_sin_eq_ok_iff.mp decoded
    refine step_stream_waits turns ((tokenReady_of_token token frame).trans ?_)
    simpa [State.streamReady, count, State.soutTakesFrame, roomFor, soutRoom] using full

end Sys2Proof.Machine
end

section
/-! What each token does, branch by branch, and what it leaves (41_filter.md R199, R200, R210, R213 to R215). -/

namespace Sys2Proof.Machine

/-! ## The branches of each token -/

theorem exec_frame_refused {s : State} {xs : List Word} (count : xs.length ≠ s.channels) :
    exec (.frame xs) s = .next (s.withSstatus .badValue 0x40) := if_pos count

theorem exec_frame_filters {s : State} {xs : List Word} (count : xs.length = s.channels)
    (room : s.soutTakesFrame = true) : exec (.frame xs) s = .next ((s.filtered xs).withSstatus .ok 0x40) :=
  (if_neg (not_not.mpr count)).trans (if_pos room)

theorem exec_rate_valid {s : State} {sr : Word} (valid : validRate sr = true) :
    exec (.rate sr) s = .next ((s.setRate sr).withSstatus .ok 0x41) := if_pos valid

theorem exec_rate_invalid {s : State} {sr : Word} (invalid : validRate sr = false) :
    exec (.rate sr) s = .next (s.withSstatus .badValue 0x41) := if_neg (ne_true_of_eq_false invalid)

theorem exec_channels_sets {s : State} {n : Count} (pos : 1 ≤ n.toNat) (fits : n.toNat ≤ s.build.maxChannels) :
    exec (.channels n) s = .next ((State.resetHist { s with channelCount := n }).withSstatus .ok 0x42) :=
  if_neg (by omega)

theorem exec_channels_fails {s : State} {n : Count} (bad : n.toNat = 0 ∨ s.build.maxChannels < n.toNat) :
    exec (.channels n) s = .next (s.withSstatus .configFail 0x42) := if_pos bad

/-! ## What a token leaves -/

/-- Producing records changes the notifier only (44_notifier.md R292). -/
theorem State.emits_eq (bs : List Nat) (s : State) :
    bs.foldl State.emit s = { s with seq := (bs.foldl State.emit s).seq, slot := (bs.foldl State.emit s).slot,
                                     stamp := (bs.foldl State.emit s).stamp } := by
  induction bs generalizing s with
  | nil => rfl
  | cons b bs ih => exact ih (s.emit b)

/-- The state with every band designed anew at a rate and zero history, from which RATE emits (R213). -/
def State.redesigned (s : State) (sr : Word) : State :=
  State.resetHist { s with sampleRate := sr, coef := s.band.map (fun p => s.designFor p sr) }

theorem State.setRate_eq_emits (s : State) (sr : Word) :
    s.setRate sr = (List.range s.build.nBands).foldl State.emit (s.redesigned sr) := rfl

/-- A new rate changes the rate, the coefficients, history and the notifier only (R213). -/
theorem State.setRate_eq (s : State) (sr : Word) :
    s.setRate sr = { s with sampleRate := (s.setRate sr).sampleRate, coef := (s.setRate sr).coef,
                            hist := (s.setRate sr).hist, seq := (s.setRate sr).seq, slot := (s.setRate sr).slot,
                            stamp := (s.setRate sr).stamp } := by
  simp only [State.setRate_fields]
  exact State.emits_eq _ (s.redesigned sr)

/-- Settles O21, by the effects a token can have; the others are those of instructions on another port. -/
theorem tokensLeaveEverythingElse : Obligations.TokensLeaveEverythingElse := by
  refine fun s t => ⟨fun xs h => ?frame, fun sr h => ?rate, fun n h => ?channels, fun h => ?discontinuity⟩
  case frame =>
    cases exec_effect h with
    | filters | waitsForSout | failsToken => rfl
    | _ => cases ‹Instr.port _ = _›
  case rate =>
    cases exec_effect h with
    | rates =>
      have status : (s.setRate sr).sstatus = s.sstatus := by simp
      rw [State.withSstatus, status]
      exact congrArg (fun u : State => { u with sstatus := s.sstatus.after .ok 0x41 }) (s.setRate_eq sr)
    | failsToken => rfl
    | _ => cases ‹Instr.port _ = _›
  case channels =>
    cases exec_effect h with
    | counts | failsToken => rfl
    | _ => cases ‹Instr.port _ = _›
  case discontinuity =>
    cases exec_effect h with
    | clears | failsToken => rfl
    | _ => cases ‹Instr.port _ = _›

/-! ## Status (R210) -/

/-- A token P can take reports one of three codes with its opcode. -/
theorem exec_token_status {i : Instr} {s t : State} (port : i.port = some .sin) (ready : s.streamReady i = true)
    (h : exec i s = .next t) :
    ∃ code, (code = .ok ∨ code = .badValue ∨ code = .configFail) ∧ t.sstatus = s.sstatus.after code i.opcode := by
  cases i with
  | frame xs =>
    by_cases count : xs.length = s.channels
    · have room : s.soutTakesFrame = true := by simpa [State.streamReady, count] using ready
      cases (exec_frame_filters count room).symm.trans h
      exact ⟨.ok, .inl rfl, rfl⟩
    · cases (exec_frame_refused count).symm.trans h
      exact ⟨.badValue, .inr (.inl rfl), rfl⟩
  | rate sr =>
    cases valid : validRate sr with
    | true =>
      cases (exec_rate_valid valid).symm.trans h
      exact ⟨.ok, .inl rfl, by simp [Instr.opcode]⟩
    | false =>
      cases (exec_rate_invalid valid).symm.trans h
      exact ⟨.badValue, .inr (.inl rfl), rfl⟩
  | channels n =>
    by_cases bad : n.toNat = 0 ∨ s.build.maxChannels < n.toNat
    · cases (exec_channels_fails bad).symm.trans h
      exact ⟨.configFail, .inr (.inr rfl), rfl⟩
    · cases (exec_channels_sets (by omega) (by omega)).symm.trans h
      exact ⟨.ok, .inl rfl, rfl⟩
  | discontinuity =>
    cases h
    exact ⟨.ok, .inl rfl, rfl⟩
  | _ => cases port

/-- Settles O26. -/
theorem tokensReportTheirStatus : Obligations.TokensReportTheirStatus := by
  intro i s t port ready h
  obtain ⟨code, reported, status⟩ := exec_token_status port ready h
  rw [status]
  exact ⟨rfl, reported, by simp [StreamStatus.after]⟩

/-! ## FRAME of another count (R200) -/

/-- Settles O36. -/
theorem frameOfAnotherCountIsRefused : Obligations.FrameOfAnotherCountIsRefused := by
  intro s xs ws rest turns small sin count
  have length := payload_length_of_encode (i := .frame xs) (decide_eq_true small) rfl rfl
  have token := (congrArg splitToken sin).trans (splitToken_append _ xs ws length)
  have ready : s.streamReady (.frame xs) = true := by simp [State.streamReady, count]
  let u : State := { s with turns := rest, sin := ws }
  calc step s
    _ = exec (.frame xs) u := step_token_runs turns token (decodeToken_of_encode rfl rfl length) ready
    _ = .next (u.withSstatus .badValue 0x40) := exec_frame_refused count
    _ = .next { u with sstatus := ⟨.badValue, 0x40, true⟩ } := by rw [State.withSstatus_failed _ .badValue _ nofun]

/-! ## CHANNELS and DISCONTINUITY (R204, R214, R215) -/

/-- Settles O38. -/
theorem channelsSetsTheCountOrFails : Obligations.ChannelsSetsTheCountOrFails := by
  intro s n
  refine ⟨fun pos fits => ⟨_, exec_channels_sets pos fits, rfl, histAt_of_zeroHist rfl, StreamStatus.after_ok _ _⟩,
    fun bad => ?_⟩
  rw [exec_channels_fails bad, State.withSstatus_failed _ .configFail _ nofun]

/-- Settles O39. -/
theorem discontinuityZeroesHistory : Obligations.DiscontinuityZeroesHistory :=
  fun _ => ⟨_, rfl, histAt_of_zeroHist rfl, StreamStatus.after_ok _ _, rfl⟩

/-! ## RATE (R213) -/

theorem State.redesigned_coefAt {s : State} {b : Nat} (sr : Word) (h : b < s.band.length) :
    (s.redesigned sr).coefAt b = s.designFor (s.bandAt b) sr := by
  simp [State.redesigned, State.coefAt, State.bandAt, h]

theorem State.setRate_coefAt (s : State) (sr : Word) (b : Nat) :
    (s.setRate sr).coefAt b = (s.redesigned sr).coefAt b := by
  simp [State.coefAt, State.redesigned]

/-- Settles O37: the chain is designed anew, and then each band in turn emits. -/
theorem rateRedesignsResetsAndEmits : Obligations.RateRedesignsResetsAndEmits := by
  refine fun s sr sized => ⟨fun valid => ⟨_, exec_rate_valid valid, ?_⟩, fun invalid => ?_⟩
  · obtain ⟨own, -, stamp, -⟩ := (s.redesigned sr).emits_spec s.build.nBands sized.seq.ge sized.slot.ge
    rw [← State.setRate_eq_emits] at own stamp
    have hist : (s.setRate sr).hist = zeroHist s.build := by simp
    refine ⟨by simp, fun b hb => ?_, stamp, histAt_of_zeroHist hist, by simp⟩
    obtain ⟨seq, slot⟩ := own b hb
    have coef := s.setRate_coefAt sr b
    refine ⟨coef.trans (State.redesigned_coefAt sr (sized.band ▸ hb)), seq, congrArg Slot.pending slot, ?_,
      congrArg Slot.stamp slot⟩
    calc ((s.setRate sr).slotAt b).record.toList
      _ = ((s.redesigned sr).recordOf b (s.seqAt b + 1)).toList := congrArg (·.record.toList) slot
      _ = recordWords b (s.seqAt b + 1) sr (s.bandAt b) ((s.setRate sr).coefAt b) := by rw [coef]; rfl
  · rw [exec_rate_invalid invalid, State.withSstatus_failed _ .badValue _ nofun]

end Sys2Proof.Machine
end

section
/-! FRAME through the cascade (41_filter.md R191, R196, R197, R199), and the flush (R192). -/

namespace Sys2Proof.Machine

/-! ## The flush (R192) -/

theorem isNaN_abs (v : Word) : F64.isNaN (F64.abs v) = F64.isNaN v := by
  rw [Bool.eq_iff_iff, F64.isNaN_iff, F64.isNaN_iff, toNat_abs, Nat.mod_mod]

theorem order_abs (v : Word) : F64.order (F64.abs v) = (v.toNat % 9223372036854775808 : Nat) := by
  have plus : ¬F64.signBit (F64.abs v) = true := by
    rw [F64.signBit_iff, toNat_abs]
    omega
  rw [F64.order, if_neg plus, toNat_abs, Nat.mod_mod]

/-- The magnitudes below FLUSH_MIN are those with exponent field 0. -/
theorem abs_lt_flushMin_iff (v : Word) : F64.lt (F64.abs v) flushMin = true ↔ F64.expField v = 0 := by
  rw [F64.expField_eq_div]
  cases nan : F64.isNaN v with
  | true =>
    have := (F64.isNaN_iff v).mp nan
    rw [F64.lt, isNaN_abs, nan]
    simp only [Bool.not_true, Bool.false_and, Bool.false_eq_true, false_iff]
    omega
  | false =>
    rw [F64.lt_iff_order ((isNaN_abs v).trans nan) (by decide), order_abs,
      show F64.order flushMin = 4503599627370496 by decide]
    omega

/-- Settles O57. -/
theorem flushReplacesSubnormalsByZero : Obligations.FlushReplacesSubnormalsByZero :=
  fun v => ⟨fun h => if_pos ((abs_lt_flushMin_iff v).mpr h), fun h => if_neg (mt (abs_lt_flushMin_iff v).mp h)⟩

/-! ## FRAME (R196, R199) -/

/-- The values along one channel of a frame: the sample enters band 0, each band's output the next, and the last is
the channel's output. -/
theorem State.filtered_channel {s : State} (sized : s.Sized) {xs : List Word} (fits : xs.length ≤ s.build.maxChannels)
    {ch : Nat} (live : ch < xs.length) :
    ∃ v : Nat → Word, v 0 = xs.getD ch 0 ∧
      (∀ b, b < s.build.nBands →
        v (b + 1) = F64.settle (.sample s.draws b ch) (difference (s.coefAt b) (s.histAt b ch) (v b)) ∧
        (s.filtered xs).histAt b ch = (s.histAt b ch).shift (v b) (v (b + 1))) ∧
      (lanes s.draws s.coef 0 xs s.hist).1.getD ch 0 = v s.build.nBands := by
  have lane : s.hist.getD ch [] ∈ s.hist := by
    have := sized.lane
    rw [List.getD_eq_getElem _ _ (by omega)]
    exact List.getElem_mem _
  obtain ⟨v, input, bands, output, -⟩ := cascade_spec s.draws ch s.coef (s.hist.getD ch []) 0 (xs.getD ch 0)
    ((sized.hist _ lane).trans sized.coef.symm)
  obtain ⟨-, -, channel, -⟩ := lanes_spec s.draws s.coef 0 xs s.hist (sized.lane ▸ fits)
  obtain ⟨out, hist⟩ := channel ch live
  rw [Nat.zero_add] at out hist
  rw [sized.coef] at bands output
  refine ⟨v, input, fun b hb => ?_, out.trans output⟩
  obtain ⟨value, shifted⟩ := bands b hb
  rw [Nat.zero_add] at value
  exact ⟨value, (congrArg (·.getD b Hist.zero) hist).trans shifted⟩

/-- Settles O35, channel by channel. -/
theorem frameFiltersEveryChannelThroughEveryBand : Obligations.FrameFiltersEveryChannelThroughEveryBand := by
  intro s xs sized fits count room
  have enough : xs.length ≤ s.hist.length := by rw [sized.lane, count]; exact fits
  obtain ⟨outputs, -, -, above⟩ := lanes_spec s.draws s.coef 0 xs s.hist enough
  choose! v input bands output using fun ch => State.filtered_channel (ch := ch) sized (count.trans_le fits)
  rw [count] at input bands output outputs above
  refine ⟨_, exec_frame_filters count room, v, input, fun ch b live hb => bands ch live b hb, fun ch b idle => ?_, ?_,
    StreamStatus.after_ok _ _⟩
  · exact congrArg (·.getD b Hist.zero) (above ch idle)
  · refine congrArg (s.sout ++ wordN 0x40 0 s.channelCount :: ·) (List.ext_getElem (by simpa using outputs) ?_)
    intro ch hch _
    rw [← List.getD_eq_getElem _ 0, output ch (outputs ▸ hch)]
    simp

end Sys2Proof.Machine
end

section
/-! The control commands (42_control.md): the band check, which the queries that name a band share (R231, 43_analyzer.md
R269, R270), what a setter stores and leaves (R232, R240), and the turns that run an instruction. -/

namespace Sys2Proof.Machine

/-! ## The band check (R231, 30_encoding.md R103) -/

theorem State.hasBand_eq_true {s : State} {b : BandId} (known : b.toNat < s.build.nBands) : s.hasBand b = true :=
  decide_eq_true known

theorem State.hasBand_ne_true {s : State} {b : BandId} (unknown : s.build.nBands ≤ b.toNat) : ¬s.hasBand b = true :=
  fun has => Nat.not_lt_of_le unknown (of_decide_eq_true has)

/-- Settles O28: the band check comes first in the setters and in the two queries that name a band. -/
theorem unknownBandIsReportedNotFound : Obligations.UnknownBandIsReportedNotFound := by
  intro s b ft n unknown
  have noBand := State.hasBand_ne_true unknown
  exact ⟨if_neg noBand, if_neg noBand, if_neg noBand, if_neg noBand, if_neg noBand, if_neg noBand, if_neg noBand⟩

/-! ## What a setter stores and leaves (R232, R240) -/

/-- A setter of an existing band applies its edit and reports OK, whatever the band held (R232, R238). -/
theorem setter_edits {s : State} {b : BandId} (sized : s.Sized) (known : b.toNat < s.build.nBands) (op : BitVec 8)
    (edit : Params → Params) :
    Answers (setter op b edit s) fun t =>
      Edited s t b.toNat (edit (s.bandAt b.toNat)) ∧ t.cstatus = ⟨.ok, op⟩ :=
  ⟨_, if_pos (State.hasBand_eq_true known), s.apply_edited _ _ _ _ sized known, rfl⟩

/-- Settles O19: of the effects of an instruction, a command on CMD has only the two of a setter. -/
theorem controlCommandsLeaveEverythingElse : Obligations.ControlCommandsLeaveEverythingElse := by
  intro i s t port h
  cases exec_effect h with
  | edits | findsNoBand => rfl
  | results other | responds other | failsQuery other | failsToken other => cases port.symm.trans other
  | _ => cases port

/-- Settles O27: each setter is the shared body with its own edit. -/
theorem settersStoreDesignAndEmit : Obligations.SettersStoreDesignAndEmit := by
  intro s b ft sized known
  exact ⟨setter_edits sized known 0x01 fun p => { p with freq := s.carg[0] },
    setter_edits sized known 0x02 fun p => { p with q := s.carg[0] },
    setter_edits sized known 0x03 fun p => { p with gain := s.carg[0] },
    setter_edits sized known 0x04 fun p => { p with ftype := ft },
    setter_edits sized known 0x05 fun _ => ⟨ft, s.carg[0], s.carg[1], s.carg[2]⟩⟩

/-! ## Turns that run an instruction (R230, 43_analyzer.md R260, 41_filter.md R211) -/

/-- Settles O6: on each port the turn comes down to the decoder's answer. -/
theorem stepRunsTheDecodedInstruction : Obligations.StepRunsTheDecodedInstruction := by
  refine ⟨fun s w i rest more turns bus decoded => ?control, fun s w i rest more turns bus decoded => ?query,
    fun s i rest ws turns decoded ready => ?stream, fun s rest turns => ?delivery⟩
  case control => rw [step_command turns bus, stepControl, decoded]
  case query => rw [step_query turns bus, stepQuery, decoded]
  case stream =>
    obtain ⟨h, payload, token, header⟩ := decode_sin_eq_ok_iff.mp decoded
    exact step_token_runs turns token header ready
  case delivery => simp only [step, turns, takeTurn]

end Sys2Proof.Machine
end

section
/-! The analyzer (43_analyzer.md): its angle against the designer's (R262), the response and the chain's (R261, R266),
and what the query commands store and leave (R268 to R273). -/

namespace Sys2Proof.F64

open Sys2Proof.Machine

/-- Rounding does not rise above a finite value that the exact number keeps to. -/
theorem le_of_roundsTo_of_le {c w : Word} {x : ℝ} (hc : isFinite c = true) (hx : x ≤ wordValue c)
    (h : RoundsTo x w) : le w c = true := by
  rcases le_or_gt x (-(2 ^ 1024 - 2 ^ 970)) with bottom | range
  · rw [h.overflow.2 bottom]
    exact (compare_infinities (isNaN_of_isFinite hc)).2.2.2.2.2.1
  · have range' : |x| < 2 ^ 1024 - 2 ^ 970 := abs_lt.mpr ⟨range, hx.trans_lt (abs_lt.mp (abs_wordValue_lt hc)).2⟩
    have near := h.nearest range' c hc
    rw [abs_of_nonpos (sub_nonpos.mpr hx)] at near
    rw [(compare_finite (h.finite range') hc).2.1]
    exact_mod_cast (by linarith [neg_le_abs (x - wordValue w)] : (wordValue w : ℝ) ≤ wordValue c)

/-- Of the words from 0.0 on, only -0.0 has the sign bit. -/
theorem plus_of_zero_le {w : Word} (h : le zero w = true) (other : w ≠ negZero) : signBit w = false := by
  by_contra minus
  rw [Bool.not_eq_false] at minus
  simp only [le, Bool.and_eq_true, Bool.not_eq_true', decide_eq_true_eq] at h
  obtain ⟨⟨-, nan⟩, lo⟩ := h
  have equal : eq w zero = true := (eq_iff_order nan (by decide)).mpr (le_antisymm (order_of_minus minus) lo)
  rcases isZero_eq_or (isZero_of_eq_zero equal) with rfl | rfl
  · cases minus
  · exact other rfl

/-- A word without the sign bit at or below a finite one is finite. -/
theorem isFinite_of_le {a b : Word} (plus : signBit a = false) (hb : isFinite b = true) (h : le a b = true) :
    isFinite a = true := by
  have nan : isNaN a = false := by
    by_contra nan
    rw [(compare_nan (.inl (Bool.eq_true_of_not_eq_false nan))).2.1] at h
    cases h
  refine isFinite_of_not_inf nan (Bool.eq_false_iff.mpr fun inf => ?_)
  rcases (isInf_eq_or a).mp inf with rfl | rfl
  · rw [(compare_infinities (isNaN_of_isFinite hb)).2.2.2.1.mp h] at hb
    cases hb
  · cases plus

/-- Without the sign bit a word that is neither positive nor a NaN is +0.0. -/
theorem eq_zero_of_not_pos {w : Word} (nan : isNaN w = false) (plus : signBit w = false) (h : lt zero w = false) :
    w = zero := by
  rcases nan_zero_or_minus_of_not_pos h with bad | isZ | bad
  · cases nan.symm.trans bad
  · rcases isZero_eq_or isZ with rfl | rfl
    · rfl
    · cases plus
  · cases plus.symm.trans bad

/-- A quotient of finite words by a nonzero divisor is a number with the exclusive or of the signs. -/
theorem div_finite_sign {a b : Word} (ha : isFinite a = true) (hb : isFinite b = true) (hz : isZero b = false) :
    isNaN (div a b) = false ∧ signBit (div a b) = (signBit a != signBit b) := by
  rw [div_of_finite ha hb hz]
  exact ⟨(round_spec _ _ _).1, round_sign _ _ _⟩

/-- A finite number at or below a positive divisor is at most once that divisor. -/
theorem div_le_one_of_le {a b : Word} (ha : isFinite a = true) (hb : isFinite b = true) (pos : lt zero b = true)
    (h : le a b = true) : le (div a b) one = true := by
  refine le_of_roundsTo_of_le (by decide) ?_ (roundsTo_div ha hb (plus_of_pos pos).2)
  rw [wordValue_one, Rat.cast_one, div_le_one₀ (by exact_mod_cast wordValue_pos hb pos)]
  exact_mod_cast (compare_finite ha hb).2.1.mp h

end Sys2Proof.F64

namespace Sys2Proof.Machine

/-! ## The angle (R262) -/

/-- The clamp of the normalized frequency leaves every quotient from +0.0 to 1.0 (40_designer.md R142). -/
theorem normFreq_of_mem {f sr : Word} (nan : F64.isNaN (F64.div f (F64.div sr Const.two)) = false)
    (plus : F64.signBit (F64.div f (F64.div sr Const.two)) = false)
    (atMost : F64.le (F64.div f (F64.div sr Const.two)) F64.one = true) :
    normFreq f sr = F64.div f (F64.div sr Const.two) := by
  cases pos : F64.lt F64.zero (F64.div f (F64.div sr Const.two)) with
  | true => exact normFreq_of_pos (F64.lt_false_of_le atMost) pos
  | false => rw [normFreq_of_not_pos pos, F64.eq_zero_of_not_pos nan plus pos]

/-- Settles O34: there the quotient is from +0.0 to 1.0, so the designer's clamp leaves it. -/
theorem analyzerAngleIsTheDesigners : Obligations.AnalyzerAngleIsTheDesigners := by
  intro f sr halfPos valid lo hi other
  obtain ⟨halfFinite, halfPlus⟩ := halfRate_of_valid valid
  have plus := F64.plus_of_zero_le lo other
  have finite := F64.isFinite_of_le plus halfFinite hi
  obtain ⟨nan, sign⟩ := F64.div_finite_sign finite halfFinite (F64.plus_of_pos halfPos).2
  rw [plus, halfPlus] at sign
  rw [angle, normFreq_of_mem nan sign (F64.div_le_one_of_le finite halfFinite halfPos hi)]

/-! ## The response (R261) and the chain's (R266) -/

/-- The magnitude of a chain of bands from a first response: the product over the enabled ones, in order. -/
theorem State.foldl_compose_mag (s : State) (f : Word) (bs : List Nat) (r : Response) :
    (bs.foldl (s.compose f) r).mag =
      ((bs.filter s.enabled).map fun b => (resp s.build.num (s.coefAt b) s.sampleRate f).mag).foldl F64.mul r.mag := by
  rw [List.foldl_map, List.foldl_filter]
  refine (List.foldl_hom Response.mag fun r b => ?_).symm
  rw [State.compose, apply_ite Response.mag]

/-- The phase of a chain of bands from a first response: the sum over the enabled ones, in order. -/
theorem State.foldl_compose_ph (s : State) (f : Word) (bs : List Nat) (r : Response) :
    (bs.foldl (s.compose f) r).ph =
      ((bs.filter s.enabled).map fun b => (resp s.build.num (s.coefAt b) s.sampleRate f).ph).foldl F64.add r.ph := by
  rw [List.foldl_map, List.foldl_filter]
  refine (List.foldl_hom Response.ph fun r b => ?_).symm
  rw [State.compose, apply_ite Response.ph]

/-- Settles O33: the response by its definition, the chain by the two folds over its bands. -/
theorem chainResponseComposesEnabledBands : Obligations.ChainResponseComposesEnabledBands := by
  intro s f
  exact ⟨fun c sr => ⟨rfl, rfl⟩, s.foldl_compose_mag f _ ⟨F64.one, F64.zero⟩,
    s.foldl_compose_ph f _ ⟨F64.one, F64.zero⟩⟩

/-! ## What a query stores and leaves (R268 to R273) -/

/-- Settles O20: of the effects of an instruction, a command on QCMD has only the three of a query. -/
theorem queriesAreReadOnly : Obligations.QueriesAreReadOnly := by
  intro i s t port h
  cases exec_effect h with
  | results | responds | failsQuery => rfl
  | edits other | findsNoBand other | failsToken other => cases port.symm.trans other
  | _ => cases port

/-- Settles O30: the band check of READ_BAND passes, and QRES takes the ten words. -/
theorem readBandReturnsTheSnapshot : Obligations.ReadBandReturnsTheSnapshot :=
  fun _ _ known => ⟨_, if_pos (State.hasBand_eq_true known), rfl, rfl⟩

theorem State.fitsQuery_eq_true {s : State} {n : Count} (fits : n.toNat ≤ s.build.mQuery) : s.fitsQuery n = true :=
  decide_eq_true fits

theorem State.fitsQuery_ne_true {s : State} {n : Count} (above : s.build.mQuery < n.toNat) : ¬s.fitsQuery n = true :=
  fun fits => Nat.not_le_of_lt above (of_decide_eq_true fits)

/-- t is s after a response query of n entries that completes with the responses f (R268, R270 to R272). -/
def Filled (s : State) (n : Nat) (f : Word → Response) (op : BitVec 8) (t : State) : Prop :=
  (∀ i, i < n → t.magAt i = s.magEntry f i ∧ t.phaseAt i = s.phaseEntry f i) ∧
  (∀ i, n ≤ i → t.magAt i = s.magAt i ∧ t.phaseAt i = s.phaseAt i) ∧
  t = { s with magBuf := t.magBuf, phaseBuf := t.phaseBuf, draws := t.draws, qstatus := ⟨.ok, op⟩ }

/-- What the response queries share fills the buffers and reports OK. -/
theorem State.respond_filled (s : State) (n : Nat) (f : Word → Response) (op : BitVec 8) :
    Filled s n f op ((s.respond n f).withQstatus .ok op) := by
  refine ⟨fun i below => ?_, fun i above => ?_, rfl⟩
  · obtain ⟨mag, phase⟩ := s.respond_at n f i
    exact ⟨mag.trans (if_pos below), phase.trans (if_pos below)⟩
  · obtain ⟨mag, phase⟩ := s.respond_at n f i
    exact ⟨mag.trans (if_neg above.not_gt), phase.trans (if_neg above.not_gt)⟩

/-- Settles O31: each response query passes its checks and responds. -/
theorem responseQueriesFillTheBuffers : Obligations.ResponseQueriesFillTheBuffers := by
  intro s b n within
  have fits := State.fitsQuery_eq_true within
  exact ⟨fun valid => ⟨_, (if_pos fits).trans (if_pos valid), s.respond_filled _ _ _⟩,
    fun known => ⟨_, (if_pos (State.hasBand_eq_true known)).trans (if_pos fits), s.respond_filled _ _ _⟩,
    ⟨_, if_pos fits, s.respond_filled _ _ _⟩⟩

/-- Settles O32: where the COUNT fits, it is the rate check of RESPONSE that fails; the band check comes first. -/
theorem failedQueriesWriteOnlyTheirStatus : Obligations.FailedQueriesWriteOnlyTheirStatus := by
  intro s b n
  refine ⟨fun fails => ?_, fun known above => ?_, fun above => if_neg (State.fitsQuery_ne_true above)⟩
  · rcases Nat.lt_or_ge s.build.mQuery n.toNat with above | within
    · exact if_neg (State.fitsQuery_ne_true above)
    · have invalid := fails.resolve_left within.not_gt
      exact (if_pos (State.fitsQuery_eq_true within)).trans (if_neg (ne_true_of_eq_false invalid))
  · exact (if_pos (State.hasBand_eq_true known)).trans (if_neg (State.fitsQuery_ne_true above))

end Sys2Proof.Machine
end

section
/-! The notifier: which record E delivers next and what that does (44_notifier.md R294, R297), what reaches EVT (R295),
the stamps of pending slots (R294), and that a fair run delivers every record (R298). -/

namespace Sys2Proof.Machine

/-! ## The next delivery (R294, R297) -/

theorem State.nextDelivery_eq_none_iff {s : State} :
    s.nextDelivery = none ↔ ∀ c, (s.slotAt c).pending = false := by
  refine ⟨fun none => (oldestFrom_spec s.slot 0).2 (Option.map_eq_none_iff.mp none), fun idle => ?_⟩
  cases next : s.nextDelivery with
  | none => rfl
  | some b =>
    obtain ⟨-, pending⟩ := State.nextDelivery_pending next
    rw [idle b] at pending
    cases pending

theorem State.nextDelivery_of_pending {s : State} {c : Nat} (pending : (s.slotAt c).pending = true) :
    ∃ b, s.nextDelivery = some b := by
  refine Option.ne_none_iff_exists'.mp fun none => ?_
  rw [State.nextDelivery_eq_none_iff.mp none c] at pending
  cases pending

theorem State.nextDelivery_least {s : State} {b c : Nat} (next : s.nextDelivery = some b)
    (pending : (s.slotAt c).pending = true) : (s.slotAt b).stamp.toNat ≤ (s.slotAt c).stamp.toNat := by
  obtain ⟨⟨d, st⟩, oldest, rfl⟩ := Option.map_eq_some_iff.mp next
  obtain ⟨i, place, -, -, stamp, least⟩ := (oldestFrom_spec s.slot 0).1 d st oldest
  obtain rfl : d = i := by omega
  exact (congrArg BitVec.toNat stamp).trans_le (least c pending)

theorem State.delivered_slotAt_own {s : State} {b : Nat} (inFile : b < s.slot.length) :
    (s.delivered b).slotAt b = { s.slotAt b with pending := false } := by
  simp [State.slotAt, inFile]

theorem State.delivered_slotAt_other (s : State) {b c : Nat} (other : c ≠ b) :
    (s.delivered b).slotAt c = s.slotAt c := by
  simp only [State.slotAt, State.delivered_fields, getD_set_ne _ _ _ _ _ other]

/-- A slot still pending after a delivery is another band's, and as before. -/
theorem State.delivered_pending {s : State} {b c : Nat} (inFile : b < s.slot.length)
    (pending : ((s.delivered b).slotAt c).pending = true) : c ≠ b ∧ (s.delivered b).slotAt c = s.slotAt c := by
  have other : c ≠ b := by
    rintro rfl
    rw [State.delivered_slotAt_own inFile] at pending
    cases pending
  exact ⟨other, State.delivered_slotAt_other s other⟩

/-- Settles O41. -/
theorem deliverSendsTheOldestPendingRecord : Obligations.DeliverSendsTheOldestPendingRecord := by
  rintro s ⟨c, pending⟩ room
  obtain ⟨b, next⟩ := State.nextDelivery_of_pending pending
  obtain ⟨inFile, own⟩ := State.nextDelivery_pending next
  exact ⟨s.delivered b, by simp only [exec, execDeliver, next, room, if_true], b, own,
    fun _ => State.nextDelivery_least next, rfl, State.delivered_slotAt_own inFile,
    fun _ => State.delivered_slotAt_other s, rfl⟩

theorem State.evtTakesRecord_of_full {s : State} {room : Nat} (evtRoom : s.evtRoom = some room) (full : room < 10) :
    s.evtTakesRecord = false := by
  simpa [State.evtTakesRecord, evtRoom, roomFor] using full

/-- Settles O42. -/
theorem deliverWaitsForARecordAndRoom : Obligations.DeliverWaitsForARecordAndRoom := by
  rintro s (idle | ⟨room, evtRoom, full⟩) <;> simp only [exec, execDeliver]
  · rw [State.nextDelivery_eq_none_iff.mpr idle]
  · rw [State.evtTakesRecord_of_full evtRoom full]
    cases s.nextDelivery <;> rfl

/-! ## What reaches EVT (R295) -/

/-- Of the instructions, only DELIVER, which no port carries, writes EVT. -/
theorem exec_keeps_evt {i : Instr} {s t : State} (h : exec i s = .next t) (carried : i.port ≠ none) :
    t.evt = s.evt := by
  cases exec_effect h with
  | delivers => exact absurd rfl carried
  | filters => rfl
  | _ => simp

theorem turn_evt {τ : Turn} {s t : State} (h : TurnTakes s τ t) :
    t.evt = s.evt ∨
    ∃ b, (s.slotAt b).pending = true ∧ t.evt = s.evt ++ (s.slotAt b).record.toList ∧ τ = .delivery := by
  cases h with
  | controls _ _ _ decoded runs => exact .inl ((exec_keeps_evt runs (by simp [decodeCmd_port decoded])).trans rfl)
  | queries _ _ _ decoded runs => exact .inl ((exec_keeps_evt runs (by simp [decodeQcmd_port decoded])).trans rfl)
  | streams _ decoded _ runs =>
    obtain ⟨⟨-, port⟩, -⟩ := token_of_decodeToken decoded
    exact .inl ((exec_keeps_evt runs (by simp [port])).trans rfl)
  | delivers runs =>
    obtain ⟨b, next, -, rfl⟩ | ⟨-, rfl⟩ := delivery_cases (.delivers runs)
    · obtain ⟨-, pending⟩ := State.nextDelivery_pending next
      exact .inr ⟨b, pending, rfl, rfl⟩
    · exact .inl rfl
  | writes => exact .inl (by rw [State.writeReg_keeps])
  | _ => exact .inl rfl

/-- Settles O24. -/
theorem evtCarriesOnlyDeliveredRecords : Obligations.EvtCarriesOnlyDeliveredRecords := by
  intro s t h
  obtain rfl | ⟨τ, rest, turns, takes⟩ := step_takes h
  · exact .inl rfl
  · exact (turn_evt takes).imp_right fun ⟨b, pending, evt, delivery⟩ =>
      ⟨b, rest, pending, evt, by rw [turns, delivery]⟩

/-! ## Stamps (R292 to R294, R301) -/

/-- Stamps stay unique where no slot becomes pending and none that stays pending changes. -/
theorem State.StampsUnique.of_kept {s t : State} (h : s.StampsUnique)
    (kept : ∀ c, (t.slotAt c).pending = true → t.slotAt c = s.slotAt c) (stamp : t.stamp = s.stamp) :
    t.StampsUnique where
  given c pending := by
    have slot := kept c pending
    rw [slot] at pending ⊢
    exact stamp ▸ h.given c pending
  distinct c d pending pending' same := by
    have slot := kept c pending
    have slot' := kept d pending'
    rw [slot] at pending same
    rw [slot'] at pending' same
    exact h.distinct c d pending pending' same

theorem State.StampsUnique.of_same {s t : State} (h : s.StampsUnique) (slot : t.slot = s.slot)
    (stamp : t.stamp = s.stamp) : t.StampsUnique :=
  h.of_kept (fun c _ => by rw [State.slotAt, State.slotAt, slot]) stamp

theorem State.StampsUnique.of_idle {s : State} (idle : ∀ c, (s.slotAt c).pending = false) : s.StampsUnique where
  given c pending := by rw [idle c] at pending; cases pending
  distinct c _ pending := by rw [idle c] at pending; cases pending

/-- A slot that is pending after emit(b) was so under its stamp, or is b's and took STAMP, which went up. -/
theorem State.emit_pending {s : State} {b c : Nat} (pending : ((s.emit b).slotAt c).pending = true) :
    (s.slotAt c).pending = true ∧ ((s.emit b).slotAt c).stamp = (s.slotAt c).stamp ∨
    c = b ∧ ((s.emit b).slotAt c).stamp = s.stamp ∧ (s.emit b).stamp = s.stamp + 1 := by
  by_cases own : c = b ∧ b < s.slot.length
  · obtain ⟨rfl, inFile⟩ := own
    have slot : (s.emit c).slotAt c = (s.slotAt c).accept s.stamp (s.recordOf c (s.seqAt c + 1)) := by
      simp only [State.slotAt, State.emit_fields, getD_set _ _ _ _ _ inFile, if_true]
    rw [slot, Slot.accept_spec]
    cases before : (s.slotAt c).pending <;> simp [before]
  · have slot : (s.emit b).slotAt c = s.slotAt c := by
      by_cases other : c = b
      · subst other
        have past : s.slot.length ≤ c := by simpa using own
        rw [State.slotAt, State.slotAt, getD_past _ _ _ past, getD_past _ _ _ (by simpa using past)]
      · exact (s.emit_other b c other).2
    rw [slot] at pending ⊢
    exact .inl ⟨pending, rfl⟩

theorem State.StampsUnique.emit {s : State} (h : s.StampsUnique) (b : Nat) (room : s.stamp.toNat + 1 < 2 ^ 64) :
    (s.emit b).StampsUnique where
  given c pending := by
    obtain ⟨before, stamp⟩ | ⟨-, stamp, next⟩ := State.emit_pending pending
    · rw [stamp]
      exact (h.given c before).trans_le (emit_produced s b room).stamp.1
    · rw [stamp, next, BitVec.toNat_add_of_lt room]
      exact Nat.lt_succ_self _
  distinct c d pending pending' same := by
    obtain ⟨before, stamp⟩ | ⟨own, stamp, -⟩ := State.emit_pending pending <;>
      obtain ⟨before', stamp'⟩ | ⟨own', stamp', -⟩ := State.emit_pending pending' <;>
      rw [stamp, stamp'] at same
    · exact h.distinct c d before before' same
    · exact absurd (congrArg BitVec.toNat same) (h.given c before).ne
    · exact absurd (congrArg BitVec.toNat same) (h.given d before').ne'
    · exact own.trans own'.symm

theorem State.StampsUnique.emits (bs : List Nat) {s : State} (h : s.StampsUnique)
    (room : s.stamp.toNat + bs.length < 2 ^ 64) : (bs.foldl State.emit s).StampsUnique := by
  induction bs generalizing s with
  | nil => exact h
  | cons b bs ih =>
    rw [List.length_cons] at room
    have one : s.stamp.toNat + 1 < 2 ^ 64 := by omega
    have up := (emit_produced s b one).stamp.2
    exact ih (h.emit b one) (by omega)

theorem State.StampsUnique.delivered {s : State} (h : s.StampsUnique) {b : Nat} (inFile : b < s.slot.length) :
    (s.delivered b).StampsUnique :=
  h.of_kept (fun _ pending => (State.delivered_pending inFile pending).2) rfl

theorem exec_keeps_stampsUnique {i : Instr} {s t : State} (runs : exec i s = .next t) (h : s.StampsUnique)
    (room : s.stamp.toNat + s.build.nBands < 2 ^ 64) : t.StampsUnique := by
  cases exec_effect runs with
  | edits _ b band p =>
    let u : State := { s with band := s.band.set b p, coef := s.coef.set b (s.designFor p s.sampleRate) }
    have edited : u.StampsUnique := h.of_same rfl rfl
    have one : s.stamp.toNat + 1 < 2 ^ 64 := by omega
    exact (edited.emit b one).of_same rfl rfl
  | rates sr =>
    have redesigned : (s.redesigned sr).StampsUnique := h.of_same rfl rfl
    exact (redesigned.emits (List.range s.build.nBands) (by rwa [List.length_range])).of_same rfl rfl
  | delivers b next =>
    obtain ⟨inFile, -⟩ := State.nextDelivery_pending next
    exact h.delivered inFile
  | _ => exact h.of_same rfl rfl

theorem turn_keeps_stampsUnique {τ : Turn} {s t : State} (takes : TurnTakes s τ t) (h : s.StampsUnique)
    (room : s.stamp.toNat + s.build.nBands < 2 ^ 64) : t.StampsUnique := by
  cases takes with
  | controls _ _ _ _ runs | queries _ _ _ _ runs | streams _ _ _ runs =>
    exact exec_keeps_stampsUnique runs (h.of_same rfl rfl) room
  | delivers runs => exact exec_keeps_stampsUnique runs h room
  | writes => exact h.of_same (by rw [State.writeReg_keeps]) (by rw [State.writeReg_keeps])
  | resets => exact .of_idle fun c => congrArg Slot.pending (State.resetOf_slotAt s.build c)
  | _ => exact h.of_same rfl rfl

/-- Settles O17: a new stamp is STAMP's old value, above every stamp given out before. -/
theorem everyStepKeepsPendingStampsUnique : Obligations.EveryStepKeepsPendingStampsUnique := by
  intro s t _ h room next
  obtain rfl | ⟨τ, rest, -, takes⟩ := step_takes next
  · exact h
  · exact turn_keeps_stampsUnique takes (h.of_same rfl rfl) room

/-! ## Fair runs (R298, 20_memory.md R81)

Under weak fairness E keeps having its turn while band b's record waits. Each such turn delivers a record; if it is not
b's, it is one with a smaller stamp, and no new record gets one: the set of records ahead of b's shrinks. -/

/-- The pending slots whose stamps are below st. -/
def State.ahead (s : State) (st : BitVec 64) : Finset Nat :=
  (Finset.range s.slot.length).filter fun c => (s.slotAt c).pending = true ∧ (s.slotAt c).stamp.toNat < st.toNat

theorem State.pending_inFile {s : State} {c : Nat} (pending : (s.slotAt c).pending = true) : c < s.slot.length := by
  by_contra past
  rw [State.slotAt, getD_past _ _ _ (Nat.le_of_not_lt past)] at pending
  cases pending

theorem State.mem_ahead {s : State} {st : BitVec 64} {c : Nat} :
    c ∈ s.ahead st ↔ (s.slotAt c).pending = true ∧ (s.slotAt c).stamp.toNat < st.toNat := by
  simp only [State.ahead, Finset.mem_filter, Finset.mem_range, and_iff_right_iff_imp]
  exact fun h => State.pending_inFile h.1

/-- Band b's record waits under the stamp st, in a state whose stamps are as the notifier gives them. -/
structure State.Waits (s : State) (b : Nat) (st : BitVec 64) : Prop where
  bands   : 1 ≤ s.build.nBands
  unique  : s.StampsUnique
  pending : (s.slotAt b).pending = true
  stamp   : (s.slotAt b).stamp = st

/-- How the wait of band b's record ends in the turn τ from s to t: E delivers it, the reset input comes, or STAMP is
too near its wrap (R301). -/
def WaitEnds (s : State) (τ : Turn) (t : State) (b : Nat) : Prop :=
  (τ = .delivery ∧ (s.slotAt b).pending = true ∧ t.evt = s.evt ++ (s.slotAt b).record.toList ∧
    (t.slotAt b).pending = false) ∨
  τ = .reset ∨ 2 ^ 64 ≤ s.stamp.toNat + s.build.nBands

namespace State.Waits

variable {s t : State} {b : Nat} {st : BitVec 64}

theorem scheduled (w : s.Waits b st) (ts : List Turn) : (s.scheduled ts).Waits b st :=
  ⟨w.bands, w.unique.of_same rfl rfl, w.pending, w.stamp⟩

theorem delivery_enabled (w : s.Waits b st) (room : s.evtTakesRecord = true) : s.agentEnabled .delivery = true := by
  obtain ⟨c, next⟩ := State.nextDelivery_of_pending w.pending
  simp [State.agentEnabled, next, room]

/-- Records produced since have stamps above st. -/
theorem produced (w : s.Waits b st) {n : Nat} (p : Produced s t n) (unique : t.StampsUnique) :
    t.Waits b st ∧ t.ahead st ⊆ s.ahead st := by
  obtain ⟨pending, stamp⟩ := p.kept b w.pending
  refine ⟨⟨p.build ▸ w.bands, unique, pending, stamp.trans w.stamp⟩, fun c mem => ?_⟩
  obtain ⟨pending, below⟩ := State.mem_ahead.mp mem
  cases before : (s.slotAt c).pending with
  | true => exact State.mem_ahead.mpr ⟨before, by rwa [← (p.kept c before).2]⟩
  | false =>
    have fresh := p.fresh c before pending
    have given := w.unique.given b w.pending
    rw [w.stamp] at given
    omega

/-- A delivery of another record takes one from ahead of b's. -/
theorem delivered (w : s.Waits b st) {c : Nat} (next : s.nextDelivery = some c) (other : b ≠ c) :
    (s.delivered c).Waits b st ∧ (s.delivered c).ahead st ⊂ s.ahead st := by
  obtain ⟨inFile, pending⟩ := State.nextDelivery_pending next
  have slot := State.delivered_slotAt_other s other
  refine ⟨⟨w.bands, w.unique.delivered inFile, by rw [slot, w.pending], by rw [slot, w.stamp]⟩, ?_⟩
  have below : (s.slotAt c).stamp.toNat < st.toNat := by
    rw [← w.stamp]
    refine lt_of_le_of_ne (State.nextDelivery_least next w.pending) fun same => other ?_
    exact w.unique.distinct b c w.pending pending (BitVec.eq_of_toNat_eq same.symm)
  refine (Finset.ssubset_iff_of_subset fun d mem => ?_).mpr ⟨c, State.mem_ahead.mpr ⟨pending, below⟩, fun mem => ?_⟩
  · have still := State.mem_ahead.mp mem
    obtain ⟨-, slot⟩ := State.delivered_pending inFile still.1
    rw [slot] at still
    exact State.mem_ahead.mpr still
  · obtain ⟨pending', -⟩ := State.mem_ahead.mp mem
    obtain ⟨own, -⟩ := State.delivered_pending inFile pending'
    exact own rfl

/-- A turn in which the wait does not end lets no record in ahead of b's, and E's turn takes one out. -/
theorem turn (w : s.Waits b st) (room : s.evtTakesRecord = true) {τ : Turn} (takes : takeTurn τ s = .next t)
    (goesOn : ¬WaitEnds s τ t b) :
    t.Waits b st ∧ t.ahead st ⊆ s.ahead st ∧ (τ = .delivery → t.ahead st ⊂ s.ahead st) := by
  simp only [WaitEnds, not_or, Nat.not_le] at goesOn
  obtain ⟨undelivered, reset, unwrapped⟩ := goesOn
  by_cases delivery : τ = .delivery
  · subst delivery
    obtain ⟨c, next, -, rfl⟩ | ⟨idle, -⟩ := delivery_cases (takeTurn_takes takes)
    · have other : b ≠ c := by
        rintro rfl
        obtain ⟨inFile, pending⟩ := State.nextDelivery_pending next
        exact undelivered ⟨rfl, pending, rfl, by rw [State.delivered_slotAt_own inFile]⟩
      obtain ⟨waits, fewer⟩ := w.delivered next other
      exact ⟨waits, fewer.subset, fun _ => fewer⟩
    · rw [w.delivery_enabled room] at idle
      cases idle
  · obtain ⟨waits, same⟩ := w.produced (turn_produced τ s t w.bands unwrapped delivery reset takes)
      (turn_keeps_stampsUnique (takeTurn_takes takes) w.unique unwrapped)
    exact ⟨waits, same, fun e => absurd e delivery⟩

end State.Waits

section
variable {r : Nat → State} {τ : Nat → Turn} {n b : Nat} {st : BitVec 64}

/-- A turn of a run in which the wait does not end. -/
theorem IsRun.waits_succ (run : IsRun r τ) {k : Nat} (w : (r k).Waits b st) (room : (r k).evtTakesRecord = true)
    (goesOn : ¬WaitEnds (r k) (τ k) (r (k + 1)) b) :
    (r (k + 1)).Waits b st ∧ (r (k + 1)).ahead st ⊆ (r k).ahead st ∧
      (τ k = .delivery → (r (k + 1)).ahead st ⊂ (r k).ahead st) :=
  (w.scheduled []).turn room (run k) goesOn

/-- As long as its wait does not end, band b's record waits, with no more records ahead of it. -/
theorem IsRun.waits (run : IsRun r τ) (w : (r n).Waits b st) (room : ∀ k, n ≤ k → (r k).evtTakesRecord = true)
    (goesOn : ∀ k, n ≤ k → ¬WaitEnds (r k) (τ k) (r (k + 1)) b) (k : Nat) (later : n ≤ k) :
    (r k).Waits b st ∧ (r k).ahead st ⊆ (r n).ahead st := by
  induction k, later using Nat.le_induction with
  | base => exact ⟨w, subset_rfl⟩
  | succ k later ih =>
    obtain ⟨waits, noMore⟩ := ih
    obtain ⟨waits', noMore', -⟩ := run.waits_succ waits (room k later) (goesOn k later)
    exact ⟨waits', noMore'.trans noMore⟩

/-- In a fair run the wait ends, by induction on the records ahead. -/
theorem IsRun.waitEnds (run : IsRun r τ) (fair : WeaklyFair r τ) (w : (r n).Waits b st)
    (room : ∀ k, n ≤ k → (r k).evtTakesRecord = true) : ∃ k, n ≤ k ∧ WaitEnds (r k) (τ k) (r (k + 1)) b := by
  induction records : (r n).ahead st using Finset.strongInduction generalizing n with | H _ ih =>
  subst records
  by_contra! goesOn
  have waits := run.waits w room goesOn
  have enabled (k : Nat) (later : n ≤ k) : (r k).agentEnabled .delivery = true :=
    (waits k later).1.delivery_enabled (room k later)
  obtain ⟨k, later, delivery⟩ := fair .delivery n enabled
  obtain ⟨waitsAtK, noMore⟩ := waits k later
  obtain ⟨waitsOn, -, fewer⟩ := run.waits_succ waitsAtK (room k later) (goesOn k later)
  obtain ⟨m, afterK, ends⟩ := ih _ ((fewer delivery).trans_subset noMore) waitsOn
    (fun m afterK => room m (by omega)) rfl
  exact goesOn m (by omega) ends

end

/-- Settles O60: band b's record waits at step n, for a pending slot is one of the build's N_BANDS. -/
theorem fairRunsDeliverEveryPendingRecord : Obligations.FairRunsDeliverEveryPendingRecord := by
  intro r τ n b run fair sized unique pending room
  have inFile := State.pending_inFile pending
  have bands : 1 ≤ (r n).build.nBands := by
    rw [← sized.slot]
    omega
  exact run.waitEnds fair ⟨bands, unique, pending, rfl⟩ room

end Sys2Proof.Machine
end

section
/-! Reset and what the chain then does (70_reset_and_hazards.md R350, R353, R355): the reset input; a band of IDENT adds
and subtracts only zeros to 1.0 * x, so it passes a finite nonzero x bit for bit. -/

namespace Sys2Proof.F64

open Sys2Proof.Machine

/-! ## Zero terms and the factor 1.0 -/

theorem isFinite_of_isZero {z : Word} (h : isZero z = true) : isFinite z = true := by
  rcases isZero_eq_or h with rfl | rfl <;> decide

theorem isZero_neg (z : Word) : isZero (neg z) = isZero z := by
  rw [isZero, neg_toNat, isZero]

theorem wordValue_of_isZero {z : Word} (h : isZero z = true) : wordValue z = 0 := by
  rcases isZero_eq_or h with rfl | rfl <;> decide +kernel

/-- A finite word times +0.0 is one of the zeros. -/
theorem isZero_zero_mul {w : Word} (hw : isFinite w = true) : isZero (mul zero w) = true := by
  rw [mul_of_finite (by decide) hw, show mag zero = 0 by decide, Nat.zero_mul]
  cases signBit zero != signBit w <;> decide

section
variable {x : Word} (finite : isFinite x = true) (nonzero : isZero x = false)
include finite nonzero

/-- A word that is no zero is itself the one word its value rounds to. -/
theorem one_mul_of_nonzero : mul one x = x := by
  have rounds := roundsTo_mul (show isFinite one = true by decide) finite
  rw [wordValue_one, Rat.cast_one, one_mul] at rounds
  exact eq_of_roundsTo finite nonzero rounds

theorem add_of_isZero {z : Word} (hz : isZero z = true) : add x z = x := by
  have rounds := roundsTo_add finite (isFinite_of_isZero hz)
  rw [wordValue_of_isZero hz, Rat.cast_zero, add_zero] at rounds
  exact eq_of_roundsTo finite nonzero rounds

theorem sub_of_isZero {z : Word} (hz : isZero z = true) : sub x z = x :=
  add_of_isZero finite nonzero ((isZero_neg z).trans hz)

end

end Sys2Proof.F64

namespace Sys2Proof.Machine

/-! ## Reset (R350, R353, R355) -/

/-- Settles O13: the turn of the reset input is `afterReset`, with the schedule's first entry taken; what it keeps of
the bus, the replies and the ports' room is the model's choice (log 3). -/
theorem resetInputLeavesThePorts : Obligations.ResetInputLeavesThePorts := by
  intro s rest turns
  simp only [step, turns, takeTurn, State.afterReset]

/-- Settles O12: every band of the layout uses the gain and has it at 0 dB. -/
theorem resetCoefficientsAreTheDesigners : Obligations.ResetCoefficientsAreTheDesigners := by
  intro B b hb
  rw [State.resetOf_bandAt hb]
  exact ⟨State.resetOf_coefAt B b, design_layoutBand B B.num b B.sr0⟩

/-! ## The transparent chain (R353) -/

/-- A history record of finite values. -/
structure Hist.Finite (h : Hist) : Prop where
  x1 : F64.isFinite h.x1 = true
  x2 : F64.isFinite h.x2 = true
  y1 : F64.isFinite h.y1 = true
  y2 : F64.isFinite h.y2 = true

/-- With IDENT the difference equation is 1.0 * x and four zero terms (41_filter.md R191). -/
theorem difference_ident {h : Hist} (finite : h.Finite) {x : Word} (hx : F64.isFinite x = true)
    (nonzero : F64.isZero x = false) : difference Coef.ident h x = x := by
  have x1Term := F64.add_of_isZero hx nonzero (F64.isZero_zero_mul finite.x1)
  have x2Term := F64.add_of_isZero hx nonzero (F64.isZero_zero_mul finite.x2)
  have y1Term := F64.sub_of_isZero hx nonzero (F64.isZero_zero_mul finite.y1)
  have y2Term := F64.sub_of_isZero hx nonzero (F64.isZero_zero_mul finite.y2)
  simp only [difference, Coef.ident, Coef.gain, F64.one_mul_of_nonzero hx nonzero, x1Term, x2Term, y1Term, y2Term]

/-- Values that pass from band to band of an IDENT chain with finite history stay the finite nonzero value that
entered it. -/
theorem identChain_passes {n : Nat} {coef : Nat → Coef} {hist : Nat → Hist} {site : Nat → Config.NanSite}
    {v : Nat → Word} (ident : ∀ b, b < n → coef b = Coef.ident) (finite : ∀ b, (hist b).Finite)
    (bands : ∀ b, b < n → v (b + 1) = F64.settle (site b) (difference (coef b) (hist b) (v b)))
    (hx : F64.isFinite (v 0) = true) (nonzero : F64.isZero (v 0) = false) : ∀ b, b ≤ n → v b = v 0 := by
  intro b hb
  induction b with
  | zero => rfl
  | succ b ih =>
    rw [bands b hb, ident b hb, ih (Nat.le_of_succ_le hb), difference_ident (finite b) hx nonzero,
      F64.settle_of_not_nan (F64.isNaN_of_isFinite hx)]

/-- Settles O40: O35 gives the values along each channel, and each stays the channel's sample. -/
theorem identityChainIsTransparent : Obligations.IdentityChainIsTransparent := by
  intro s xs sized fits ident history count samples room
  obtain ⟨t, runs, v, input, bands, -, sout, -⟩ :=
    frameFiltersEveryChannelThroughEveryBand s xs sized fits count room
  have finite (ch b : Nat) : (s.histAt b ch).Finite :=
    have ⟨x1, x2, y1, y2⟩ := history b ch
    ⟨x1, x2, y1, y2⟩
  have passes (ch : Nat) (live : ch < xs.length) : v ch s.build.nBands = xs[ch] := by
    have sample : v ch 0 = xs[ch] := (input ch (count ▸ live)).trans (List.getD_eq_getElem _ _ live)
    obtain ⟨hx, nonzero⟩ := samples _ (List.getElem_mem live)
    rw [← sample] at hx nonzero
    rw [← sample]
    exact identChain_passes ident (finite ch) (fun b hb => (bands ch b (count ▸ live) hb).1) hx nonzero _ le_rfl
  refine ⟨t, runs, sout.trans (congrArg (s.sout ++ wordN 0x40 0 s.channelCount :: ·) ?_)⟩
  refine List.ext_getElem (by simp [count]) fun ch _ live => ?_
  rw [List.getElem_map, List.getElem_range, passes ch live]

end Sys2Proof.Machine
end

section
/-! The words that 95_test_vectors.md section 5 writes out. -/

namespace Sys2Proof

/-- A RATE header's COUNT is reserved (30_encoding.md R111, R113). -/
theorem decodeToken_rate_of_count {h s : Word} (op : opField h = 0x41) (count : countField h ≠ 0) :
    decodeToken h [s] = .error .reservedBits := by
  have length : [s].length = payloadLen h := (payloadLen_rate op).symm
  have illegal : formatS h (countZero h (.ok (.rate s))) = .error .reservedBits := by
    rw [formatS, countZero, if_neg count, ite_self]
  simpa [decodeToken, length, op] using illegal

/-- Settles O4: the legal words are those their instructions encode to, and the RATE header has a COUNT. -/
theorem writtenOutWordsDecode : Obligations.WrittenOutWordsDecode :=
  ⟨decodeCmd_of_encode rfl (by decide), decodeCmd_of_encode rfl (by decide),
    decodeQcmd_of_encode rfl (by decide), decodeQcmd_of_encode rfl (by decide),
    decodeToken_of_encode rfl (by decide) (by decide), decodeToken_rate_of_count (by decide) (by decide)⟩

end Sys2Proof
end
